-- ==== Sys2Proof/Word.lean ====
section
/-! DEFINITION. The word types of the block and of what surrounds it. -/

namespace Sys2Proof

/-- A byte, "a natural number 0 to 255" (R10). Bit 0 is the least significant bit. -/
abbrev Byte := BitVec 8

/-- The width of the divisor latch (R24). -/
abbrev Word16 := BitVec 16

/-- The 12-bit transaction word `{dir, off, data}` (R81). -/
abbrev TransWord := BitVec 12

/-- The 13-bit decode key `{dlab, word}` (R81, R84). -/
abbrev Key := BitVec 13

/-- A character sequence of a sink, each character the one whose code is the byte (R166, R167). -/
abbrev Text := List Byte

/-- An identifier or a configuration string: opaque, compared for equality only (R180, entry N21). -/
abbrev Ident := List Char

end Sys2Proof
end

