-- ==== Sys2Proof/Config.lean ====
section
/-! DEFINITION. What an implementation fixes (the parameters of R8 and the switches of
`92_eei_decisions.md`), and the free values. -/

namespace Sys2Proof

/-- The "two predefined (base, IRQ) pairs" `ADAPTER` selects from (R8, R63): base address and interrupt line of adapter 1 and of
adapter 2 (OPEN, decision D7). -/
structure AdapterPairs where
  base1 : Nat
  line1 : Nat
  base2 : Nat
  line2 : Nat
deriving DecidableEq, Repr

/-- "mutually exclusive I/O base addresses", read as: "the two port ranges do not overlap" (R63). -/
abbrev AdapterPairs.Exclusive (w : AdapterPairs) : Prop := w.base1 + 8 ≤ w.base2 ∨ w.base2 + 8 ≤ w.base1

/-- The pairs of the PC family, PRESUMED (entry G3): notes/assumptions/5. -/
def AdapterPairs.pc : AdapterPairs := { base1 := 0x3F8, line1 := 4, base2 := 0x2F8, line2 := 3 }

/-- The configuration a block is constructed with (R200) and the parameters of R8. No operation writes it. -/
structure PortConfig where
  /-- `ADAPTER`: 1 or 2, any other value makes the block inert (R200). -/
  adapter : Nat
  /-- The pairs of the machine the block stands in, of which `adapter` selects one (R63). -/
  pairs : AdapterPairs
  /-- The machine the block stands in: two linked blocks may stand "in one machine or in two" (R239). -/
  machine : Ident
  /-- `IRQ_DELAY`, in ticks of the interrupt controller (OPEN, decision D8). -/
  irqDelay : Nat
  /-- `DL_RESET` (OPEN, decision D9). -/
  dlReset : Word16
  /-- `bindingName`, which selects the local sink (R162). -/
  bindingName : Option Ident
  /-- `TAB_WIDTH`, read by the echo sink only (R168). -/
  tabWidth : Option Nat
  /-- `BOL_CHAR`, read by the echo sink only (R171). -/
  bolChar : Option Byte
  /-- `CONNECTION`, the descriptor string (R180). -/
  connection : Option Ident
  /-- `NULL_MODEM`, the flag this block proposes when it initiates a link (R184). -/
  nullModem : Bool
  /-- The block's own identifier (R180). -/
  ownId : Ident
  /-- `ID_RDA`, the condition code of receive-data-available (R225). -/
  idRda : BitVec 2
  /-- `ID_MSI`, the condition code of modem status (R225). -/
  idMsi : BitVec 2
  /-- `SCR_WRITABLE`, default true (R129, decision D25). -/
  scrWritable : Bool
  /-- `ARBITRATE_ON_ALL_INPUTS`, default true (decision D2): whether `RD.MSR` and `WR.IER` run the arbiter. -/
  arbitrateOnAllInputs : Bool
deriving DecidableEq, Repr

/-- `ADAPTER` is 1 or 2; "any other value is a configuration error" (R200). -/
def PortConfig.known (c : PortConfig) : Bool := c.adapter == 1 || c.adapter == 2

/-- `BASE`, the port address of offset 0: of the pair `ADAPTER` selects (R63). -/
def PortConfig.base (c : PortConfig) : Nat := if c.adapter = 2 then c.pairs.base2 else c.pairs.base1

/-- `IRQ_LINE`, of the pair `ADAPTER` selects (R63). -/
def PortConfig.irqLine (c : PortConfig) : Nat := if c.adapter = 2 then c.pairs.line2 else c.pairs.line1

/-- The constants at their defaults (R8, R225, decisions D2, D25), no sink, no descriptor, in a machine `M`; the pairs are the
PC family's (R8, entry G3). PRESUMED for the pairs, DESIGN CHOICE for the rest: notes/assumptions 2, 4, 5, 6. -/
def PortConfig.default (adapter : Nat) (ownId : Ident) : PortConfig where
  adapter := adapter
  pairs := .pc
  machine := ['M']
  irqDelay := 1
  dlReset := 0x0180#16
  bindingName := none
  tabWidth := none
  bolChar := none
  connection := none
  nullModem := true
  ownId := ownId
  idRda := 0b10#2
  idMsi := 0b00#2
  scrWritable := true
  arbitrateOnAllInputs := true

/-- FREE VALUE: what a component that is not a SerialPort answers to a delivered byte (R164, entry N13), the argument
being the number of free values drawn before. notes/assumptions/12. -/
opaque Config.deviceAnswer : Nat → Bool

/-- FREE VALUE: what a read returns of a port that no block claims (R64, entry N14). notes/assumptions/11. -/
opaque Config.unclaimedByte : Nat → Byte

end Sys2Proof
end

