-- ==== Sys2Proof/Syntax.lean ====
section
/-! DEFINITION. The operations other agents perform on a block (R80, R88, R89), and how an agent presents one. -/

namespace Sys2Proof

/-- The two places a SerialPort block can stand in (R239: "at most two per machine"). notes/assumptions/7. -/
inductive Ep where
  | a
  | b
deriving DecidableEq, Repr

/-- The other place. -/
def Ep.other : Ep → Ep
  | .a => .b
  | .b => .a

namespace Machine

/-- What the component directory finds under an identifier (R182): the block in a slot, or an outside component with the
capabilities it exports. -/
inductive Target where
  | port (ep : Ep)
  | ext (name : Ident) (exportsConnect exportsReceiveData exportsReceiveStatus : Bool)
deriving DecidableEq, Repr

/-- An entry of the component directory (R181). -/
structure DirEntry where
  id : Ident
  target : Target
deriving DecidableEq, Repr

end Machine

/-- The argument of `RXPUSH` (R143: "a single sum type with variants {Byte, ByteSequence}"). -/
inductive RxData where
  | byte (b : Byte)
  | bytes (bs : List Byte)
deriving DecidableEq, Repr

/-- One primitive value of a snapshot (R203: "an ordered list of primitive values"). -/
inductive Prim where
  | byte (b : Byte)
  | word (w : Word16)
  | bytes (bs : List Byte)
deriving DecidableEq, Repr

/-- The operations, one constructor per row of `spec/opcode_table.json`. -/
inductive Instr where
  -- port reads (R101 to R110)
  | rdRbr
  | rdDll
  | rdIer
  | rdDlm
  | rdIir
  | rdLcr
  | rdMcr
  | rdLsr
  | rdMsr
  | rdScr
  -- port writes (R120 to R129)
  | wrThr (v : Byte)
  | wrDll (v : Byte)
  | wrIer (v : Byte)
  | wrDlm (v : Byte)
  | wrX2 (v : Byte)
  | wrLcr (v : Byte)
  | wrMcr (v : Byte)
  | wrX5 (v : Byte)
  | wrX6 (v : Byte)
  | wrScr (v : Byte)
  -- calls of the line (R140, R142)
  | rxpush (data : RxData)
  | msin (cts dsr ri rlsd : Bool)
  -- calls of the host (R250, R204, R205)
  | reset
  | save
  | restore (snapshot : List Prim)
  -- link management (R182, R185, R187)
  | resolve (flag : Bool)
  | connect (isNullModem : Bool)
  | attachMouse (id device updateCallback : Ident)
deriving DecidableEq, Repr

/-- The operations that are calls, not bus transactions (R88, R89). The two that resolve a link bring the component directory
they resolve in: "an explicitly passed directory object/context handed to the ConnectionBroker at resolution time" (R181). -/
inductive Call where
  | rxpush (data : RxData)
  | msin (cts dsr ri rlsd : Bool)
  | reset
  | save
  | restore (snapshot : List Prim)
  | resolve (flag : Bool) (directory : List Machine.DirEntry)
  | connect (isNullModem : Bool) (directory : List Machine.DirEntry)
  | attachMouse (id device updateCallback : Ident)
deriving DecidableEq, Repr

/-- The operation a call performs. -/
def Call.toInstr : Call → Instr
  | .rxpush d => .rxpush d
  | .msin c d r l => .msin c d r l
  | .reset => .reset
  | .save => .save
  | .restore s => .restore s
  | .resolve f _ => .resolve f
  | .connect f _ => .connect f
  | .attachMouse i d u => .attachMouse i d u

/-- The component directory a call hands over (R181); none for a call that resolves nothing. -/
def Call.directory : Call → Option (List Machine.DirEntry)
  | .resolve _ d | .connect _ d => some d
  | .rxpush _ | .msin _ _ _ _ | .reset | .save | .restore _ | .attachMouse _ _ _ => none

/-- The call is one of the two of which the host performs one at each power-up (R208). -/
def Call.powersUp : Call → Bool
  | .reset | .restore _ => true
  | .rxpush _ | .msin _ _ _ _ | .save | .resolve _ _ | .connect _ _ | .attachMouse _ _ _ => false

/-- The direction of a bus access (R81). -/
inductive Dir where
  | read
  | write
deriving DecidableEq, Repr

/-- One operation as its agent presents it to the block in slot `ep`.
`access` is a byte access of the bus at an absolute port number, with the optional address of the instruction that made
it (R60; absent for a debugger's access, R67). `wide` is an access of `width` bytes, `width` not 1 (R65). `construct` is the
construction of the block with a configuration (R200), which a slot takes once (R201; notes/assumptions/29). -/
inductive Request where
  | access (ep : Ep) (dir : Dir) (port : Nat) (data : Byte) (source : Option Nat)
  | wide (ep : Ep) (dir : Dir) (port width : Nat)
  | call (ep : Ep) (c : Call)
  | construct (ep : Ep) (cfg : PortConfig)
deriving DecidableEq, Repr

/-- The slot a request is presented to. -/
def Request.ep : Request → Ep
  | .access ep _ _ _ _ => ep
  | .wide ep _ _ _ => ep
  | .call ep _ => ep
  | .construct ep _ => ep

end Sys2Proof
end

