-- ==== Sys2Proof/Machine/State.lean ====
section
/-! DEFINITION. The state of the machine as plain data, the reasons a step can stop, and the state after reset. -/

namespace Sys2Proof.Machine

/-- A fault of the machine. There is none: "No bus transaction raises a synchronous exception: no fault, no bus error, no
abort, for any offset, direction, value or state" (R234), and the three errors of R235 are return values. -/
inductive Fault where
deriving DecidableEq, Repr

/-- Why the model has no meaning for what an agent asks. -/
inductive Refusal where
  /-- Raised by an arm of `exec` whose operation has no meaning yet; no arm does. Safe. -/
  | notModelled (mnemonic : String)
  /-- Raised by a step on a bus access of `width` bytes, `width` not 1: "the model refuses such an access rather than
  guess" (R65, decision D15). Safe. notes/assumptions/10. -/
  | wideAccess (width : Nat)
  /-- Raised by a step on a construction in a slot that holds a block: "a SerialPort is constructed once per configured adapter
  slot", and its handler tables "never change afterwards" (R201). Safe. notes/assumptions/29. -/
  | constructedTwice
  /-- Raised by a step on the construction of a block whose ports a live block of the same machine has, or whose adapter that
  block is: "two blocks with the same `ADAPTER` are never present in one machine" (R63). Safe. notes/assumptions/29. -/
  | windowTaken
  /-- Raised by a step on a bus access to a live block that has had no power-up: "No bus transaction reaches the block between
  construction and the first power-up" (R208). Safe. notes/assumptions/29. -/
  | beforePowerUp
deriving DecidableEq, Repr

/-- What a link or a capability refers to (R40): the block in a slot, or a component outside the model by its name. -/
inductive Ref where
  | port (ep : Ep)
  | ext (name : Ident)
deriving DecidableEq, Repr

/-- A control-line status: six named levels (R188). -/
structure Lines where
  cts : Bool
  dsr : Bool
  cd : Bool
  ri : Bool
  rts : Bool
  dtr : Bool
deriving DecidableEq, Repr

/-- A call a block makes outward, or a report it makes; `ep` is the block that makes it. -/
inductive Event where
  /-- `IrqAssert(IRQ_LINE, IRQ_DELAY)` (R226) -/
  | irqAssert (ep : Ep) (line delay : Nat)
  /-- `IrqClear(IRQ_LINE)` (R226) -/
  | irqClear (ep : Ep) (line : Nat)
  /-- a logged line of the log sink (R165) -/
  | logLine (ep : Ep) (line : Text)
  /-- a call of `connect` of a link target (R182) -/
  | connect (ep : Ep) (target : Ref) (flag : Bool)
  /-- a call of the capability `sendData` with one byte (R164) -/
  | receiveData (ep : Ep) (target : Ref) (b : Byte)
  /-- a call of the capability `updateStatus` (R186) -/
  | receiveStatus (ep : Ep) (target : Ref) (lines : Lines)
  /-- `ConnectionResolutionFailure`, "logged as status" (R183) -/
  | resolutionFailure (ep : Ep)
  /-- `ConfigurationError`, "reported as a warning" (R200) -/
  | configurationError (ep : Ep)
deriving DecidableEq, Repr

/-- What an operation returns to the agent that performed it. -/
inductive Result where
  /-- nothing: a port write, `RESET` -/
  | nothing
  /-- the byte a port read returns (R100) -/
  | byte (b : Byte)
  /-- the acceptance `RXPUSH` returns (R144) -/
  | accepted (ok : Bool)
  /-- the snapshot `SAVE` returns (R204) -/
  | snapshot (s : List Prim)
  /-- `RESTORE` succeeded (R205) -/
  | restored
  /-- `SnapshotShapeMismatch` (R206) -/
  | snapshotShapeMismatch
  /-- `RESOLVE` or `CONNECT` returned without a failure (R182) -/
  | resolved
  /-- `ConnectionResolutionFailure` (R183) -/
  | connectionResolutionFailure
  /-- construction of a block with adapter 1 or 2 (R200) -/
  | constructed
  /-- `ConfigurationError`, as the return value of the construction (R200, R235) -/
  | configurationError
  /-- success or failure of `ATTACHMOUSE` (R187) -/
  | attached (ok : Bool)
  /-- the call was made on an inert block, which ignores it (R200, decision D33) -/
  | ignored
deriving DecidableEq, Repr

/-- How far the life of the block in a slot has come (R201, R208). -/
inductive Stage where
  /-- the slot holds no block -/
  | absent
  /-- constructed, and no `RESET` or `RESTORE` has been performed on it -/
  | constructed
  /-- the host has performed the first power-up's `RESET` or `RESTORE` -/
  | powered
deriving DecidableEq, Repr

/-- One SerialPort block: its configuration, how far its life has come, the register bank (R20), the receive queue (R38), the
request level (R39), the link state (R40) and the sink state (R41). -/
structure Port where
  cfg : PortConfig
  stage : Stage
  rbr : Byte
  thr : Byte
  dl : Word16
  ier : Byte
  iir : Byte
  lcr : Byte
  mcr : Byte
  lsr : Byte
  msr : Byte
  scr : Byte
  /-- head first (R38) -/
  rxq : List Byte
  intr : Bool
  peer : Option Ref
  sendData : Option Ref
  updateStatus : Option Ref
  nullModem : Bool
  logbuf : Text
  column : Nat
  surface : Text
deriving DecidableEq, Repr

/-- The machine: two blocks and what surrounds them. -/
structure State where
  portA : Port
  portB : Port
  /-- the component directory most recently handed to the connection broker, with the call that resolves in it (R181) -/
  directory : List DirEntry
  /-- the calls made outward so far, oldest first (R227) -/
  events : List Event
  /-- the block the operation in hand acts on -/
  active : Ep
  /-- the operations the agents have still to perform, first one first (R71) -/
  pending : List Request
  /-- what the latest operation returned -/
  result : Result
  /-- how many free values have been drawn -/
  draws : Nat
deriving DecidableEq, Repr

/-- A block after construction with `cfg`, before its first power-up: the values of R47, the link absent and the sinks empty
(R40, R41). -/
def Port.fresh (cfg : PortConfig) : Port where
  cfg := cfg
  stage := .constructed
  rbr := 0x00
  thr := 0x00
  dl := cfg.dlReset
  ier := 0x00
  iir := 0x01
  lcr := 0x00
  mcr := 0x00
  lsr := 0x60
  msr := 0x30
  scr := 0x00
  rxq := []
  intr := false
  peer := none
  sendData := none
  updateStatus := none
  nullModem := false
  logbuf := []
  column := 0
  surface := []

/-- The machine right after reset: two blocks of one machine, adapters 1 and 2, constructed and powered up by `RESET` (R208),
each as R47 says, not linked, nothing pending. The configurations and the directory are the model's choice: notes/assumptions/6. -/
def State.reset : State where
  portA := { Port.fresh (PortConfig.default 1 ['A']) with stage := .powered }
  portB := { Port.fresh (PortConfig.default 2 ['B']) with stage := .powered }
  directory := [⟨['M', '.', 'A'], .port .a⟩, ⟨['M', '.', 'B'], .port .b⟩]
  events := []
  active := .a
  pending := []
  result := .nothing
  draws := 0

end Sys2Proof.Machine
end

