-- ==== Sys2Proof/Machine/Flags.lean ====
section
/-! DEFINITION. Bit fields of the registers, and the computation of every flag: the arbiter's two conditions, the delta
bits of the modem status, the transmitter's two flags. Bit positions are those of R26, R28, R29, R30, R32, R35. -/

namespace Sys2Proof.Machine

/-- The byte with bit `i` replaced (R10, R12). -/
def setBit (b : Byte) (i : Nat) (v : Bool) : Byte :=
  if v then b ||| (1#8 <<< i) else b &&& ~~~(1#8 <<< i)

/-- `LCR[7]`, DLAB (R29). -/
def Port.dlab (p : Port) : Bool := p.lcr.getLsbD 7

/-- `LSR[0]`, DR: a byte is staged in RBR and not yet read (R32). -/
def Port.dr (p : Port) : Bool := p.lsr.getLsbD 0

/-- `LSR[5]`, THRE (R32). -/
def Port.thre (p : Port) : Bool := p.lsr.getLsbD 5

/-- `LSR[6]`, TSRE (R32). -/
def Port.tsre (p : Port) : Bool := p.lsr.getLsbD 6

/-- `IER[0]`, ERBFI (R26). -/
def Port.erbfi (p : Port) : Bool := p.ier.getLsbD 0

/-- `IER[3]`, EDSSI (R26). -/
def Port.edssi (p : Port) : Bool := p.ier.getLsbD 3

/-- `MSR[3:0]`, the four delta bits (R35). -/
def Port.deltas (p : Port) : BitVec 4 := p.msr.extractLsb' 0 4

/-- `IIR[0]`, NOINT (R28). -/
def Port.noInt (p : Port) : Bool := p.iir.getLsbD 0

/-- `IIR[2:1]`, ID (R28). -/
def Port.intId (p : Port) : BitVec 2 := p.iir.extractLsb' 1 2

/-- The arbiter's first condition, receive data available (R220). -/
def Port.condRda (p : Port) : Bool := p.dr && p.erbfi

/-- The arbiter's second condition, modem status (R220). -/
def Port.condMsi (p : Port) : Bool := p.deltas != 0#4 && p.edssi

/-- The code of the highest-priority condition that matches, none where none does (R221, R222). -/
def Port.arbiterCode (p : Port) : Option (BitVec 2) :=
  if p.condRda then some p.cfg.idRda else if p.condMsi then some p.cfg.idMsi else none

/-- IIR with its bits 2:0 written for a match (R222); bits 7:3 stay. -/
def iirMatched (iir : Byte) (code : BitVec 2) : Byte :=
  setBit (setBit (setBit iir 0 false) 1 (code.getLsbD 0)) 2 (code.getLsbD 1)

/-- IIR with bit 0 set for no match; bits 2:1 keep the last code (R222, decision D4). -/
def iirIdle (iir : Byte) : Byte := setBit iir 0 true

/-- LSR with DR replaced. -/
def lsrDr (lsr : Byte) (v : Bool) : Byte := setBit lsr 0 v

/-- LSR with THRE and TSRE replaced, always to one value (R34). -/
def lsrTx (lsr : Byte) (v : Bool) : Byte := setBit (setBit lsr 5 v) 6 v

/-- MSR with the four delta bits cleared (R109). -/
def msrCleared (msr : Byte) : Byte := msr &&& 0xF0#8

/-- MSR after the line sets the four input levels (R142): a delta bit is set where its level changed, TERI where RI fell,
and set delta bits stay set. -/
def msrAfter (msr : Byte) (cts dsr ri rlsd : Bool) : Byte :=
  let m := setBit msr 0 (msr.getLsbD 0 || (cts != msr.getLsbD 4))
  let m := setBit m 1 (msr.getLsbD 1 || (dsr != msr.getLsbD 5))
  let m := setBit m 2 (msr.getLsbD 2 || (msr.getLsbD 6 && !ri))
  let m := setBit m 3 (msr.getLsbD 3 || (rlsd != msr.getLsbD 7))
  let m := setBit m 4 cts
  let m := setBit m 5 dsr
  let m := setBit m 6 ri
  setBit m 7 rlsd

/-- DTR or RTS differs between two values of MCR: `(old ^ v) & 0x03` is not 0 (R126). -/
def mcrLinesChanged (old v : Byte) : Bool := (old ^^^ v) &&& 0x03#8 != 0#8

end Sys2Proof.Machine
end

