-- ==== Sys2Proof/Machine/Operands.lean ====
section
/-! DEFINITION. The operand forms: inbound data, snapshots, control-line statuses, connection descriptors, and what the
configuration selects. -/

namespace Sys2Proof.Machine

/-- The bytes of an `RXPUSH` argument, in the order they are to be received (R140, R143). -/
def rxBytes : RxData → List Byte
  | .byte b => [b]
  | .bytes bs => bs

/-- A text string as the sequence of its character codes (R143); none where a code is above 255, which the block's data
type cannot hold (decision D26). -/
def textBytes : List Char → Option (List Byte)
  | [] => some []
  | c :: cs => if c.toNat < 256 then (textBytes cs).map (BitVec.ofNat 8 c.toNat :: ·) else none

/-- The latch with its low byte replaced, `{DL[15:8], v}` (R121). -/
def dlWithLow (dl : Word16) (v : Byte) : Word16 := (dl.extractLsb' 8 8 : Byte) ++ v

/-- The latch with its high byte replaced, `{v, DL[7:0]}` (R123). -/
def dlWithHigh (dl : Word16) (v : Byte) : Word16 := v ++ (dl.extractLsb' 0 8 : Byte)

/-- `DL[7:0]` (R102). -/
def dlLow (dl : Word16) : Byte := dl.extractLsb' 0 8

/-- `DL[15:8]` (R104). -/
def dlHigh (dl : Word16) : Byte := dl.extractLsb' 8 8

/-- The block is there, claims its ports and acts: it has been constructed and `ADAPTER` is 1 or 2; with another value it is
inert for its whole life (R200). -/
def Port.live (p : Port) : Bool := p.stage != .absent && p.cfg.known

/-- The block once the host has performed the `RESET` or `RESTORE` of a power-up on it (R208); an empty slot stays empty. -/
def Port.poweredUp (p : Port) : Port := { p with stage := if p.stage = .absent then .absent else .powered }

/-- The local sinks (R162). -/
inductive SinkKind where
  | silent
  | log
  | echo
deriving DecidableEq, Repr

/-- The local sink `bindingName` selects: absent, silent; "console", the log; any other string, the echo surface (R162). -/
def sinkKind : Option Ident → SinkKind
  | none => .silent
  | some name => if name = ['c', 'o', 'n', 's', 'o', 'l', 'e'] then .log else .echo

/-- The descriptor cut at its first `->`: source part and target part (R180). -/
def splitArrow : List Char → Option (Ident × Ident)
  | '-' :: '>' :: rest => some ([], rest)
  | c :: rest => (splitArrow rest).map fun st => (c :: st.1, st.2)
  | [] => none

/-- The identifier under which the target is to be looked up, where the block has a descriptor whose source part is its
own identifier (R180, R182). -/
def Port.linkTarget (p : Port) : Option Ident :=
  match p.cfg.connection with
  | none => none
  | some d =>
    match splitArrow d with
    | none => none
    | some (source, target) => if source = p.cfg.ownId then some target else none

/-- `directory.lookup` (R182): the first entry under the identifier. -/
def lookupTarget (dir : List DirEntry) (key : Ident) : Option Target :=
  (dir.find? fun e => e.id == key).map (·.target)

/-- The endpoint the block in slot `ep` can take as its peer under an identifier: "one other endpoint" (R40), since a block
never calls its own `RXPUSH` and has no loop-back path (R146). DESIGN CHOICE: where the directory finds the block itself, R182
goes on as where it finds nothing (notes/assumptions/28). -/
def lookupPeer (dir : List DirEntry) (ep : Ep) (key : Ident) : Option Target :=
  (lookupTarget dir key).filter (· != .port ep)

/-- The reference recorded for a target (R182). -/
def Target.ref : Target → Ref
  | .port ep => .port ep
  | .ext name _ _ _ => .ext name

/-- `Translate(dtr, rts)` (R186): the null-modem crossover, or straight through. -/
def translate (nullModem dtr rts : Bool) : Lines :=
  if nullModem then { cts := rts, dsr := dtr, cd := dtr, ri := false, rts := false, dtr := false }
  else { cts := false, dsr := false, cd := false, ri := false, rts := rts, dtr := dtr }

/-- The snapshot of a block: ten elements in the order of R203. -/
def Port.snapshot (p : Port) : List Prim :=
  [.byte p.rbr, .byte p.thr, .word p.dl, .byte p.ier, .byte p.iir] ++
  [.byte p.lcr, .byte p.mcr, .byte p.lsr, .byte p.msr, .bytes p.rxq]

/-- The snapshot has the shape of R203: ten elements of their kinds. -/
def snapshotShaped : List Prim → Bool
  | [.byte _, .byte _, .word _, .byte _, .byte _, .byte _, .byte _, .byte _, .byte _, .bytes _] => true
  | _ => false

/-- The block with its registers and queue replaced from a snapshot (R205), `scr` at its reset value and `intr` the
complement of `iir[0]` (decision D19); none where the snapshot has not the shape of R203 (R206). -/
def Port.restoredFrom (p : Port) : List Prim → Option Port
  | [.byte rbr, .byte thr, .word dl, .byte ier, .byte iir, .byte lcr, .byte mcr, .byte lsr, .byte msr, .bytes rxq] =>
    some { p with
      rbr := rbr, thr := thr, dl := dl, ier := ier, iir := iir, lcr := lcr, mcr := mcr, lsr := lsr, msr := msr,
      rxq := rxq, scr := 0x00, intr := !iir.getLsbD 0 }
  | _ => none

end Sys2Proof.Machine
end

