-- ==== Sys2Proof/Machine/Ops.lean ====
section
/-! DEFINITION. The shared operations: access to a block, the arbiter (R222, which stands where a processor would take
an exception), staging (R141), the hand-over to the transmit sinks (R160 to R171), the control lines (R186, R189), reset
(R250), the connection broker (R182, R187) and construction (R200). -/

namespace Sys2Proof.Machine

/-- The block in a slot. -/
def State.port (s : State) : Ep → Port
  | .a => s.portA
  | .b => s.portB

/-- The state with the block in slot `ep` changed by `f`. -/
def State.modify (s : State) (ep : Ep) (f : Port → Port) : State :=
  match ep with
  | .a => { s with portA := f s.portA }
  | .b => { s with portB := f s.portB }

/-- The block the operation in hand acts on. -/
def State.cur (s : State) : Port := s.port s.active

/-- The state with a call or a report added to the history. -/
def State.emit (s : State) (e : Event) : State := { s with events := s.events ++ [e] }

/-- The state with the value the operation returns. -/
def State.returning (s : State) (r : Result) : State := { s with result := r }

/-! ### The arbiter and staging -/

/-- IIR and the request level as the arbiter leaves them (R222). -/
def Port.arbitrated (p : Port) : Port :=
  match p.arbiterCode with
  | some code => { p with iir := iirMatched p.iir code, intr := true }
  | none => { p with iir := iirIdle p.iir, intr := false }

/-- The call the arbiter makes on the interrupt controller for the level it has set (R222, R226). -/
def Port.irqCall (p : Port) (ep : Ep) : Event :=
  if p.intr then .irqAssert ep p.cfg.irqLine p.cfg.irqDelay else .irqClear ep p.cfg.irqLine

/-- `Arbitrate()` (R222), with its call, made at every run (R227). -/
def State.arbitrate (s : State) (ep : Ep) : State :=
  let t := s.modify ep Port.arbitrated
  t.emit ((t.port ep).irqCall ep)

/-- `Arbitrate()` where the operation is `RD.MSR` or `WR.IER` (R223), under the switch of decision D2. -/
def State.rearbitrate (s : State) (ep : Ep) : State :=
  if (s.port ep).cfg.arbitrateOnAllInputs then s.arbitrate ep else s

/-- The first part of `Stage()`: the head of the queue moves into RBR where DR is clear (R141). -/
def Port.staged (p : Port) : Port :=
  match p.rxq with
  | [] => p
  | b :: rest => if p.dr then p else { p with rbr := b, rxq := rest, lsr := lsrDr p.lsr true }

/-- `Stage()` (R141): it always ends in `Arbitrate()`. -/
def State.stage (s : State) (ep : Ep) : State := (s.modify ep Port.staged).arbitrate ep

/-- The side effect of a read of offset 0, for both values of DLAB (R68, R101, R102). -/
def State.takeByte (s : State) (ep : Ep) : State :=
  (s.modify ep fun p => { p with lsr := lsrDr p.lsr false }).stage ep

/-! ### The line -/

/-- `RXPUSH` on the block in a slot (R140): the whole sequence is pushed, then `Stage()` runs once. -/
def State.rxPush (s : State) (ep : Ep) (data : List Byte) : State :=
  (s.modify ep fun p => { p with rxq := p.rxq ++ data }).stage ep

/-- `MSIN` on the block in a slot (R142). -/
def State.msIn (s : State) (ep : Ep) (cts dsr ri rlsd : Bool) : State :=
  (s.modify ep fun p => { p with msr := msrAfter p.msr cts dsr ri rlsd }).arbitrate ep

/-! ### The transmit sinks -/

/-- The beginning-of-line filler, prefixed where the column is 0 and one is configured (R171). -/
def Port.filled (p : Port) : Port :=
  match p.cfg.bolChar with
  | some c => if p.column = 0 then { p with surface := p.surface ++ [c] } else p
  | none => p

/-- The echo surface takes a byte (R167 to R171). -/
def Port.echoed (p : Port) (b : Byte) : Port :=
  if b = 0x0D#8 then { p with column := 0 }
  else if b = 0x08#8 then { p with surface := p.surface.dropLast, column := p.column - 1 }
  else if b = 0x09#8 then
    let w := p.cfg.tabWidth.getD 8
    if w = 0 then p
    else
      let n := w - p.column % w
      { p with surface := p.filled.surface ++ List.replicate n 0x20#8, column := p.column + n }
  else { p with surface := p.filled.surface ++ [b], column := p.column + 1 }

/-- `LOG_LINE_MAX` (R8). -/
def logLineMax : Nat := 1024

/-- The log sink flushes before it takes the byte `b` (R166). -/
def Port.logFlushes (p : Port) (b : Byte) : Bool := b == 0x0A#8 || decide (logLineMax ≤ p.logbuf.length)

/-- The log sink takes a byte (R166): the flush test comes before the append. -/
def Port.logged (p : Port) (b : Byte) : Port :=
  let kept := if p.logFlushes b then [] else p.logbuf
  { p with logbuf := if b = 0x0A#8 then kept else kept ++ [b] }

/-- `LocalSink(b)` (R163, R166, R167), with its answer. -/
def State.localSink (s : State) (ep : Ep) (b : Byte) : State × Bool :=
  let p := s.port ep
  match sinkKind p.cfg.bindingName with
  | .silent => (s, false)
  | .log => ((if p.logFlushes b then s.emit (.logLine ep p.logbuf) else s).modify ep (·.logged b), true)
  | .echo => (s.modify ep (·.echoed b), true)

/-- The peer's part of `Deliver` (R161, R164): the held capability is called with the byte. A SerialPort performs its
`RXPUSH` and accepts (R144); an outside component answers a free value; without the capability the answer is false.
"The block itself never calls its own `RXPUSH`" (R146): a capability of its own slot, which no link records
(notes/assumptions/28), is not called. -/
def State.peerDeliver (s : State) (ep : Ep) (b : Byte) : State × Bool :=
  match (s.port ep).peer, (s.port ep).sendData with
  | some _, some (.port q) =>
    if (s.port q).live && q != ep then ((s.emit (.receiveData ep (.port q) b)).rxPush q [b], true) else (s, false)
  | some _, some (.ext name) =>
    ({ s.emit (.receiveData ep (.ext name) b) with draws := s.draws + 1 }, Config.deviceAnswer s.draws)
  | _, _ => (s, false)

/-- `Deliver(b)` (R160, R161): the peer first, then the local sink, each whatever the other answers. -/
def State.deliver (s : State) (ep : Ep) (b : Byte) : State × Bool :=
  let r := s.peerDeliver ep b
  let l := r.1.localSink ep b
  (l.1, r.2 || l.2)

/-- The effect of `WR.THR` (R120). -/
def State.transmit (s : State) (ep : Ep) (v : Byte) : State :=
  let d := (s.modify ep fun p => { p with thr := v, lsr := lsrTx p.lsr false }).deliver ep v
  if d.2 then d.1.modify ep fun p => { p with lsr := lsrTx p.lsr true } else d.1

/-! ### The control lines -/

/-- `UpdateStatus(lines)` (R186): the held capability is called; a SerialPort performs `MSIN` with the four lines that
are inputs of a UART (R189). The peer is another endpoint (R40): a capability of the block's own slot is not called, as
in `peerDeliver`. -/
def State.sendStatus (s : State) (ep : Ep) (lines : Lines) : State :=
  match (s.port ep).peer, (s.port ep).updateStatus with
  | some _, some (.port q) =>
    if (s.port q).live && q != ep then
      (s.emit (.receiveStatus ep (.port q) lines)).msIn q lines.cts lines.dsr lines.ri lines.cd
    else s
  | some _, some (.ext name) => s.emit (.receiveStatus ep (.ext name) lines)
  | _, _ => s

/-- The effect of `WR.MCR` (R126). -/
def State.writeMcr (s : State) (ep : Ep) (v : Byte) : State :=
  let old := (s.port ep).mcr
  let t := s.modify ep fun p => { p with mcr := v }
  if mcrLinesChanged old v then
    t.sendStatus ep (translate (t.port ep).nullModem (v.getLsbD 0) (v.getLsbD 1))
  else t

/-! ### Reset and construction -/

/-- The registers, the queue and the request level at the values of R47; link and sink state stay (R252). -/
def Port.afterReset (p : Port) : Port :=
  { p with
    rbr := 0x00, thr := 0x00, dl := p.cfg.dlReset, ier := 0x00, iir := 0x01, lcr := 0x00, mcr := 0x00,
    lsr := 0x60, msr := 0x30, scr := 0x00, rxq := [], intr := false }

/-- `RESET` on the block in a slot, with its call on the interrupt controller (R250). -/
def State.resetPort (s : State) (ep : Ep) : State :=
  (s.modify ep Port.afterReset).emit (.irqClear ep (s.port ep).cfg.irqLine)

/-- The construction of a block with `cfg` in slot `ep` brings no port conflict into one machine (R63): the two pairs are
mutually exclusive, and a live block of the same machine in the other slot has the same pairs and the other adapter. -/
def State.windowFree (s : State) (ep : Ep) (cfg : PortConfig) : Bool :=
  let other := s.port ep.other
  !cfg.known || (decide cfg.pairs.Exclusive && (!other.live || other.cfg.machine != cfg.machine ||
    (other.cfg.pairs == cfg.pairs && other.cfg.adapter != cfg.adapter)))

/-- Why no machine performs a construction (R63, R201), none where it can be performed. -/
def State.constructionRefusal (s : State) (ep : Ep) (cfg : PortConfig) : Option Refusal :=
  if (s.port ep).stage ≠ .absent then some .constructedTwice
  else if s.windowFree ep cfg then none else some .windowTaken

/-- Construction of the block in a slot (R200): link absent and sinks empty (R40, R41); an adapter other than 1 or 2 is a
`ConfigurationError`, reported as a warning and returned to the host (R235), and the block is inert. -/
def State.construct (s : State) (ep : Ep) (cfg : PortConfig) : State :=
  let t := s.modify ep fun _ => Port.fresh cfg
  if (t.port ep).live then t.returning .constructed
  else (t.emit (.configurationError ep)).returning .configurationError

/-! ### The connection broker -/

/-- The link recorded in step 3 of R182. -/
def Port.linked (p : Port) (r : Ref) (flag : Bool) : Port :=
  { p with sendData := some r, updateStatus := some r, nullModem := flag }

/-- Whether a target exports `connect`; a live block exports all three capabilities, an inert one none (R202, D33). -/
def State.exportsConnect (s : State) : Target → Bool
  | .port ep => (s.port ep).live
  | .ext _ c _ _ => c

/-- Whether a target exports both `receiveData` and `receiveStatus` (R182). -/
def State.exportsLink (s : State) : Target → Bool
  | .port ep => (s.port ep).live
  | .ext _ _ d u => d && u

/-- Step 2 of R182: where the target exports `connect` it is called; a SerialPort performs `CONNECT`, which is `again`. -/
def State.callConnect (s : State) (again : State → Ep → State) (ep : Ep) (t : Target) (flag : Bool) : State :=
  if s.exportsConnect t then
    let called := s.emit (.connect ep t.ref flag)
    match t with
    | .port q => again called q
    | .ext _ _ _ _ => called
  else s

/-- Steps 3 and 4 of R182: the capabilities are captured, or the failure is reported and the peer withdrawn. -/
def State.captureLink (s : State) (ep : Ep) (t : Target) (flag : Bool) : State × Bool :=
  if s.exportsLink t then (s.modify ep (·.linked t.ref flag), false)
  else ((s.modify ep fun p => { p with peer := none }).emit (.resolutionFailure ep), true)

/-- `RESOLVE(flag)` on the block in a slot (R182), with true where it reports a `ConnectionResolutionFailure`. The fuel
bounds the nesting of `connect` calls: each one that gets past the first test records a peer in a slot that had none.
No block is linked to itself (R40, R146; notes/assumptions/28). -/
def State.resolveLink : Nat → State → Ep → Bool → State × Bool
  | 0, s, _, _ => (s, false)
  | fuel + 1, s, ep, flag =>
    if (s.port ep).peer.isSome then (s, false)
    else
      match (s.port ep).linkTarget with
      | none => (s, false)
      | some key =>
        match lookupPeer s.directory ep key with
        | none => (s.emit (.resolutionFailure ep), true)
        | some t =>
          ((s.modify ep fun p => { p with peer := some t.ref }).callConnect
            (fun u q => (State.resolveLink fuel u q flag).1) ep t flag).captureLink ep t flag

/-- Enough fuel for two slots: two calls record a peer and the third finds one. -/
def resolveFuel : Nat := 3

/-- What `RESOLVE` and `CONNECT` return (R183, R235). -/
def linkResult (failed : Bool) : Result := if failed then .connectionResolutionFailure else .resolved

/-- `ATTACHMOUSE` on the block in a slot (R187), with its success. -/
def State.attach (s : State) (ep : Ep) (id device updateCallback : Ident) : State × Bool :=
  if (s.port ep).peer.isSome || id != (s.port ep).cfg.ownId then (s, false)
  else
    (s.modify ep fun p =>
      { p with peer := some (.ext device), updateStatus := some (.ext updateCallback), nullModem := false }, true)

/-! ### The frame of a meaning -/

/-- A read of a port that no block claims (R64): nothing changes but that a free byte is returned. -/
def State.unclaimedRead (s : State) : State :=
  { s with result := .byte (Config.unclaimedByte s.draws), draws := s.draws + 1 }

/-- The end of a port read: `t` is the state after the side effects and `b` the byte returned. An inert block has no
handler installed (R64, R200). -/
def busRead (s t : State) (b : Byte) : Host.Outcome State Fault Refusal :=
  .next (if s.cur.live then t.returning (.byte b) else s.unclaimedRead)

/-- The end of a port write: "a write returns nothing to the bus master". -/
def busWrite (s t : State) : Host.Outcome State Fault Refusal :=
  .next (if s.cur.live then t.returning .nothing else s.returning .nothing)

/-- The end of a call of the line or the host; an inert block ignores it (R200, decision D33). -/
def callEnd (s t : State) (r : Result) : Host.Outcome State Fault Refusal :=
  .next (if s.cur.live then t.returning r else s.returning .ignored)

end Sys2Proof.Machine
end

