-- ==== Sys2Proof/Machine/HostCalls.lean ====
section
/-! DEFINITION. The calls of the host on the register bank: `RESET` (`70_reset_and_hazards.md`), `SAVE` and `RESTORE`
(`45_host_operations.md`). -/

namespace Sys2Proof.Machine

/-- `RESET` (R250). -/
def execReset (s : State) : Host.Outcome State Fault Refusal :=
  callEnd s (s.resetPort s.active) .nothing

/-- `SAVE` (R204): changes no state and makes no call. -/
def execSave (s : State) : Host.Outcome State Fault Refusal :=
  callEnd s s (.snapshot s.cur.snapshot)

/-- `RESTORE` (R205): runs neither `Stage` nor `Arbitrate` and makes no call; on a shape mismatch nothing changes (R206). -/
def execRestore (snapshot : List Prim) (s : State) : Host.Outcome State Fault Refusal :=
  match s.cur.restoredFrom snapshot with
  | some p => callEnd s (s.modify s.active fun _ => p) .restored
  | none => callEnd s s .snapshotShapeMismatch

end Sys2Proof.Machine
end

