-- ==== Sys2Proof/Machine/LineCalls.lean ====
section
/-! DEFINITION. The two calls of the line (`42_receive_path.md`). -/

namespace Sys2Proof.Machine

/-- `RXPUSH` (R140); it returns true always (R144). -/
def execRxpush (data : RxData) (s : State) : Host.Outcome State Fault Refusal :=
  callEnd s (s.rxPush s.active (rxBytes data)) (.accepted true)

/-- `MSIN` (R142). -/
def execMsin (cts dsr ri rlsd : Bool) (s : State) : Host.Outcome State Fault Refusal :=
  callEnd s (s.msIn s.active cts dsr ri rlsd) .nothing

end Sys2Proof.Machine
end

