-- ==== Sys2Proof/Machine/LinkCalls.lean ====
section
/-! DEFINITION. Link management (`44_connection.md`). -/

namespace Sys2Proof.Machine

/-- `RESOLVE(flag)` (R182). -/
def execResolve (flag : Bool) (s : State) : Host.Outcome State Fault Refusal :=
  let r := State.resolveLink resolveFuel s s.active flag
  callEnd s r.1 (linkResult r.2)

/-- `CONNECT(isNullModem)` (R185): "It performs `RESOLVE(isNullModem)` on the called instance." -/
def execConnect (isNullModem : Bool) (s : State) : Host.Outcome State Fault Refusal :=
  let r := State.resolveLink resolveFuel s s.active isNullModem
  callEnd s r.1 (linkResult r.2)

/-- `ATTACHMOUSE(id, device, updateCallback)` (R187). -/
def execAttachMouse (id device updateCallback : Ident) (s : State) : Host.Outcome State Fault Refusal :=
  let r := s.attach s.active id device updateCallback
  callEnd s r.1 (.attached r.2)

end Sys2Proof.Machine
end

