-- ==== Sys2Proof/Machine/PortReads.lean ====
section
/-! DEFINITION. The ten port reads (`40_port_reads.md`). -/

namespace Sys2Proof.Machine

/-- `RD.RBR` (R101): the byte returned is the value of `rbr` before any staging. -/
def execRdRbr (s : State) : Host.Outcome State Fault Refusal :=
  busRead s (s.takeByte s.active) s.cur.rbr

/-- `RD.DLL` (R102): the side effect on the receive path is that of `RD.RBR` (decision D3, conflict C7). -/
def execRdDll (s : State) : Host.Outcome State Fault Refusal :=
  busRead s (s.takeByte s.active) (dlLow s.cur.dl)

/-- `RD.IER` (R103). -/
def execRdIer (s : State) : Host.Outcome State Fault Refusal :=
  busRead s s s.cur.ier

/-- `RD.DLM` (R104): no side effect, unlike `RD.DLL`. -/
def execRdDlm (s : State) : Host.Outcome State Fault Refusal :=
  busRead s s (dlHigh s.cur.dl)

/-- `RD.IIR` (R105): acknowledges nothing. -/
def execRdIir (s : State) : Host.Outcome State Fault Refusal :=
  busRead s s s.cur.iir

/-- `RD.LCR` (R106). -/
def execRdLcr (s : State) : Host.Outcome State Fault Refusal :=
  busRead s s s.cur.lcr

/-- `RD.MCR` (R107). -/
def execRdMcr (s : State) : Host.Outcome State Fault Refusal :=
  busRead s s s.cur.mcr

/-- `RD.LSR` (R108): clears nothing. -/
def execRdLsr (s : State) : Host.Outcome State Fault Refusal :=
  busRead s s s.cur.lsr

/-- `RD.MSR` (R109): returns the value before the delta bits are cleared. -/
def execRdMsr (s : State) : Host.Outcome State Fault Refusal :=
  busRead s ((s.modify s.active fun p => { p with msr := msrCleared p.msr }).rearbitrate s.active) s.cur.msr

/-- `RD.SCR` (R110); with `SCR_WRITABLE` false it "always returns the reset value" (R129). -/
def execRdScr (s : State) : Host.Outcome State Fault Refusal :=
  busRead s s (if s.cur.cfg.scrWritable then s.cur.scr else 0x00)

end Sys2Proof.Machine
end

