-- ==== Sys2Proof/Machine/PortWrites.lean ====
section
/-! DEFINITION. The ten port writes (`41_port_writes.md`). -/

namespace Sys2Proof.Machine

/-- `WR.THR` (R120). -/
def execWrThr (v : Byte) (s : State) : Host.Outcome State Fault Refusal :=
  busWrite s (s.transmit s.active v)

/-- `WR.DLL` (R121). -/
def execWrDll (v : Byte) (s : State) : Host.Outcome State Fault Refusal :=
  busWrite s (s.modify s.active fun p => { p with dl := dlWithLow p.dl v })

/-- `WR.IER` (R122): all eight bits are stored, then the arbiter runs. -/
def execWrIer (v : Byte) (s : State) : Host.Outcome State Fault Refusal :=
  busWrite s ((s.modify s.active fun p => { p with ier := v }).rearbitrate s.active)

/-- `WR.DLM` (R123). -/
def execWrDlm (v : Byte) (s : State) : Host.Outcome State Fault Refusal :=
  busWrite s (s.modify s.active fun p => { p with dl := dlWithHigh p.dl v })

/-- `WR.X2` (R124): ignored. -/
def execWrX2 (_v : Byte) (s : State) : Host.Outcome State Fault Refusal :=
  busWrite s s

/-- `WR.LCR` (R125): all eight bits are stored. -/
def execWrLcr (v : Byte) (s : State) : Host.Outcome State Fault Refusal :=
  busWrite s (s.modify s.active fun p => { p with lcr := v })

/-- `WR.MCR` (R126). -/
def execWrMcr (v : Byte) (s : State) : Host.Outcome State Fault Refusal :=
  busWrite s (s.writeMcr s.active v)

/-- `WR.X5` (R127): ignored. -/
def execWrX5 (_v : Byte) (s : State) : Host.Outcome State Fault Refusal :=
  busWrite s s

/-- `WR.X6` (R128): ignored. -/
def execWrX6 (_v : Byte) (s : State) : Host.Outcome State Fault Refusal :=
  busWrite s s

/-- `WR.SCR` (R129): stores, or with `SCR_WRITABLE` false is "a no-op like `WR.X2`". -/
def execWrScr (v : Byte) (s : State) : Host.Outcome State Fault Refusal :=
  busWrite s (s.modify s.active fun p => { p with scr := if p.cfg.scrWritable then v else p.scr })

end Sys2Proof.Machine
end

