-- ==== Sys2Proof/Machine/Dispatch.lean ====
section
/-! DEFINITION. One arm per operation. -/

namespace Sys2Proof.Machine

/-- The effect of an operation on the block in slot `s.active`. -/
def exec (i : Instr) (s : State) : Host.Outcome State Fault Refusal :=
  match i with
  | .rdRbr => Sys2Proof.Machine.execRdRbr s
  | .rdDll => Sys2Proof.Machine.execRdDll s
  | .rdIer => Sys2Proof.Machine.execRdIer s
  | .rdDlm => Sys2Proof.Machine.execRdDlm s
  | .rdIir => Sys2Proof.Machine.execRdIir s
  | .rdLcr => Sys2Proof.Machine.execRdLcr s
  | .rdMcr => Sys2Proof.Machine.execRdMcr s
  | .rdLsr => Sys2Proof.Machine.execRdLsr s
  | .rdMsr => Sys2Proof.Machine.execRdMsr s
  | .rdScr => Sys2Proof.Machine.execRdScr s
  | .wrThr v => Sys2Proof.Machine.execWrThr v s
  | .wrDll v => Sys2Proof.Machine.execWrDll v s
  | .wrIer v => Sys2Proof.Machine.execWrIer v s
  | .wrDlm v => Sys2Proof.Machine.execWrDlm v s
  | .wrX2 v => Sys2Proof.Machine.execWrX2 v s
  | .wrLcr v => Sys2Proof.Machine.execWrLcr v s
  | .wrMcr v => Sys2Proof.Machine.execWrMcr v s
  | .wrX5 v => Sys2Proof.Machine.execWrX5 v s
  | .wrX6 v => Sys2Proof.Machine.execWrX6 v s
  | .wrScr v => Sys2Proof.Machine.execWrScr v s
  | .rxpush data => Sys2Proof.Machine.execRxpush data s
  | .msin cts dsr ri rlsd => Sys2Proof.Machine.execMsin cts dsr ri rlsd s
  | .reset => Sys2Proof.Machine.execReset s
  | .save => Sys2Proof.Machine.execSave s
  | .restore snapshot => Sys2Proof.Machine.execRestore snapshot s
  | .resolve flag => Sys2Proof.Machine.execResolve flag s
  | .connect isNullModem => Sys2Proof.Machine.execConnect isNullModem s
  | .attachMouse id device updateCallback => Sys2Proof.Machine.execAttachMouse id device updateCallback s

end Sys2Proof.Machine
end

