-- ==== Sys2Proof/WellFormed.lean ====
section
/-! DEFINITION. Which operations a bus transaction can select, and which requests the block accepts. -/

namespace Sys2Proof

/-- The operation is one of the twenty a bus transaction selects; the eight calls "have no bit encoding" (R88). -/
def Instr.isBus : Instr → Bool
  | .rdRbr | .rdDll | .rdIer | .rdDlm | .rdIir | .rdLcr | .rdMcr | .rdLsr | .rdMsr | .rdScr => true
  | .wrThr _ | .wrDll _ | .wrIer _ | .wrDlm _ | .wrX2 _ | .wrLcr _ | .wrMcr _ | .wrX5 _ | .wrX6 _ | .wrScr _ => true
  | .rxpush _ | .msin _ _ _ _ | .reset | .save | .restore _ | .resolve _ | .connect _ | .attachMouse _ _ _ => false

/-- The operation can be selected while `LCR[7]` is `dlab` (R83, the column DLAB of R84). -/
def Instr.selectable (dlab : Bool) : Instr → Bool
  | .rdRbr | .rdIer | .wrThr _ | .wrIer _ => !dlab
  | .rdDll | .rdDlm | .wrDll _ | .wrDlm _ => dlab
  | .rdIir | .rdLcr | .rdMcr | .rdLsr | .rdMsr | .rdScr => true
  | .wrX2 _ | .wrLcr _ | .wrMcr _ | .wrX5 _ | .wrX6 _ | .wrScr _ => true
  | .rxpush _ | .msin _ _ _ _ | .reset | .save | .restore _ | .resolve _ | .connect _ | .attachMouse _ _ _ => true

/-- The operation has a decode key with `dlab` in bit 12: it is a bus transaction and that DLAB value selects it. -/
def Instr.wellFormed (dlab : Bool) (i : Instr) : Bool :=
  i.isBus && i.selectable dlab

/-- The request reaches a block of base address `base`: a byte access at one of its eight offsets (R60, R65, R82),
a call, or the construction of the block. -/
def Request.wellFormed (base : Nat) : Request → Bool
  | .access _ _ port _ _ => decide (base ≤ port ∧ port < base + 8)
  | .wide _ _ _ _ => false
  | .call _ _ => true
  | .construct _ _ => true

end Sys2Proof
end

