-- ==== Sys2Proof/Decode.lean ====
section
/-! DEFINITION. The decode key (R81), the operation map (R84) and the encoder written from the same map. -/

namespace Sys2Proof

/-- Bit 12 of the key: the value of `LCR[7]` at the moment of the transaction (R81). -/
def Key.dlab (k : Key) : Bool := k.getLsbD 12

/-- Bits 11:8 of the key: `dir` above the offset (R81). -/
def Key.dirOff (k : Key) : Nat := (k.extractLsb' 8 4).toNat

/-- Bits 7:0 of the key: the byte written (R81). -/
def Key.data (k : Key) : Byte := k.extractLsb' 0 8

/-- The 12-bit transaction word `{dir, off, data}` (R81). -/
def transWord (dir : Dir) (off : BitVec 3) (data : Byte) : TransWord :=
  (match dir with | .read => 0#1 | .write => 1#1) ++ off ++ data

/-- The 13-bit decode key `{dlab, word}` (R81). -/
def keyOf (dlab : Bool) (w : TransWord) : Key := BitVec.ofBool dlab ++ w

/-- The operation map (R84), by DLAB, direction and offset, and data. On reads the data is ignored (R85). -/
def decodeFields (dlab : Bool) (dirOff : Nat) (data : Byte) : Instr :=
  match dirOff with
  | 0 => if dlab then .rdDll else .rdRbr
  | 1 => if dlab then .rdDlm else .rdIer
  | 2 => .rdIir
  | 3 => .rdLcr
  | 4 => .rdMcr
  | 5 => .rdLsr
  | 6 => .rdMsr
  | 7 => .rdScr
  | 8 => if dlab then .wrDll data else .wrThr data
  | 9 => if dlab then .wrDlm data else .wrIer data
  | 10 => .wrX2 data
  | 11 => .wrLcr data
  | 12 => .wrMcr data
  | 13 => .wrX5 data
  | 14 => .wrX6 data
  | _ => .wrScr data

/-- The operation a key selects: every key selects exactly one (R84). -/
def decodeKey (k : Key) : Instr := decodeFields k.dlab k.dirOff k.data

/-- Why bytes are not a decode key. -/
inductive DecodeError where
  /-- fewer than the two bytes of a key -/
  | truncated
  /-- a bit above bit 12 is set: the key has 13 bits (R81) -/
  | notAKey
deriving DecidableEq, Repr

/-- A key laid out as two bytes, low byte first (a notation of the model, notes/assumptions/9), and the bytes after it. -/
def decode : List Byte → Except DecodeError (Instr × List Byte)
  | lo :: hi :: rest =>
    if hi.toNat < 32 then .ok (decodeKey ((hi ++ lo).setWidth 13), rest) else .error .notAKey
  | _ => .error .truncated

/-- The encoder: the key of an operation under a DLAB value, with `data` 0 on reads ("written as 0 by convention", R81).
The calls have no encoding (R88), and neither has an operation under the DLAB value that does not select it (R84). -/
def encodeKey (dlab : Bool) : Instr → Option Key
  | .rdRbr => if dlab then none else some (keyOf dlab (0x0#4 ++ 0#8))
  | .rdDll => if dlab then some (keyOf dlab (0x0#4 ++ 0#8)) else none
  | .rdIer => if dlab then none else some (keyOf dlab (0x1#4 ++ 0#8))
  | .rdDlm => if dlab then some (keyOf dlab (0x1#4 ++ 0#8)) else none
  | .rdIir => some (keyOf dlab (0x2#4 ++ 0#8))
  | .rdLcr => some (keyOf dlab (0x3#4 ++ 0#8))
  | .rdMcr => some (keyOf dlab (0x4#4 ++ 0#8))
  | .rdLsr => some (keyOf dlab (0x5#4 ++ 0#8))
  | .rdMsr => some (keyOf dlab (0x6#4 ++ 0#8))
  | .rdScr => some (keyOf dlab (0x7#4 ++ 0#8))
  | .wrThr v => if dlab then none else some (keyOf dlab (0x8#4 ++ v))
  | .wrDll v => if dlab then some (keyOf dlab (0x8#4 ++ v)) else none
  | .wrIer v => if dlab then none else some (keyOf dlab (0x9#4 ++ v))
  | .wrDlm v => if dlab then some (keyOf dlab (0x9#4 ++ v)) else none
  | .wrX2 v => some (keyOf dlab (0xA#4 ++ v))
  | .wrLcr v => some (keyOf dlab (0xB#4 ++ v))
  | .wrMcr v => some (keyOf dlab (0xC#4 ++ v))
  | .wrX5 v => some (keyOf dlab (0xD#4 ++ v))
  | .wrX6 v => some (keyOf dlab (0xE#4 ++ v))
  | .wrScr v => some (keyOf dlab (0xF#4 ++ v))
  | .rxpush _ | .msin _ _ _ _ | .reset | .save | .restore _ | .resolve _ | .connect _ | .attachMouse _ _ _ => none

/-- The two bytes of a key, low byte first, as `decode` reads them. -/
def keyBytes (k : Key) : List Byte := [k.extractLsb' 0 8, (k.extractLsb' 8 5).setWidth 8]

/-- The bytes of an operation under a DLAB value. -/
def encode (dlab : Bool) (i : Instr) : Option (List Byte) := (encodeKey dlab i).map keyBytes

/-- The first `nbits` bits of `w` as the two bytes of a key, with anything above them kept so that a number that is no
key is refused. -/
def tableBytes (nbits w : Nat) : List Byte :=
  let v := w % 2 ^ nbits
  if v < 2 ^ 16 then [BitVec.ofNat 8 v, BitVec.ofNat 8 (v / 256)] else [BitVec.ofNat 8 v, 0xFF#8]

/-- What the decoder reads from the number `w` whose bits are numbered as the opcode table numbers them. -/
def decodeTableWord (nbits w : Nat) : Option Instr :=
  match decode (tableBytes nbits w) with
  | .ok (i, _) => some i
  | .error _ => none

/-- One row of the operation map as R84 writes it: the `match` and `mask` of the decode key. -/
structure KeyRow where
  pattern : Key
  mask : Key
deriving DecidableEq, Repr

/-- The twenty rows of R84, in its order. -/
def keyRows : List KeyRow :=
  [⟨0x0000, 0x1F00⟩, ⟨0x1000, 0x1F00⟩, ⟨0x0100, 0x1F00⟩, ⟨0x1100, 0x1F00⟩] ++
  [⟨0x0200, 0x0F00⟩, ⟨0x0300, 0x0F00⟩, ⟨0x0400, 0x0F00⟩, ⟨0x0500, 0x0F00⟩, ⟨0x0600, 0x0F00⟩, ⟨0x0700, 0x0F00⟩] ++
  [⟨0x0800, 0x1F00⟩, ⟨0x1800, 0x1F00⟩, ⟨0x0900, 0x1F00⟩, ⟨0x1900, 0x1F00⟩] ++
  [⟨0x0A00, 0x0F00⟩, ⟨0x0B00, 0x0F00⟩, ⟨0x0C00, 0x0F00⟩, ⟨0x0D00, 0x0F00⟩, ⟨0x0E00, 0x0F00⟩, ⟨0x0F00, 0x0F00⟩]

/-- The place of an operation's row in `keyRows`; none for a call. -/
def Instr.rowIndex : Instr → Option Nat
  | .rdRbr => some 0
  | .rdDll => some 1
  | .rdIer => some 2
  | .rdDlm => some 3
  | .rdIir => some 4
  | .rdLcr => some 5
  | .rdMcr => some 6
  | .rdLsr => some 7
  | .rdMsr => some 8
  | .rdScr => some 9
  | .wrThr _ => some 10
  | .wrDll _ => some 11
  | .wrIer _ => some 12
  | .wrDlm _ => some 13
  | .wrX2 _ => some 14
  | .wrLcr _ => some 15
  | .wrMcr _ => some 16
  | .wrX5 _ => some 17
  | .wrX6 _ => some 18
  | .wrScr _ => some 19
  | .rxpush _ | .msin _ _ _ _ | .reset | .save | .restore _ | .resolve _ | .connect _ | .attachMouse _ _ _ => none

/-- The row matches the key (R84). -/
def KeyRow.covers (r : KeyRow) (k : Key) : Bool := k &&& r.mask == r.pattern

end Sys2Proof
end

