-- ==== Sys2Proof/Machine/Fetch.lean ====
section
/-! DEFINITION. How the next operation is found: the first request an agent has presented, a bus access decoded with the
DLAB value of that moment (R74, R83). Also the scripts of R91 and R208 as requests. -/

namespace Sys2Proof.Machine

/-- What a step finds. -/
inductive Fetched where
  /-- no operation is pending, and "the block itself never acts on its own" (R9) -/
  | idle
  /-- an operation, and the state it is performed in -/
  | run (i : Instr) (s : State)
  /-- a byte access no block claims (R64), and the state in which it is answered -/
  | unclaimed (dir : Dir) (s : State)
  /-- a request the spec excludes or the model refuses: an access of another width (R65), an access before the first
  power-up (R208), a construction in a slot that has a block (R201) or that brings a port conflict (R63) -/
  | refuse (r : Refusal)
  /-- the construction of the block in slot `s.active` (R200), and the state it is performed in -/
  | construct (cfg : PortConfig) (s : State)
deriving DecidableEq, Repr

/-- The block claims the port: it is live and the port is one of `BASE + 0` to `BASE + 7` (R61, R64). -/
def Port.claims (p : Port) (port : Nat) : Bool := p.live && decide (p.cfg.base ≤ port ∧ port < p.cfg.base + 8)

/-- The decode key of a byte access at `port` (R81, R82): `off = absolutePort - BASE`, and bit 12 is `LCR[7]` now. -/
def Port.accessKey (p : Port) (dir : Dir) (port : Nat) (data : Byte) : Key :=
  keyOf p.dlab (transWord dir (BitVec.ofNat 3 (port - p.cfg.base)) data)

/-- The state a call is performed in: with the directory it hands over (R181), and the block powered up where the call is the
one of a power-up (R208). -/
def State.calling (s : State) (ep : Ep) (c : Call) : State :=
  let t := { s with directory := c.directory.getD s.directory }
  if c.powersUp then t.modify ep Port.poweredUp else t

/-- The first pending request, taken off the list, with `active` at its block. The source address changes nothing (R67). -/
def State.fetch (s : State) : Fetched :=
  match s.pending with
  | [] => .idle
  | r :: rest =>
    let t := { s with active := r.ep, pending := rest }
    match r with
    | .access _ dir port data _ =>
      if t.cur.claims port then
        if t.cur.stage = .powered then .run (decodeKey (t.cur.accessKey dir port data)) t else .refuse .beforePowerUp
      else .unclaimed dir t
    | .wide _ _ _ width => .refuse (.wideAccess width)
    | .call ep c => .run c.toInstr (t.calling ep c)
    | .construct ep cfg =>
      match t.constructionRefusal ep cfg with
      | some r => .refuse r
      | none => .construct cfg t

/-- The answer to a byte access that no block claims (R64): no block changes. -/
def State.unclaimed (s : State) : Dir → State
  | .read => s.unclaimedRead
  | .write => s.returning .nothing

/-- The direction a key's bit 11 says (R81). -/
def keyDir (k : Key) : Dir := if k.getLsbD 11 then .write else .read

/-- The state in which the next step performs the transaction of key `k` on the active block: `LCR[7]` is the key's bit
12, the block is live and powered up, and the access is the first pending request. An inert block or an empty slot is given
an adapter that the other slot has not (R63). -/
def State.withKey (s : State) (k : Key) : State :=
  let t := s.modify s.active fun p =>
    { p with
      lcr := setBit p.lcr 7 (Key.dlab k), stage := .powered
      cfg := if p.live then p.cfg
        else { p.cfg with adapter := if (s.port s.active.other).cfg.adapter = 1 then 2 else 1 } }
  { t with
    pending := .access s.active (keyDir k) (t.cur.cfg.base + (k.extractLsb' 8 3).toNat) (Key.data k) (some 0) :: s.pending }

/-! ### Scripts -/

/-- `IN off` on the block in slot `ep` with base address `base` (R90). -/
def inReq (ep : Ep) (base off : Nat) : Request := .access ep .read (base + off) 0x00 (some 0)

/-- `OUT off, v` (R90). -/
def outReq (ep : Ep) (base off : Nat) (v : Byte) : Request := .access ep .write (base + off) v (some 0)

/-- `SETDIV n, l` (R91), for `l` with bit 7 clear. -/
def setDiv (ep : Ep) (base : Nat) (n : Word16) (l : Byte) : List Request :=
  [outReq ep base 3 (l ||| 0x80#8), outReq ep base 0 (dlLow n), outReq ep base 1 (dlHigh n), outReq ep base 3 l]

/-- `PUTC b` (R91). -/
def putc (ep : Ep) (base : Nat) (b : Byte) : List Request := [outReq ep base 0 b]

/-- `GETC` (R91). -/
def getc (ep : Ep) (base : Nat) : List Request := [inReq ep base 0]

/-- `NOP` (R91): an ignored write. -/
def nop (ep : Ep) (base : Nat) : List Request := [outReq ep base 2 0x00]

/-- Power-up (R208): `RESET` where there is no snapshot, `RESTORE` where there is one, then connection resolution (R181)
with the configured flag (R184) in the directory handed over. Where `RESTORE` fails, which it does exactly where the snapshot
has not the shape of R203, the host "must decide whether to fall back to hardware reset" (R206): `fallBack` is its decision. -/
def powerUp (ep : Ep) (cfg : PortConfig) (directory : List DirEntry) (fallBack : Bool) : Option (List Prim) → List Request
  | none => [.call ep .reset, .call ep (.resolve cfg.nullModem directory)]
  | some snapshot =>
    [.call ep (.restore snapshot)] ++ (if fallBack && !snapshotShaped snapshot then [.call ep .reset] else []) ++
      [.call ep (.resolve cfg.nullModem directory)]

end Sys2Proof.Machine
end

