-- ==== Sys2Proof/Machine/Step.lean ====
section
/-! DEFINITION. One step: the first pending operation, whole (R70, R71). -/

namespace Sys2Proof.Machine

/-- One step of the machine. With nothing pending nothing happens (R9). -/
def step (s : State) : Host.Outcome State Fault Refusal :=
  match s.fetch with
  | .idle => .next s
  | .run i t => exec i t
  | .unclaimed dir t => .next (t.unclaimed dir)
  | .refuse r => .refused r
  | .construct cfg t => .next (t.construct t.active cfg)

/-- `s` with the instruction whose bits are `w` where the next step finds its operation: the access of that key is the
first pending request of the active block. A number that is no key is no instruction, and nothing is placed. -/
def State.withFetchWord (s : State) (nbits w : Nat) : State :=
  let v := w % 2 ^ nbits
  if v < 2 ^ 13 then s.withKey (BitVec.ofNat 13 v) else s

end Sys2Proof.Machine
end

