-- ==== Sys2Proof/Safety.lean ====
section
/-! DEFINITION. The terms claims are stated in: the invariants of R40 and R42, what the arbiter leaves behind, and what an
operation on one block leaves alone. -/

namespace Sys2Proof.Machine

/-- The invariants (a) to (f) of R42 for one block. -/
abbrev Port.Consistent (p : Port) : Prop :=
  p.iir.extractLsb' 3 5 = 0#5 ∧
  (p.noInt = false ↔ p.condRda = true ∨ p.condMsi = true) ∧
  (p.condRda = true → p.intId = p.cfg.idRda) ∧
  (p.condRda = false → p.condMsi = true → p.intId = p.cfg.idMsi) ∧
  (p.intr = !p.noInt) ∧
  p.lsr.getLsbD 7 = false ∧ p.lsr.extractLsb' 1 4 = 0#4 ∧
  (p.tsre = p.thre) ∧
  (p.dr = false → p.rxq = [])

/-- The request is no `RESTORE` of a snapshot that breaks R42 ("as long as no `RESTORE` loads an inconsistent snapshot"), and
no construction under other condition codes or under the losing switch of decision D2: these constants are one per machine. -/
def State.LoadsConsistent (s : State) : Request → Prop
  | .call ep (.restore snapshot) => ∀ p, (s.port ep).restoredFrom snapshot = some p → p.Consistent
  | .construct ep cfg =>
    cfg.arbitrateOnAllInputs = true ∧ cfg.idRda = (s.port ep).cfg.idRda ∧ cfg.idMsi = (s.port ep).cfg.idMsi
  | .access _ _ _ _ _ | .wide _ _ _ _ => True
  | .call _ (.rxpush _) | .call _ (.msin _ _ _ _) | .call _ .reset | .call _ .save => True
  | .call _ (.resolve _ _) | .call _ (.connect _ _) | .call _ (.attachMouse _ _ _) => True

/-- R42 as an invariant of the machine: both blocks are consistent, run the arbiter on all inputs (decision D2), and no
pending `RESTORE` loads an inconsistent snapshot. -/
def State.Consistent (s : State) : Prop :=
  (∀ ep, (s.port ep).Consistent) ∧
  (∀ ep, (s.port ep).cfg.arbitrateOnAllInputs = true) ∧
  (∀ r ∈ s.pending, s.LoadsConsistent r)

/-- The link state of R40 for the block in slot `ep`: `updateStatus` is present exactly when `peer` is, and `sendData` only
when `peer` is (a pointing device has no `sendData`, R187); and the peer is "one other endpoint", so that neither it nor a
capability refers to the block itself (R146). -/
abbrev Port.LinkSound (ep : Ep) (p : Port) : Prop :=
  (p.updateStatus.isSome = p.peer.isSome) ∧ (p.sendData.isSome = true → p.peer.isSome = true) ∧
  p.peer ≠ some (.port ep) ∧ p.sendData ≠ some (.port ep) ∧ p.updateStatus ≠ some (.port ep)

/-- R63 as an invariant: two live blocks of one machine have different adapters and share no port. -/
def State.PortsExclusive (s : State) : Prop :=
  (s.port .a).live = true → (s.port .b).live = true → (s.port .a).cfg.machine = (s.port .b).cfg.machine →
    (s.port .a).cfg.adapter ≠ (s.port .b).cfg.adapter ∧
    ((s.port .a).cfg.base + 8 ≤ (s.port .b).cfg.base ∨ (s.port .b).cfg.base + 8 ≤ (s.port .a).cfg.base)

/-- The identifier holds no `->`, so that a descriptor it begins is cut after it (R180; notes/assumptions/22). -/
abbrev NoArrow (i : Ident) : Prop := ¬ ['-', '>'] <:+: i

/-- The state of IIR and of the request level that the arbiter leaves (R220, R221, R222), in terms of the registers;
`before` is IIR before it ran. -/
def Port.ArbiterRan (before : Byte) (p : Port) : Prop :=
  (p.lsr.getLsbD 0 = true ∧ p.ier.getLsbD 0 = true →
    p.iir.getLsbD 0 = false ∧ p.iir.extractLsb' 1 2 = p.cfg.idRda ∧ p.intr = true) ∧
  (¬(p.lsr.getLsbD 0 = true ∧ p.ier.getLsbD 0 = true) ∧ p.msr.extractLsb' 0 4 ≠ 0#4 ∧ p.ier.getLsbD 3 = true →
    p.iir.getLsbD 0 = false ∧ p.iir.extractLsb' 1 2 = p.cfg.idMsi ∧ p.intr = true) ∧
  (¬(p.lsr.getLsbD 0 = true ∧ p.ier.getLsbD 0 = true) ∧ ¬(p.msr.extractLsb' 0 4 ≠ 0#4 ∧ p.ier.getLsbD 3 = true) →
    p.iir.getLsbD 0 = true ∧ p.iir.extractLsb' 1 2 = before.extractLsb' 1 2 ∧ p.intr = false) ∧
  p.iir.extractLsb' 3 5 = before.extractLsb' 3 5

/-- The call that restates the level of a block (R227). -/
def Port.LevelCall (ep : Ep) (p : Port) (e : Event) : Prop :=
  (p.intr = true → e = .irqAssert ep p.cfg.irqLine p.cfg.irqDelay) ∧ (p.intr = false → e = .irqClear ep p.cfg.irqLine)

/-- The lines the local sink of a block logs when it is given `v` (R165, R166): where the sink is the log (decision D24,
notes/assumptions/19), the whole buffer on a linefeed or where 1024 characters have been reached. -/
def Port.sinkLines (ep : Ep) (v : Byte) (p : Port) : List Event :=
  if p.cfg.bindingName = some ['c', 'o', 'n', 's', 'o', 'l', 'e'] ∧ (v = 0x0A#8 ∨ 1024 ≤ p.logbuf.length) then
    [.logLine ep p.logbuf]
  else []

/-- The sink state of block `q` is that of `p` after its local sink was given `v` (R163, R166 to R171; decisions D20, D22, D24
and conflict C4, notes/assumptions/19). -/
def Port.SinkTook (v : Byte) (p q : Port) : Prop :=
  (p.cfg.bindingName = none → q.logbuf = p.logbuf ∧ q.column = p.column ∧ q.surface = p.surface) ∧
  (p.cfg.bindingName = some ['c', 'o', 'n', 's', 'o', 'l', 'e'] →
    q.column = p.column ∧ q.surface = p.surface ∧
    (v = 0x0A#8 → q.logbuf = []) ∧
    (v ≠ 0x0A#8 → 1024 ≤ p.logbuf.length → q.logbuf = [v]) ∧
    (v ≠ 0x0A#8 → p.logbuf.length < 1024 → q.logbuf = p.logbuf ++ [v])) ∧
  (∀ name, p.cfg.bindingName = some name → name ≠ ['c', 'o', 'n', 's', 'o', 'l', 'e'] →
    q.logbuf = p.logbuf ∧
    (v = 0x0D#8 → q.column = 0 ∧ q.surface = p.surface) ∧
    (v = 0x08#8 → q.column = p.column - 1 ∧ q.surface = p.surface.dropLast) ∧
    (v = 0x09#8 → p.cfg.tabWidth = some 0 → q.column = p.column ∧ q.surface = p.surface) ∧
    (v = 0x09#8 → ∀ w, w ≠ 0 → p.cfg.tabWidth.getD 8 = w →
      q.column = p.column + (w - p.column % w) ∧
      q.surface = p.surface ++ (if p.column = 0 then p.cfg.bolChar.toList else []) ++
        List.replicate (w - p.column % w) 0x20#8) ∧
    (v ≠ 0x0D#8 → v ≠ 0x08#8 → v ≠ 0x09#8 →
      q.column = p.column + 1 ∧
      q.surface = p.surface ++ (if p.column = 0 then p.cfg.bolChar.toList else []) ++ [v]))

/-- The modem inputs of block `q` are those of `p` after `MSIN(cts, dsr, ri, rlsd)` (R142, decision D16, notes/assumptions/16). -/
def Port.InputsSet (cts dsr ri rlsd : Bool) (p q : Port) : Prop :=
  q.msr.getLsbD 4 = cts ∧ q.msr.getLsbD 5 = dsr ∧ q.msr.getLsbD 6 = ri ∧ q.msr.getLsbD 7 = rlsd ∧
  (q.msr.getLsbD 0 = true ↔ p.msr.getLsbD 0 = true ∨ cts ≠ p.msr.getLsbD 4) ∧
  (q.msr.getLsbD 1 = true ↔ p.msr.getLsbD 1 = true ∨ dsr ≠ p.msr.getLsbD 5) ∧
  (q.msr.getLsbD 2 = true ↔ p.msr.getLsbD 2 = true ∨ (p.msr.getLsbD 6 = true ∧ ri = false)) ∧
  (q.msr.getLsbD 3 = true ↔ p.msr.getLsbD 3 = true ∨ rlsd ≠ p.msr.getLsbD 7)

/-- Two states differ in nothing that surrounds the blocks but the history, the value returned and the free values drawn. -/
def State.SameAround (s t : State) : Prop :=
  t.directory = s.directory ∧ t.active = s.active ∧ t.pending = s.pending

/-- The operation touched no block but the one in slot `ep`, drew no free value and changed nothing around the blocks
but the history and the value returned. -/
def State.OnlyBlock (ep : Ep) (s t : State) : Prop :=
  t.port ep.other = s.port ep.other ∧ t.draws = s.draws ∧ s.SameAround t

/-- The bytes the line has delivered and software has not yet read, oldest first (R145). -/
def Port.unread (p : Port) : List Byte := (if p.dr then [p.rbr] else []) ++ p.rxq

/-- The bytes an `RXPUSH` of `data` leaves staged and queued, where nothing is staged the first of them in RBR (R141). -/
def Port.Pushed (data : List Byte) (p q : Port) : Prop :=
  (p.dr = true → q.rbr = p.rbr ∧ q.rxq = p.rxq ++ data ∧ q.lsr = p.lsr) ∧
  (p.dr = false → p.rxq ++ data = [] → q.rbr = p.rbr ∧ q.rxq = [] ∧ q.lsr = p.lsr) ∧
  (p.dr = false → p.rxq ++ data ≠ [] →
    q.rbr :: q.rxq = p.rxq ++ data ∧ q.dr = true ∧ q.lsr.extractLsb' 1 7 = p.lsr.extractLsb' 1 7)

end Sys2Proof.Machine
end

