-- ==== Sys2Proof/Certificates/Slice0/Obligations.lean ====
section
/-! DEFINITION. The statements for the provers, from the numbered rules of `spec/`. Where a statement rests on a decision of
the spec (`92_eei_decisions.md`) or of the model, its docstring names it. The register bit numbers are those of R26, R28,
R29, R30, R32 and R35, which the spec marks as general knowledge (notes/assumptions/1). -/

open Sys2Proof Sys2Proof.Machine

/-! ### Encoding and the step -/

/-- Keys written out from R81 and R84 decode to the operations they stand for (R81: "So `OUT 3, 0x80` is the word `0xB80`
and `IN 5` is `0x500`"). The byte layout of a key is the model's (notes/assumptions/9). -/
def Obligations.WrittenKeysDecode : Prop :=
  decodeTableWord 16 0x0000 = some .rdRbr ∧ decodeTableWord 16 0x1000 = some .rdDll ∧
  decodeTableWord 16 0x1100 = some .rdDlm ∧ decodeTableWord 16 0x0500 = some .rdLsr ∧
  decodeTableWord 16 0x0841 = some (.wrThr 0x41) ∧ decodeTableWord 16 0x1860 = some (.wrDll 0x60) ∧
  decodeTableWord 16 0x09F2 = some (.wrIer 0xF2) ∧ decodeTableWord 16 0x0B80 = some (.wrLcr 0x80) ∧
  decodeTableWord 16 0x1B03 = some (.wrLcr 0x03) ∧ decodeTableWord 16 0x0FA5 = some (.wrScr 0xA5) ∧
  decodeTableWord 16 0x2000 = none

/-- A byte access at an offset of a live block that has been powered up (R208), standing first in the list of pending
requests, is performed by the next step as the operation its decode key selects, the key's top bit being `LCR[7]` at that
moment (R74, R82, R83). The list of pending requests is the model's bookkeeping (notes/assumptions/8). -/
def Obligations.StepRunsDecodedTransaction : Prop :=
  ∀ (s : State) (ep : Ep) (dir : Dir) (port : Nat) (data : Byte) (source : Option Nat) (rest : List Request),
    s.pending = .access ep dir port data source :: rest →
    (s.port ep).live = true → (s.port ep).stage = .powered → (s.port ep).cfg.base ≤ port → port < (s.port ep).cfg.base + 8 →
    step s = exec (decodeKey (keyOf ((s.port ep).lcr.getLsbD 7)
      (transWord dir (BitVec.ofNat 3 (port - (s.port ep).cfg.base)) data))) { s with active := ep, pending := rest }

/-- A call of the line or the host, standing first, is performed by the next step (R71 (c), R88, R89); a call that resolves a
link is performed in the directory it hands over, whatever was handed over before (R181); `RESET` and `RESTORE`, one of which
is performed at each power-up, are performed with the block counted as powered up (R208). The construction of a block in an
empty slot, where it brings no port conflict into one machine (R63, R201), is performed by the step itself: the block takes
its configuration, the pair of base address and line its adapter selects, and the values of R47 with link absent and sinks
empty; the host is returned a `ConfigurationError`, reported as a warning, exactly where the adapter is neither 1 nor 2, the
block then being inert (R200, R235). The list of pending requests is the model's bookkeeping (notes/assumptions/8), and so
are the register values of a block before its first power-up (notes/assumptions/25) and the stages of a block's life
(notes/assumptions/29). -/
def Obligations.StepRunsPendingCall : Prop :=
  (∀ (s : State) (ep : Ep) (c : Call) (rest : List Request), s.pending = .call ep c :: rest →
    (∀ f d, c ≠ .resolve f d) → (∀ f d, c ≠ .connect f d) → c ≠ .reset → (∀ x, c ≠ .restore x) →
    step s = exec c.toInstr { s with active := ep, pending := rest }) ∧
  (∀ (s : State) (ep : Ep) (snapshot : List Prim) (rest : List Request), ∃ t : State,
    t.port ep = { s.port ep with stage := if (s.port ep).stage = .absent then .absent else .powered } ∧
    t.port ep.other = s.port ep.other ∧ t.active = ep ∧ t.pending = rest ∧ t.directory = s.directory ∧ t.events = s.events ∧
    (s.pending = .call ep .reset :: rest → step s = exec .reset t) ∧
    (s.pending = .call ep (.restore snapshot) :: rest → step s = exec (.restore snapshot) t)) ∧
  (∀ (s : State) (ep : Ep) (flag : Bool) (directory : List DirEntry) (rest : List Request),
    (s.pending = .call ep (.resolve flag directory) :: rest →
      step s = exec (.resolve flag) { s with active := ep, pending := rest, directory := directory }) ∧
    (s.pending = .call ep (.connect flag directory) :: rest →
      step s = exec (.connect flag) { s with active := ep, pending := rest, directory := directory })) ∧
  (∀ (s : State) (ep : Ep) (cfg : PortConfig) (rest : List Request), s.pending = .construct ep cfg :: rest →
    (s.port ep).stage = .absent → cfg.pairs.Exclusive →
    ((s.port ep.other).live = true → (s.port ep.other).cfg.machine = cfg.machine →
      (s.port ep.other).cfg.pairs = cfg.pairs ∧ (s.port ep.other).cfg.adapter ≠ cfg.adapter) →
    ∃ t, step s = .next t ∧ t.pending = rest ∧ t.directory = s.directory ∧ t.port ep.other = s.port ep.other ∧
      (t.port ep).cfg = cfg ∧ (t.port ep).stage = .constructed ∧
      (cfg.adapter = 1 → (t.port ep).cfg.base = cfg.pairs.base1 ∧ (t.port ep).cfg.irqLine = cfg.pairs.line1) ∧
      (cfg.adapter = 2 → (t.port ep).cfg.base = cfg.pairs.base2 ∧ (t.port ep).cfg.irqLine = cfg.pairs.line2) ∧
      (t.port ep).peer = none ∧ (t.port ep).sendData = none ∧ (t.port ep).updateStatus = none ∧
      (t.port ep).logbuf = [] ∧ (t.port ep).column = 0 ∧ (t.port ep).surface = [] ∧
      (t.port ep).rxq = [] ∧ (t.port ep).intr = false ∧ (t.port ep).dl = cfg.dlReset ∧
      [(t.port ep).rbr, (t.port ep).thr, (t.port ep).ier, (t.port ep).iir, (t.port ep).lcr, (t.port ep).mcr,
        (t.port ep).lsr, (t.port ep).msr, (t.port ep).scr] = [0x00, 0x00, 0x00, 0x01, 0x00, 0x00, 0x60, 0x30, 0x00] ∧
      (cfg.adapter = 1 ∨ cfg.adapter = 2 → t.result = .constructed ∧ t.events = s.events ∧ (t.port ep).live = true) ∧
      (cfg.adapter ≠ 1 → cfg.adapter ≠ 2 →
        t.result = .configurationError ∧ t.events = s.events ++ [.configurationError ep] ∧ (t.port ep).live = false))

/-- What a step does where there is no operation to perform: with nothing pending nothing happens (R9); an access of
another width is refused (R65, decision D15, notes/assumptions/10); an access that no block claims leaves every block and
the history as they are (R64, notes/assumptions/11). What the spec excludes is refused by name: an access to a live block
before its first power-up (R208), a construction in a slot that has a block (R201), and the construction of a block beside a
live one of the same machine that has the same adapter or another table of pairs, or from a table whose two ranges overlap
(R63); that the model stops there is its own choice (notes/assumptions/29). -/
def Obligations.StepWithoutOperation : Prop :=
  (∀ s : State, s.pending = [] → step s = .next s) ∧
  (∀ (s : State) (ep : Ep) (dir : Dir) (port width : Nat) (rest : List Request),
    s.pending = .wide ep dir port width :: rest → step s = .refused (.wideAccess width)) ∧
  (∀ (s : State) (ep : Ep) (dir : Dir) (port : Nat) (data : Byte) (source : Option Nat) (rest : List Request),
    s.pending = .access ep dir port data source :: rest →
    ((s.port ep).live = false ∨ port < (s.port ep).cfg.base ∨ (s.port ep).cfg.base + 8 ≤ port) →
    ∃ t, step s = .next t ∧ (∀ q, t.port q = s.port q) ∧ t.events = s.events ∧ t.directory = s.directory ∧ t.pending = rest) ∧
  (∀ (s : State) (ep : Ep) (dir : Dir) (port : Nat) (data : Byte) (source : Option Nat) (rest : List Request),
    s.pending = .access ep dir port data source :: rest → (s.port ep).live = true → (s.port ep).stage ≠ .powered →
    (s.port ep).cfg.base ≤ port → port < (s.port ep).cfg.base + 8 → step s = .refused .beforePowerUp) ∧
  (∀ (s : State) (ep : Ep) (cfg : PortConfig) (rest : List Request), s.pending = .construct ep cfg :: rest →
    ((s.port ep).stage ≠ .absent → step s = .refused .constructedTwice) ∧
    ((s.port ep).stage = .absent → cfg.adapter = 1 ∨ cfg.adapter = 2 →
      (¬ cfg.pairs.Exclusive ∨ ((s.port ep.other).live = true ∧ (s.port ep.other).cfg.machine = cfg.machine ∧
        ((s.port ep.other).cfg.pairs ≠ cfg.pairs ∨ (s.port ep.other).cfg.adapter = cfg.adapter))) →
      step s = .refused .windowTaken))

/-- "Every one of the 8192 keys matches exactly one row" (R84), and it is the row of the operation the decoder gives. -/
def Obligations.EveryKeyMatchesExactlyOneRow : Prop :=
  ∀ k : Key, ((keyRows.filter fun r => r.covers k).length = 1) ∧
    ∃ n r, (decodeKey k).rowIndex = some n ∧ keyRows[n]? = some r ∧ r.covers k = true

/-- Decode and encode agree: every bus operation, at every value of its data byte and under each DLAB value that selects it,
is what the decoder reads from its own bytes, and the bytes after them are left over (R81, R83, R84). -/
def Obligations.EncodedOperationDecodesToItself : Prop :=
  ∀ (dlab : Bool) (i : Instr), i.wellFormed dlab = true →
    ∃ bytes, encode dlab i = some bytes ∧ ∀ rest, decode (bytes ++ rest) = .ok (i, rest)

/-- The other direction: the operation a key selects is encoded, under the key's DLAB bit, as that key, but for the data
field of a read, which is "written as 0 by convention" (R81). -/
def Obligations.DecodedKeyEncodesToItself : Prop :=
  ∀ k : Key, encodeKey (k.getLsbD 12) (decodeKey k) =
    some (if k.getLsbD 11 then k else k.extractLsb' 8 5 ++ 0#8)

/-- "A write to offset 3 takes effect for the very next transaction; nothing has to be done between them" (R74): the
transaction after `OUT 3, v` is decoded with bit 7 of `v`. -/
def Obligations.DlabTakesEffectAtNextTransaction : Prop :=
  ∀ (s : State) (ep : Ep) (v data : Byte) (dir : Dir) (off : BitVec 3) (src src' : Option Nat) (rest : List Request),
    (s.port ep).live = true → (s.port ep).stage = .powered →
    s.pending = .access ep .write ((s.port ep).cfg.base + 3) v src ::
      .access ep dir ((s.port ep).cfg.base + off.toNat) data src' :: rest →
    ∃ t, step s = .next t ∧ (t.port ep).lcr = v ∧
      step t = exec (decodeKey (keyOf (v.getLsbD 7) (transWord dir off data))) { t with pending := rest }

/-- A diagnostic access, one with no source address, is performed exactly like any other (R67, conflict C3). -/
def Obligations.SourceAddressChangesNothing : Prop :=
  ∀ (s : State) (ep : Ep) (dir : Dir) (port : Nat) (data : Byte) (src src' : Option Nat) (rest : List Request),
    step { s with pending := .access ep dir port data src :: rest } =
      step { s with pending := .access ep dir port data src' :: rest }

/-! ### Port reads -/

/-- The reads without a side effect return their register and change nothing (R103 to R108); each with its encoding. -/
def Obligations.PlainReadsReturnTheirRegister : Prop :=
  (∀ s : State, s.cur.live = true →
    exec .rdIer s = .next { s with result := .byte s.cur.ier } ∧
    exec .rdDlm s = .next { s with result := .byte (s.cur.dl.extractLsb' 8 8) } ∧
    exec .rdIir s = .next { s with result := .byte s.cur.iir } ∧
    exec .rdLcr s = .next { s with result := .byte s.cur.lcr } ∧
    exec .rdMcr s = .next { s with result := .byte s.cur.mcr } ∧
    exec .rdLsr s = .next { s with result := .byte s.cur.lsr }) ∧
  (∀ d : Byte, decodeKey (keyOf false (transWord .read 1 d)) = .rdIer ∧
    decodeKey (keyOf true (transWord .read 1 d)) = .rdDlm) ∧
  (∀ (dlab : Bool) (d : Byte), decodeKey (keyOf dlab (transWord .read 2 d)) = .rdIir ∧
    decodeKey (keyOf dlab (transWord .read 3 d)) = .rdLcr ∧ decodeKey (keyOf dlab (transWord .read 4 d)) = .rdMcr ∧
    decodeKey (keyOf dlab (transWord .read 5 d)) = .rdLsr)

/-- `RD.RBR` (R101): the value of `rbr` before any staging is returned; DR is cleared; where the queue has a byte, its head
is staged and DR is set again; the arbiter runs and restates the level; nothing else changes. IIR's idle bits rest on
decision D4 (notes/assumptions/13). -/
def Obligations.ReceiveBufferRead : Prop :=
  ∀ s : State, s.cur.live = true →
    ∃ t, exec .rdRbr s = .next t ∧ t.result = .byte s.cur.rbr ∧ s.OnlyBlock s.active t ∧
      (s.cur.rxq = [] → t.cur.rbr = s.cur.rbr ∧ t.cur.rxq = [] ∧ t.cur.lsr.getLsbD 0 = false) ∧
      (∀ b rest, s.cur.rxq = b :: rest → t.cur.rbr = b ∧ t.cur.rxq = rest ∧ t.cur.lsr.getLsbD 0 = true) ∧
      t.cur.lsr.extractLsb' 1 7 = s.cur.lsr.extractLsb' 1 7 ∧
      t.cur.ArbiterRan s.cur.iir ∧ (∃ e, t.events = s.events ++ [e] ∧ t.cur.LevelCall s.active e) ∧
      t.cur = { s.cur with rbr := t.cur.rbr, rxq := t.cur.rxq, lsr := t.cur.lsr, iir := t.cur.iir, intr := t.cur.intr }

/-- `RD.DLL`: the low byte of the latch is returned, and the receive path is taken exactly as by `RD.RBR` (decision D3 and
conflict C7 of the spec; notes/assumptions/15): but for the byte returned the two leave the same machine. -/
def Obligations.DivisorLowReadTakesReceiveByte : Prop :=
  ∀ s : State, s.cur.live = true →
    ∃ t u, exec .rdDll s = .next t ∧ exec .rdRbr s = .next u ∧ t.result = .byte (s.cur.dl.extractLsb' 0 8) ∧
      u.result = .byte s.cur.rbr ∧ t = { u with result := t.result }

/-- `RD.MSR`: all eight bits are returned, delta bits included, the delta bits are cleared and the levels stay; then the
arbiter runs (decision D2 of the spec, notes/assumptions/14; under the other setting of its switch it does not). That IIR
keeps its code where nothing matches is decision D4 (notes/assumptions/13). -/
def Obligations.ModemStatusRead : Prop :=
  ∀ s : State, s.cur.live = true →
    ∃ t, exec .rdMsr s = .next t ∧ t.result = .byte s.cur.msr ∧ s.OnlyBlock s.active t ∧
      t.cur.msr.extractLsb' 0 4 = 0#4 ∧ t.cur.msr.extractLsb' 4 4 = s.cur.msr.extractLsb' 4 4 ∧
      t.cur = { s.cur with msr := t.cur.msr, iir := t.cur.iir, intr := t.cur.intr } ∧
      (s.cur.cfg.arbitrateOnAllInputs = true →
        t.cur.ArbiterRan s.cur.iir ∧ ∃ e, t.events = s.events ++ [e] ∧ t.cur.LevelCall s.active e) ∧
      (s.cur.cfg.arbitrateOnAllInputs = false →
        t.cur.iir = s.cur.iir ∧ t.cur.intr = s.cur.intr ∧ t.events = s.events)

/-- The frame of the ten reads (R68): no read changes the other block, the configuration, `thr`, the latch, IER, LCR, MCR,
SCR, the link, the sink, the upper seven bits of LSR or the levels of MSR; only the reads of offset 0 change `rbr`, `rxq` or
DR; only the read of MSR changes the delta bits; the other six change no part of any block. -/
def Obligations.PortReadFrame : Prop :=
  ∀ (i : Instr) (s t : State),
    i ∈ [Instr.rdRbr, .rdDll, .rdIer, .rdDlm, .rdIir, .rdLcr, .rdMcr, .rdLsr, .rdMsr, .rdScr] → exec i s = .next t →
    s.SameAround t ∧ t.port s.active.other = s.port s.active.other ∧
    t.cur = { s.cur with
      rbr := t.cur.rbr, rxq := t.cur.rxq, lsr := t.cur.lsr, msr := t.cur.msr, iir := t.cur.iir, intr := t.cur.intr } ∧
    t.cur.lsr.extractLsb' 1 7 = s.cur.lsr.extractLsb' 1 7 ∧ t.cur.msr.extractLsb' 4 4 = s.cur.msr.extractLsb' 4 4 ∧
    (i ≠ .rdRbr ∧ i ≠ .rdDll → t.cur.rbr = s.cur.rbr ∧ t.cur.rxq = s.cur.rxq ∧ t.cur.lsr = s.cur.lsr) ∧
    (i ≠ .rdMsr → t.cur.msr = s.cur.msr) ∧
    (i ≠ .rdRbr ∧ i ≠ .rdDll ∧ i ≠ .rdMsr → t.cur = s.cur ∧ t.events = s.events)

/-! ### Port writes -/

/-- `WR.THR` on a block with no way to a peer (R120, R161, R163), also one whose data capability would be its own, since a
block "never calls its own `RXPUSH`" (R146; no link records such a capability, notes/assumptions/28): the byte is kept in
`thr`, THRE and TSRE end set exactly where the local sink is not the silent one, the sink takes the byte and logs its lines,
and nothing else changes. That an absent `bindingName` is the silent sink is decision D24 of the spec (notes/assumptions/19),
and that a peer without `sendData`, a pointing device, answers false is decision D31 (notes/assumptions/22). -/
def Obligations.TransmitWithoutPeer : Prop :=
  ∀ (s : State) (v : Byte), s.cur.live = true →
    (s.cur.peer = none ∨ s.cur.sendData = none ∨ s.cur.sendData = some (.port s.active)) →
    ∃ t, exec (.wrThr v) s = .next t ∧ t.result = .nothing ∧ s.OnlyBlock s.active t ∧ t.cur.thr = v ∧
      t.cur.lsr.getLsbD 5 = s.cur.cfg.bindingName.isSome ∧ t.cur.lsr.getLsbD 6 = s.cur.cfg.bindingName.isSome ∧
      t.cur.lsr.extractLsb' 0 5 = s.cur.lsr.extractLsb' 0 5 ∧ t.cur.lsr.getLsbD 7 = s.cur.lsr.getLsbD 7 ∧
      t.cur = { s.cur with
        thr := v, lsr := t.cur.lsr, logbuf := t.cur.logbuf, column := t.cur.column, surface := t.cur.surface } ∧
      s.cur.SinkTook v t.cur ∧ t.events = s.events ++ s.cur.sinkLines s.active v

/-- The line-buffered log (R166), whether or not a peer is present and whatever it answered (R161): on a linefeed, or where the
buffer has reached 1024 characters, the buffer is logged as one line and emptied; the byte is then appended unless it is the
linefeed; the byte is always accepted. The calls of the peer's part, `peerCalls`, come before the line and log none. That the
flush test comes before the append is decision D20 and that "console" selects the log is decision D24 of the spec
(notes/assumptions/19). -/
def Obligations.LogSinkTakesByte : Prop :=
  ∀ (s : State) (v : Byte), s.cur.live = true → s.cur.cfg.bindingName = some ['c', 'o', 'n', 's', 'o', 'l', 'e'] →
    ∃ t peerCalls, exec (.wrThr v) s = .next t ∧ t.cur.lsr.getLsbD 5 = true ∧ t.cur.lsr.getLsbD 6 = true ∧
      (s.cur.peer = none → peerCalls = []) ∧ (∀ e ∈ peerCalls, ∀ ep line, e ≠ Event.logLine ep line) ∧
      (v = 0x0A#8 → t.cur.logbuf = [] ∧ t.events = s.events ++ peerCalls ++ [.logLine s.active s.cur.logbuf]) ∧
      (v ≠ 0x0A#8 → 1024 ≤ s.cur.logbuf.length →
        t.cur.logbuf = [v] ∧ t.events = s.events ++ peerCalls ++ [.logLine s.active s.cur.logbuf]) ∧
      (v ≠ 0x0A#8 → s.cur.logbuf.length < 1024 →
        t.cur.logbuf = s.cur.logbuf ++ [v] ∧ t.events = s.events ++ peerCalls) ∧
      t.cur.column = s.cur.column ∧ t.cur.surface = s.cur.surface

/-- The echo surface (R167 to R171), whether or not a peer is present and whatever it answered (R161): carriage return,
backspace, tab and every other byte. The calls of the peer's part, `peerCalls`, are all that is added to the history. Which
bytes give a position, and what carriage return and backspace do at the edges, is decision D22 of the spec, the width of an
unconfigured tab conflict C4, and that a name other than "console" selects this sink decision D24 (notes/assumptions/19). -/
def Obligations.EchoSurfaceTakesByte : Prop :=
  ∀ (s : State) (v : Byte) (name : Ident), s.cur.live = true →
    s.cur.cfg.bindingName = some name → name ≠ ['c', 'o', 'n', 's', 'o', 'l', 'e'] →
    ∃ t peerCalls, exec (.wrThr v) s = .next t ∧ t.cur.lsr.getLsbD 5 = true ∧ t.cur.lsr.getLsbD 6 = true ∧
      (s.cur.peer = none → peerCalls = []) ∧ (∀ e ∈ peerCalls, ∀ ep line, e ≠ Event.logLine ep line) ∧
      t.events = s.events ++ peerCalls ∧ t.cur.logbuf = s.cur.logbuf ∧
      (v = 0x0D#8 → t.cur.column = 0 ∧ t.cur.surface = s.cur.surface) ∧
      (v = 0x08#8 → t.cur.column = s.cur.column - 1 ∧ t.cur.surface = s.cur.surface.dropLast) ∧
      (v = 0x09#8 → s.cur.cfg.tabWidth = some 0 → t.cur.column = s.cur.column ∧ t.cur.surface = s.cur.surface) ∧
      (v = 0x09#8 → ∀ w, w ≠ 0 → s.cur.cfg.tabWidth.getD 8 = w →
        t.cur.column = s.cur.column + (w - s.cur.column % w) ∧
        t.cur.surface = s.cur.surface ++ (if s.cur.column = 0 then s.cur.cfg.bolChar.toList else []) ++
          List.replicate (w - s.cur.column % w) 0x20#8) ∧
      (v ≠ 0x0D#8 → v ≠ 0x08#8 → v ≠ 0x09#8 →
        t.cur.column = s.cur.column + 1 ∧
        t.cur.surface = s.cur.surface ++ (if s.cur.column = 0 then s.cur.cfg.bolChar.toList else []) ++ [v])

/-- `WR.THR` with the other block as peer (R73, R120, R161): the byte is delivered inside the write as that block's `RXPUSH`,
its arbiter runs and restates its level, and the sender's THRE and TSRE end set, its own sink notwithstanding; the sender's
own sink then takes the byte and logs its lines; nothing is placed in the sender's own receive path and its arbiter does not
run (R120 (e), R223). That a SerialPort always accepts is decision D18 of the spec (notes/assumptions/17), that IIR keeps its
code where nothing matches decision D4 (notes/assumptions/13), and what the sink does rests on decisions D20, D22 and D24
(notes/assumptions/19). -/
def Obligations.TransmitReachesPeerBlock : Prop :=
  ∀ (s : State) (v : Byte) (r : Ref), s.cur.live = true → s.cur.peer = some r →
    s.cur.sendData = some (.port s.active.other) → (s.port s.active.other).live = true →
    ∃ t e, exec (.wrThr v) s = .next t ∧ t.result = .nothing ∧ s.SameAround t ∧ t.draws = s.draws ∧
      t.cur.lsr.getLsbD 5 = true ∧ t.cur.lsr.getLsbD 6 = true ∧
      t.cur.lsr.extractLsb' 0 5 = s.cur.lsr.extractLsb' 0 5 ∧ t.cur.lsr.getLsbD 7 = s.cur.lsr.getLsbD 7 ∧
      t.cur = { s.cur with
        thr := v, lsr := t.cur.lsr, logbuf := t.cur.logbuf, column := t.cur.column, surface := t.cur.surface } ∧
      s.cur.SinkTook v t.cur ∧
      t.events = s.events ++ [.receiveData s.active (.port s.active.other) v, e] ++ s.cur.sinkLines s.active v ∧
      (s.port s.active.other).Pushed [v] (t.port s.active.other) ∧
      (t.port s.active.other).ArbiterRan (s.port s.active.other).iir ∧
      (t.port s.active.other).LevelCall s.active.other e ∧
      t.port s.active.other = { s.port s.active.other with
        rbr := (t.port s.active.other).rbr, rxq := (t.port s.active.other).rxq, lsr := (t.port s.active.other).lsr,
        iir := (t.port s.active.other).iir, intr := (t.port s.active.other).intr }

/-- `WR.THR` with a peer that is no SerialPort: the capability is called with the byte, its answer is a free value
(R164, entry N13; notes/assumptions/12), and the byte is accepted where that answer or the local sink's is true (R161); the
local sink takes the byte whatever the answer is. `Config.deviceAnswer` has no body, so the statement holds for every answer.
What the sink does rests on decisions D20, D22 and D24 of the spec (notes/assumptions/19). -/
def Obligations.TransmitReachesOutsideComponent : Prop :=
  ∀ (s : State) (v : Byte) (r : Ref) (name : Ident), s.cur.live = true → s.cur.peer = some r →
    s.cur.sendData = some (.ext name) →
    ∃ t, exec (.wrThr v) s = .next t ∧ t.result = .nothing ∧ s.SameAround t ∧
      t.port s.active.other = s.port s.active.other ∧ t.draws = s.draws + 1 ∧
      t.cur.lsr.getLsbD 5 = (Config.deviceAnswer s.draws || s.cur.cfg.bindingName.isSome) ∧
      t.cur.lsr.getLsbD 6 = t.cur.lsr.getLsbD 5 ∧
      t.cur.lsr.extractLsb' 0 5 = s.cur.lsr.extractLsb' 0 5 ∧ t.cur.lsr.getLsbD 7 = s.cur.lsr.getLsbD 7 ∧
      t.cur = { s.cur with
        thr := v, lsr := t.cur.lsr, logbuf := t.cur.logbuf, column := t.cur.column, surface := t.cur.surface } ∧
      s.cur.SinkTook v t.cur ∧
      t.events = s.events ++ [.receiveData s.active (.ext name) v] ++ s.cur.sinkLines s.active v

/-- The frame of `WR.THR` on both blocks, whoever the peer is, from every state (R120, R146): of the sender only `thr`, LSR and
the sink state change, so that nothing is placed in its own receive path and its arbiter does not run; of the other block only
the receive path, LSR, IIR and the request level; around the blocks only the history, the value returned and the free values
drawn. -/
def Obligations.TransmitFrame : Prop :=
  ∀ (s t : State) (v : Byte), exec (.wrThr v) s = .next t → s.SameAround t ∧
    t.cur = { s.cur with
      thr := t.cur.thr, lsr := t.cur.lsr, logbuf := t.cur.logbuf, column := t.cur.column, surface := t.cur.surface } ∧
    t.cur.lsr.extractLsb' 0 5 = s.cur.lsr.extractLsb' 0 5 ∧ t.cur.lsr.getLsbD 7 = s.cur.lsr.getLsbD 7 ∧
    t.port s.active.other = { s.port s.active.other with
      rbr := (t.port s.active.other).rbr, rxq := (t.port s.active.other).rxq, lsr := (t.port s.active.other).lsr,
      iir := (t.port s.active.other).iir, intr := (t.port s.active.other).intr } ∧
    (t.port s.active.other).lsr.extractLsb' 1 7 = (s.port s.active.other).lsr.extractLsb' 1 7

/-- `WR.DLL` and `WR.DLM` replace their byte of the latch, keep the other, and change nothing else (R121, R123), each with
its encoding. -/
def Obligations.DivisorWrites : Prop :=
  (∀ (s : State) (v : Byte), s.cur.live = true →
    (∃ t, exec (.wrDll v) s = .next t ∧ t.result = .nothing ∧ s.OnlyBlock s.active t ∧ t.events = s.events ∧
      t.cur.dl.extractLsb' 0 8 = v ∧ t.cur.dl.extractLsb' 8 8 = s.cur.dl.extractLsb' 8 8 ∧
      t.cur = { s.cur with dl := t.cur.dl }) ∧
    (∃ t, exec (.wrDlm v) s = .next t ∧ t.result = .nothing ∧ s.OnlyBlock s.active t ∧ t.events = s.events ∧
      t.cur.dl.extractLsb' 8 8 = v ∧ t.cur.dl.extractLsb' 0 8 = s.cur.dl.extractLsb' 0 8 ∧
      t.cur = { s.cur with dl := t.cur.dl })) ∧
  (∀ v : Byte, decodeKey (keyOf true (transWord .write 0 v)) = .wrDll v ∧
    decodeKey (keyOf true (transWord .write 1 v)) = .wrDlm v)

/-- `WR.IER`: all eight bits are stored (decision D11), then the arbiter runs (decision D2 of the spec, notes/assumptions/14;
under the other setting of its switch it does not); nothing else changes. That IIR keeps its code where nothing matches is
decision D4 (notes/assumptions/13). -/
def Obligations.InterruptEnableWrite : Prop :=
  ∀ (s : State) (v : Byte), s.cur.live = true →
    ∃ t, exec (.wrIer v) s = .next t ∧ t.result = .nothing ∧ s.OnlyBlock s.active t ∧ t.cur.ier = v ∧
      t.cur = { s.cur with ier := v, iir := t.cur.iir, intr := t.cur.intr } ∧
      (s.cur.cfg.arbitrateOnAllInputs = true →
        t.cur.ArbiterRan s.cur.iir ∧ ∃ e, t.events = s.events ++ [e] ∧ t.cur.LevelCall s.active e) ∧
      (s.cur.cfg.arbitrateOnAllInputs = false →
        t.cur.iir = s.cur.iir ∧ t.cur.intr = s.cur.intr ∧ t.events = s.events)

/-- The writes of offsets 2, 5 and 6 "change no state, make no call and return nothing, whatever `data` is" (R85, R124, R127,
R128), each with its encoding. -/
def Obligations.IgnoredWritesChangeNothing : Prop :=
  (∀ (s : State) (v : Byte), s.cur.live = true →
    exec (.wrX2 v) s = .next { s with result := .nothing } ∧ exec (.wrX5 v) s = .next { s with result := .nothing } ∧
    exec (.wrX6 v) s = .next { s with result := .nothing }) ∧
  (∀ (dlab : Bool) (v : Byte), decodeKey (keyOf dlab (transWord .write 2 v)) = .wrX2 v ∧
    decodeKey (keyOf dlab (transWord .write 5 v)) = .wrX5 v ∧ decodeKey (keyOf dlab (transWord .write 6 v)) = .wrX6 v)

/-- `WR.LCR` stores all eight bits and changes nothing else: no break is sent and the registers hidden by the alias keep
their values; bytes pushed afterwards are queued and staged as they would have been without it (R125). -/
def Obligations.LineControlWrite : Prop :=
  (∀ (s : State) (v : Byte), s.cur.live = true →
    ∃ t, exec (.wrLcr v) s = .next t ∧ t.result = .nothing ∧ s.OnlyBlock s.active t ∧ t.events = s.events ∧
      t.cur = { s.cur with lcr := v } ∧
      ∀ data, ∃ u u', exec (.rxpush data) t = .next u ∧ exec (.rxpush data) s = .next u' ∧
        u.cur = { u'.cur with lcr := v } ∧ u.events = u'.events) ∧
  (∀ (dlab : Bool) (v : Byte), decodeKey (keyOf dlab (transWord .write 3 v)) = .wrLcr v)

/-- `WR.MCR` where neither DTR nor RTS changes, or no peer is present: the byte is stored and nobody is notified (R126 (a)
to (c)). Nor is anybody where the status capability would be the block's own, which no link records, as the peer is "one
other endpoint" (R40; notes/assumptions/28). -/
def Obligations.ModemControlWriteWithoutNotice : Prop :=
  ∀ (s : State) (v : Byte), s.cur.live = true →
    ((v.getLsbD 0 = s.cur.mcr.getLsbD 0 ∧ v.getLsbD 1 = s.cur.mcr.getLsbD 1) ∨ s.cur.peer = none ∨
      s.cur.updateStatus = some (.port s.active)) →
    ∃ t, exec (.wrMcr v) s = .next t ∧ t.result = .nothing ∧ s.OnlyBlock s.active t ∧ t.events = s.events ∧
      t.cur = { s.cur with mcr := v }

/-- `WR.MCR` that changes DTR or RTS in null-modem mode (R126, R186, R189). With the other block as peer: its CTS is the new RTS,
its DSR and RLSD the new DTR, its RI low; a delta bit of it is set where it was set or its level changed, TERI where RI fell;
its arbiter runs. With an outside component: its callback receives CTS, DSR and CD crosswise, and no block but the writer's
MCR changes. That a status replaces all four levels is decision D17 and the delta bits are decision D16 of the spec
(notes/assumptions/16); that IIR keeps its code where nothing matches is decision D4 (notes/assumptions/13). -/
def Obligations.NullModemCrossover : Prop :=
  (∀ (s : State) (v : Byte) (r : Ref), s.cur.live = true → s.cur.peer = some r →
    s.cur.updateStatus = some (.port s.active.other) → (s.port s.active.other).live = true → s.cur.nullModem = true →
    (v.getLsbD 0 ≠ s.cur.mcr.getLsbD 0 ∨ v.getLsbD 1 ≠ s.cur.mcr.getLsbD 1) →
    ∃ t, exec (.wrMcr v) s = .next t ∧ t.result = .nothing ∧ s.SameAround t ∧ t.draws = s.draws ∧
      t.cur = { s.cur with mcr := v } ∧
      (s.port s.active.other).InputsSet (v.getLsbD 1) (v.getLsbD 0) false (v.getLsbD 0) (t.port s.active.other) ∧
      (t.port s.active.other).ArbiterRan (s.port s.active.other).iir ∧
      (∃ e, t.events = s.events ++ [.receiveStatus s.active (.port s.active.other)
          { cts := v.getLsbD 1, dsr := v.getLsbD 0, cd := v.getLsbD 0, ri := false, rts := false, dtr := false }, e] ∧
        (t.port s.active.other).LevelCall s.active.other e) ∧
      t.port s.active.other = { s.port s.active.other with
        msr := (t.port s.active.other).msr, iir := (t.port s.active.other).iir,
        intr := (t.port s.active.other).intr }) ∧
  (∀ (s : State) (v : Byte) (r : Ref) (callback : Ident), s.cur.live = true → s.cur.peer = some r →
    s.cur.updateStatus = some (.ext callback) → s.cur.nullModem = true →
    (v.getLsbD 0 ≠ s.cur.mcr.getLsbD 0 ∨ v.getLsbD 1 ≠ s.cur.mcr.getLsbD 1) →
    ∃ t, exec (.wrMcr v) s = .next t ∧ t.result = .nothing ∧ s.OnlyBlock s.active t ∧ t.cur = { s.cur with mcr := v } ∧
      t.events = s.events ++ [.receiveStatus s.active (.ext callback)
        { cts := v.getLsbD 1, dsr := v.getLsbD 0, cd := v.getLsbD 0, ri := false, rts := false, dtr := false }])

/-- `WR.MCR` that changes DTR or RTS, straight through (R126, R186, R187, R189). With an outside component such as a pointing
device: its callback receives RTS and DTR unchanged, and no block but the writer's MCR changes. With the other block: "a
straight-through status received by a SerialPort sets all four levels low"; a delta bit of it is set where it was set or its
level was high, and its arbiter runs. The levels are decision D17, the delta bits decision D16 of the spec
(notes/assumptions/16); that IIR keeps its code where nothing matches is decision D4 (notes/assumptions/13). -/
def Obligations.StraightThroughStatus : Prop :=
  (∀ (s : State) (v : Byte) (r : Ref) (callback : Ident), s.cur.live = true → s.cur.peer = some r →
    s.cur.updateStatus = some (.ext callback) → s.cur.nullModem = false →
    (v.getLsbD 0 ≠ s.cur.mcr.getLsbD 0 ∨ v.getLsbD 1 ≠ s.cur.mcr.getLsbD 1) →
    ∃ t, exec (.wrMcr v) s = .next t ∧ t.result = .nothing ∧ s.OnlyBlock s.active t ∧ t.cur = { s.cur with mcr := v } ∧
      t.events = s.events ++ [.receiveStatus s.active (.ext callback)
        { cts := false, dsr := false, cd := false, ri := false, rts := v.getLsbD 1, dtr := v.getLsbD 0 }]) ∧
  (∀ (s : State) (v : Byte) (r : Ref), s.cur.live = true → s.cur.peer = some r →
    s.cur.updateStatus = some (.port s.active.other) → (s.port s.active.other).live = true → s.cur.nullModem = false →
    (v.getLsbD 0 ≠ s.cur.mcr.getLsbD 0 ∨ v.getLsbD 1 ≠ s.cur.mcr.getLsbD 1) →
    ∃ t, exec (.wrMcr v) s = .next t ∧ t.result = .nothing ∧ s.SameAround t ∧ t.draws = s.draws ∧
      t.cur = { s.cur with mcr := v } ∧
      (s.port s.active.other).InputsSet false false false false (t.port s.active.other) ∧
      (t.port s.active.other).ArbiterRan (s.port s.active.other).iir ∧
      (∃ e, t.events = s.events ++ [.receiveStatus s.active (.port s.active.other)
          { cts := false, dsr := false, cd := false, ri := false, rts := v.getLsbD 1, dtr := v.getLsbD 0 }, e] ∧
        (t.port s.active.other).LevelCall s.active.other e) ∧
      t.port s.active.other = { s.port s.active.other with
        msr := (t.port s.active.other).msr, iir := (t.port s.active.other).iir, intr := (t.port s.active.other).intr })

/-- The frame of `WR.MCR` on both blocks, whoever the peer is, from every state (R126, R40): of the writer only MCR can change, of
the other block only MSR, IIR and the request level. -/
def Obligations.ModemControlFrame : Prop :=
  ∀ (s t : State) (v : Byte), exec (.wrMcr v) s = .next t → s.SameAround t ∧ t.draws = s.draws ∧
    t.cur = { s.cur with mcr := t.cur.mcr } ∧
    t.port s.active.other = { s.port s.active.other with
      msr := (t.port s.active.other).msr, iir := (t.port s.active.other).iir, intr := (t.port s.active.other).intr }

/-- The scratch register (R110, R129): a read returns it and changes nothing, a write stores the byte and changes nothing
else. Where `SCR_WRITABLE` is false a write is a no-op and a read "always returns the reset value" (R129, conflict C1;
notes/assumptions/21), which is decision D10 of the spec (notes/assumptions/3). -/
def Obligations.ScratchRegister : Prop :=
  (∀ s : State, s.cur.live = true →
    exec .rdScr s = .next { s with result := .byte (if s.cur.cfg.scrWritable then s.cur.scr else 0x00) }) ∧
  (∀ (s : State) (v : Byte), s.cur.live = true →
    ∃ t, exec (.wrScr v) s = .next t ∧ t.result = .nothing ∧ s.OnlyBlock s.active t ∧ t.events = s.events ∧
      (s.cur.cfg.scrWritable = true → t.cur = { s.cur with scr := v }) ∧
      (s.cur.cfg.scrWritable = false → t.cur = s.cur)) ∧
  (∀ (dlab : Bool) (v : Byte), decodeKey (keyOf dlab (transWord .read 7 v)) = .rdScr ∧
    decodeKey (keyOf dlab (transWord .write 7 v)) = .wrScr v)

/-! ### The line -/

/-- `RXPUSH` (R140, R141): the bytes go to the tail of the queue in their order, the head is staged where nothing was, the
arbiter runs and restates the level; nothing else changes. That it returns true is decision D18 of the spec
(notes/assumptions/17), and that IIR keeps its code where nothing matches is decision D4 (notes/assumptions/13). -/
def Obligations.PushDeliversBytes : Prop :=
  ∀ (s : State) (data : RxData), s.cur.live = true →
    ∃ t, exec (.rxpush data) s = .next t ∧ t.result = .accepted true ∧ s.OnlyBlock s.active t ∧
      s.cur.Pushed (match data with | .byte b => [b] | .bytes bs => bs) t.cur ∧
      t.cur.ArbiterRan s.cur.iir ∧ (∃ e, t.events = s.events ++ [e] ∧ t.cur.LevelCall s.active e) ∧
      t.cur = { s.cur with rbr := t.cur.rbr, rxq := t.cur.rxq, lsr := t.cur.lsr, iir := t.cur.iir, intr := t.cur.intr }

/-- "pushing N bytes into the receive queue while `lsr.DR` is set leaves `rbr` unchanged and the full N-byte backlog queued;
reading `rbr` once then triggers exactly one byte to stage, decrementing the backlog by one" (R140 (b)). -/
def Obligations.BacklogBehindStagedByte : Prop :=
  ∀ (s : State) (data : List Byte), s.cur.live = true → s.cur.lsr.getLsbD 0 = true →
    ∃ t, exec (.rxpush (.bytes data)) s = .next t ∧ t.cur.rbr = s.cur.rbr ∧ t.cur.rxq = s.cur.rxq ++ data ∧
      ∃ u, exec .rdRbr t = .next u ∧ u.result = .byte s.cur.rbr ∧
        (s.cur.rxq ++ data ≠ [] → u.cur.rbr :: u.cur.rxq = s.cur.rxq ++ data ∧ u.cur.lsr.getLsbD 0 = true)

/-- Bytes reach software in their order and each once (R145): no operation but a read of offset 0, `RESET` and `RESTORE` takes
a byte from the front of what is unread on either block, or puts one before it; a read of RBR with a byte ready returns the
first unread byte and takes exactly that one; a read with none ready takes none. -/
def Obligations.ReceivedBytesKeepTheirOrder : Prop :=
  (∀ (i : Instr) (s t : State), exec i s = .next t → i ≠ .rdRbr → i ≠ .rdDll → i ≠ .reset → (∀ x, i ≠ .restore x) →
    ∀ q, ∃ more, (t.port q).unread = (s.port q).unread ++ more) ∧
  (∀ s : State, s.cur.live = true → ∃ t, exec .rdRbr s = .next t ∧
    (s.cur.lsr.getLsbD 0 = true → ∃ b, t.result = .byte b ∧ s.cur.unread = b :: t.cur.unread) ∧
    (s.cur.lsr.getLsbD 0 = false → t.cur.unread = s.cur.unread))

/-- `MSIN`: the four levels are replaced, a delta bit is set where its level changed, TERI where RI fell, set delta bits
stay set, and the arbiter runs; nothing else changes. The algorithm is decision D16 of the spec (notes/assumptions/16), and
that IIR keeps its code where nothing matches is decision D4 (notes/assumptions/13). -/
def Obligations.ModemInputsSetLevelsAndDeltas : Prop :=
  ∀ (s : State) (cts dsr ri rlsd : Bool), s.cur.live = true →
    ∃ t, exec (.msin cts dsr ri rlsd) s = .next t ∧ t.result = .nothing ∧ s.OnlyBlock s.active t ∧
      s.cur.InputsSet cts dsr ri rlsd t.cur ∧
      t.cur.ArbiterRan s.cur.iir ∧ (∃ e, t.events = s.events ++ [e] ∧ t.cur.LevelCall s.active e) ∧
      t.cur = { s.cur with msr := t.cur.msr, iir := t.cur.iir, intr := t.cur.intr }

/-! ### The host -/

/-- `RESET`: the registers, the queue and the request level take the values of R47, the line is cleared at the controller, and
the link and the sink state stay (R252). The zero values are decision D10, the call is decision D23 and that the sink state
stays is decision D21 of the spec (notes/assumptions/3, 20 and 19). -/
def Obligations.ResetGivesDocumentedState : Prop :=
  ∀ s : State, s.cur.live = true →
    ∃ t, exec .reset s = .next t ∧ t.result = .nothing ∧ s.OnlyBlock s.active t ∧
      t.events = s.events ++ [.irqClear s.active s.cur.cfg.irqLine] ∧
      t.cur = { s.cur with
        rbr := 0x00, thr := 0x00, dl := s.cur.cfg.dlReset, ier := 0x00, iir := 0x01, lcr := 0x00, mcr := 0x00,
        lsr := 0x60, msr := 0x30, scr := 0x00, rxq := [], intr := false }

/-- `SAVE` returns the ten elements in the order of R203 and "changes no state and makes no call" (R204). -/
def Obligations.SaveReturnsTheTenElements : Prop :=
  ∀ s : State, s.cur.live = true →
    exec .save s = .next { s with result := .snapshot [.byte s.cur.rbr, .byte s.cur.thr, .word s.cur.dl, .byte s.cur.ier,
      .byte s.cur.iir, .byte s.cur.lcr, .byte s.cur.mcr, .byte s.cur.lsr, .byte s.cur.msr, .bytes s.cur.rxq] }

/-- `RESTORE` of a snapshot of the right shape: the ten elements are taken as they are, `scr` takes its reset value and the
request level follows `iir[0]`, with no call on anyone (decision D19 of the spec, notes/assumptions/18). -/
def Obligations.RestoreReplacesRegistersAndQueue : Prop :=
  ∀ (s : State) (rbr thr ier iir lcr mcr lsr msr : Byte) (dl : Word16) (rxq : List Byte), s.cur.live = true →
    ∃ t, exec (.restore [.byte rbr, .byte thr, .word dl, .byte ier, .byte iir, .byte lcr, .byte mcr, .byte lsr, .byte msr,
        .bytes rxq]) s = .next t ∧ t.result = .restored ∧ s.OnlyBlock s.active t ∧ t.events = s.events ∧
      t.cur = { s.cur with
        rbr := rbr, thr := thr, dl := dl, ier := ier, iir := iir, lcr := lcr, mcr := mcr, lsr := lsr, msr := msr,
        rxq := rxq, scr := 0x00, intr := !iir.getLsbD 0 }

/-- `RESTORE` of a snapshot whose length is not ten reports `SnapshotShapeMismatch` and changes nothing (R206, decision D19). That
ten elements of other kinds than R203 lists end in the same way is the model's choice (entry N26, notes/assumptions/18). -/
def Obligations.RestoreRejectsWrongLength : Prop :=
  ∀ (s : State) (snapshot : List Prim), s.cur.live = true →
    (snapshot.length ≠ 10 ∨ ∀ rbr thr dl ier iir lcr mcr lsr msr rxq, snapshot ≠ [.byte rbr, .byte thr, .word dl, .byte ier,
      .byte iir, .byte lcr, .byte mcr, .byte lsr, .byte msr, .bytes rxq]) →
    exec (.restore snapshot) s = .next { s with result := .snapshotShapeMismatch }

/-- "constructing a device, performing any sequence of register writes, serializing, restoring into a fresh device, and
serializing again yields an identical snapshot" (R209): the snapshot any block gives is accepted by any block, which then
gives the same snapshot. That it holds for every state R209 derives from R204 and R205, whose storing of the elements
unchanged is decision D19 of the spec (notes/assumptions/18). -/
def Obligations.SnapshotRoundTrip : Prop :=
  ∀ s s' : State, s.cur.live = true → s'.cur.live = true →
    ∃ x t u w, exec .save s = .next t ∧ t.result = .snapshot x ∧ exec (.restore x) s' = .next u ∧ u.result = .restored ∧
      exec .save u = .next w ∧ w.result = .snapshot x

/-- The machine right after reset: both blocks hold the values of R47, powered up, with nothing linked and nothing pending,
and they share no port (R63). The zero values, `DL_RESET` and the configuration are choices (D10, D9; notes/assumptions/3, 4,
5, 6). -/
def Obligations.MachineAfterReset : Prop :=
  State.reset.PortsExclusive ∧ ∀ ep, (State.reset.port ep).live = true ∧ (State.reset.port ep).stage = .powered ∧
    (State.reset.port ep).lsr = 0x60 ∧ (State.reset.port ep).msr = 0x30 ∧ (State.reset.port ep).iir = 0x01 ∧
    (State.reset.port ep).ier = 0x00 ∧ (State.reset.port ep).lcr = 0x00 ∧ (State.reset.port ep).mcr = 0x00 ∧
    (State.reset.port ep).rbr = 0x00 ∧ (State.reset.port ep).thr = 0x00 ∧ (State.reset.port ep).scr = 0x00 ∧
    (State.reset.port ep).rxq = [] ∧ (State.reset.port ep).intr = false ∧ (State.reset.port ep).peer = none ∧
    (State.reset.port ep).dl = (State.reset.port ep).cfg.dlReset ∧ State.reset.pending = []

/-! ### Links -/

/-- `RESOLVE` returns at once where a peer is present, where there is no descriptor, and where the descriptor's source part is
not the block's own identifier (R182); a descriptor without `->` has none, and another is cut at its first `->`
(notes/assumptions/22). -/
def Obligations.ResolveWithNothingToDo : Prop :=
  ∀ (s : State) (flag : Bool), s.cur.live = true →
    (s.cur.peer.isSome = true ∨ s.cur.cfg.connection = none ∨ (∃ d, s.cur.cfg.connection = some d ∧ NoArrow d) ∨
      ∃ source target, s.cur.cfg.connection = some (source ++ ['-', '>'] ++ target) ∧ NoArrow source ∧
        source ≠ s.cur.cfg.ownId) →
    exec (.resolve flag) s = .next { s with result := .resolved }

/-- `RESOLVE` where the target is not found (R182, R183): a `ConnectionResolutionFailure` is reported and returned, and every
block stays as it is. The same where the directory finds the block itself, which is no "other endpoint" (R40, R146): that this
case ends as an absent target is the model's choice (notes/assumptions/28). -/
def Obligations.ResolveReportsAbsentTarget : Prop :=
  ∀ (s : State) (flag : Bool) (target : Ident), s.cur.live = true → s.cur.peer = none →
    s.cur.cfg.connection = some (s.cur.cfg.ownId ++ ['-', '>'] ++ target) → NoArrow s.cur.cfg.ownId →
    ((∀ e ∈ s.directory, e.id ≠ target) ∨ lookupTarget s.directory target = some (.port s.active)) →
    exec (.resolve flag) s =
      .next { s with events := s.events ++ [.resolutionFailure s.active], result := .connectionResolutionFailure }

/-- `RESOLVE` towards the other block (R182, R184, R185). Where that block is live, both capabilities are captured and the
flag is recorded on this one, after the one call of its `connect`. Inside that call the other block stays as it is where it
already has a peer, has no descriptor, one without `->` or another source's; is linked back with the same flag where its
descriptor names this block; is linked with the same flag to an outside component its descriptor names, or reports its
failure where that component lacks a capability; and reports its failure where its target is absent or, as the model chooses
(notes/assumptions/28), is that block itself. Where the other block is inert, or its slot empty, it exports nothing, so the
failure is reported and returned and this block stays as it is (R183). That a descriptor is cut at its first `->` is
notes/assumptions/22, that a component's reaction to `connect` comes as a later request notes/assumptions/12. That the peer
is recorded before the target's `connect` is decision D29 (notes/assumptions/22) and that an inert block exports nothing
decision D33 of the spec (notes/assumptions/11). -/
def Obligations.ResolveLinksTheBlocks : Prop :=
  ∀ (s : State) (flag : Bool) (target : Ident), s.cur.live = true → s.cur.peer = none →
    s.cur.cfg.connection = some (s.cur.cfg.ownId ++ ['-', '>'] ++ target) → NoArrow s.cur.cfg.ownId →
    lookupTarget s.directory target = some (.port s.active.other) →
    ∃ t, exec (.resolve flag) s = .next t ∧ s.SameAround t ∧ t.draws = s.draws ∧
      ((s.port s.active.other).live = true → t.result = .resolved ∧
        t.cur = { s.cur with
          peer := some (.port s.active.other), sendData := some (.port s.active.other),
          updateStatus := some (.port s.active.other), nullModem := flag } ∧
        ((s.port s.active.other).peer.isSome = true ∨ (s.port s.active.other).cfg.connection = none ∨
            (∃ d, (s.port s.active.other).cfg.connection = some d ∧ NoArrow d) ∨
            (∃ source back, (s.port s.active.other).cfg.connection = some (source ++ ['-', '>'] ++ back) ∧
              NoArrow source ∧ source ≠ (s.port s.active.other).cfg.ownId) →
          t.port s.active.other = s.port s.active.other ∧
          t.events = s.events ++ [.connect s.active (.port s.active.other) flag]) ∧
        (∀ back, (s.port s.active.other).peer = none → (s.port s.active.other).cfg.connection =
            some ((s.port s.active.other).cfg.ownId ++ ['-', '>'] ++ back) →
          NoArrow (s.port s.active.other).cfg.ownId →
          (lookupTarget s.directory back = some (.port s.active) →
            t.port s.active.other = { s.port s.active.other with
              peer := some (.port s.active), sendData := some (.port s.active), updateStatus := some (.port s.active),
              nullModem := flag } ∧
            t.events = s.events ++ [.connect s.active (.port s.active.other) flag,
              .connect s.active.other (.port s.active) flag]) ∧
          (lookupTarget s.directory back = none ∨ lookupTarget s.directory back = some (.port s.active.other) →
            t.port s.active.other = s.port s.active.other ∧
            t.events = s.events ++ [.connect s.active (.port s.active.other) flag,
              .resolutionFailure s.active.other]) ∧
          (∀ name c d u, lookupTarget s.directory back = some (.ext name c d u) →
            (d = true ∧ u = true → t.port s.active.other = { s.port s.active.other with
                peer := some (.ext name), sendData := some (.ext name), updateStatus := some (.ext name),
                nullModem := flag } ∧
              t.events = s.events ++ [.connect s.active (.port s.active.other) flag] ++
                (if c then [.connect s.active.other (.ext name) flag] else [])) ∧
            (¬(d = true ∧ u = true) → t.port s.active.other = s.port s.active.other ∧
              t.events = s.events ++ [.connect s.active (.port s.active.other) flag] ++
                (if c then [.connect s.active.other (.ext name) flag] else []) ++
                [.resolutionFailure s.active.other])))) ∧
      ((s.port s.active.other).live = false → t.result = .connectionResolutionFailure ∧
        t.events = s.events ++ [.resolutionFailure s.active] ∧ ∀ q, t.port q = s.port q)

/-- `RESOLVE` towards an outside component: it is linked where it exports both `receiveData` and `receiveStatus`; otherwise the
peer stays absent and the failure is reported; its `connect` is called where it exports one (R182, R183). That the component
calls nothing back inside the resolution, so that the other block is untouched and the history holds exactly these calls, is
the model's choice: its reactions come as later requests (notes/assumptions/12). -/
def Obligations.ResolveOutsideComponent : Prop :=
  ∀ (s : State) (flag c d u : Bool) (target name : Ident), s.cur.live = true → s.cur.peer = none →
    s.cur.cfg.connection = some (s.cur.cfg.ownId ++ ['-', '>'] ++ target) → NoArrow s.cur.cfg.ownId →
    lookupTarget s.directory target = some (.ext name c d u) →
    ∃ t, exec (.resolve flag) s = .next t ∧ s.OnlyBlock s.active t ∧
      (d = true ∧ u = true → t.result = .resolved ∧
        t.events = s.events ++ (if c then [.connect s.active (.ext name) flag] else []) ∧
        t.cur = { s.cur with
          peer := some (.ext name), sendData := some (.ext name), updateStatus := some (.ext name), nullModem := flag }) ∧
      (¬(d = true ∧ u = true) → t.result = .connectionResolutionFailure ∧
        t.events = s.events ++ (if c then [.connect s.active (.ext name) flag] else []) ++ [.resolutionFailure s.active] ∧
        t.cur = s.cur)

/-- `CONNECT(isNullModem)` "performs `RESOLVE(isNullModem)` on the called instance" (R185). -/
def Obligations.ConnectPerformsResolve : Prop :=
  ∀ (flag : Bool) (s : State), exec (.connect flag) s = exec (.resolve flag) s

/-- "calling connection resolution twice with an already-established connection leaves the connection and both endpoints'
capability references unchanged" (R184). -/
def Obligations.ResolutionIsIdempotent : Prop :=
  ∀ (s t : State) (flag flag' : Bool), exec (.resolve flag) s = .next t → t.cur.peer.isSome = true → s.cur.live = true →
    ∃ u, exec (.resolve flag') t = .next u ∧ (∀ q, u.port q = t.port q) ∧ u.events = t.events

/-- `ATTACHMOUSE` (R187): it succeeds only where no peer is present and the identifier matches, records the device, the callback
and straight-through lines, and otherwise fails and changes nothing. That no `sendData` is captured is decision D31 of the
spec (notes/assumptions/22). -/
def Obligations.MouseAttaches : Prop :=
  ∀ (s : State) (id device callback : Ident), s.cur.live = true →
    (s.cur.peer = none → id = s.cur.cfg.ownId →
      ∃ t, exec (.attachMouse id device callback) s = .next t ∧ t.result = .attached true ∧ s.OnlyBlock s.active t ∧
        t.events = s.events ∧
        t.cur = { s.cur with peer := some (.ext device), updateStatus := some (.ext callback), nullModem := false }) ∧
    (s.cur.peer.isSome = true ∨ id ≠ s.cur.cfg.ownId →
      exec (.attachMouse id device callback) s = .next { s with result := .attached false })

/-- `RESOLVE`, `CONNECT` and `ATTACHMOUSE` "write only the link state of rule R40" (R89), on either block: every register, the
receive queue, the request level, the sink state and the configuration stay, and nothing around the blocks changes but
the history and the value returned. -/
def Obligations.LinkOperationsWriteLinkStateOnly : Prop :=
  ∀ (i : Instr) (s t : State),
    ((∃ f, i = .resolve f) ∨ (∃ f, i = .connect f) ∨ ∃ a b c, i = .attachMouse a b c) → exec i s = .next t →
    s.SameAround t ∧ t.draws = s.draws ∧ ∀ q, t.port q = { s.port q with
      peer := (t.port q).peer, sendData := (t.port q).sendData, updateStatus := (t.port q).updateStatus,
      nullModem := (t.port q).nullModem }

/-- "There is no cancellation concept; a connection, once established, persists until process teardown" (R190): no operation
changes the peer, the capabilities or the null-modem flag of a block that has a peer. -/
def Obligations.LinkPersists : Prop :=
  ∀ (i : Instr) (s t : State) (q : Ep), exec i s = .next t → (s.port q).peer.isSome = true →
    (t.port q).peer = (s.port q).peer ∧ (t.port q).sendData = (s.port q).sendData ∧
    (t.port q).updateStatus = (s.port q).updateStatus ∧ (t.port q).nullModem = (s.port q).nullModem

/-! ### Whole-machine rules -/

/-- When the read of offset 0 that empties RBR ends the receive condition, a pending modem-status condition is reported at
once, and the level does not drop (R221). -/
def Obligations.ModemStatusReportedAfterReceive : Prop :=
  ∀ s : State, s.cur.live = true → s.cur.lsr.getLsbD 0 = true → s.cur.rxq = [] → s.cur.ier.getLsbD 3 = true →
    s.cur.msr.extractLsb' 0 4 ≠ 0#4 →
    ∃ t, exec .rdRbr s = .next t ∧ t.cur.iir.getLsbD 0 = false ∧ t.cur.iir.extractLsb' 1 2 = s.cur.cfg.idMsi ∧
      t.cur.intr = true ∧ t.events = s.events ++ [.irqAssert s.active s.cur.cfg.irqLine s.cur.cfg.irqDelay]

/-- The request depends on its four inputs only: two blocks that differ in the other IER bits, in MCR (OUT2 among them), LCR,
the latch, `thr` and SCR, but agree in the receive path, MSR, `IER[0]`, `IER[3]` and IIR, have the same IIR and the same
request level after the same `RXPUSH` and after the same `MSIN` (R220, R224). That OUT2 and the other bits have no part in it
is decision D6 of the spec, as R229 marks it (notes/assumptions/24). -/
def Obligations.RequestDependsOnItsInputsOnly : Prop :=
  ∀ (s s' : State), s.cur.live = true → s'.cur.live = true → s.cur.cfg.idRda = s'.cur.cfg.idRda →
    s.cur.cfg.idMsi = s'.cur.cfg.idMsi → s.cur.lsr.getLsbD 0 = s'.cur.lsr.getLsbD 0 → s.cur.rxq = s'.cur.rxq →
    s.cur.msr = s'.cur.msr → s.cur.ier.getLsbD 0 = s'.cur.ier.getLsbD 0 → s.cur.ier.getLsbD 3 = s'.cur.ier.getLsbD 3 →
    s.cur.iir = s'.cur.iir →
    (∀ data, ∃ t t', exec (.rxpush data) s = .next t ∧ exec (.rxpush data) s' = .next t' ∧
      t.cur.iir = t'.cur.iir ∧ t.cur.intr = t'.cur.intr) ∧
    (∀ c d r l, ∃ t t', exec (.msin c d r l) s = .next t ∧ exec (.msin c d r l) s' = .next t' ∧
      t.cur.iir = t'.cur.iir ∧ t.cur.intr = t'.cur.intr)

/-- IIR and the request level change only where the arbiter runs or the register bank is replaced (R223): no other operation
changes them on either block. -/
def Obligations.RequestMovesOnlyWithTheArbiter : Prop :=
  ∀ (i : Instr) (s t : State), exec i s = .next t → i ≠ .rdRbr → i ≠ .rdDll → i ≠ .rdMsr → (∀ v, i ≠ .wrIer v) →
    (∀ v, i ≠ .wrThr v) → (∀ v, i ≠ .wrMcr v) → (∀ d, i ≠ .rxpush d) → (∀ c d r l, i ≠ .msin c d r l) → i ≠ .reset →
    (∀ x, i ≠ .restore x) → ∀ q, (t.port q).iir = (s.port q).iir ∧ (t.port q).intr = (s.port q).intr

/-- "The block never sets `LSR[4:1]`" and "nothing ever clears them but `RESET` or another `RESTORE`" (R33): no other
operation changes the four error bits of either block, and `RESET` leaves them as they were or all 0. -/
def Obligations.ErrorBitsNeverRaised : Prop :=
  (∀ (i : Instr) (s t : State), exec i s = .next t → i ≠ .reset → (∀ x, i ≠ .restore x) → ∀ q,
    (t.port q).lsr.extractLsb' 1 4 = (s.port q).lsr.extractLsb' 1 4) ∧
  (∀ s t : State, exec .reset s = .next t → ∀ q,
    (t.port q).lsr.extractLsb' 1 4 = (s.port q).lsr.extractLsb' 1 4 ∨ (t.port q).lsr.extractLsb' 1 4 = 0#4)

/-- The transmitter's flags (R34, R44): after any operation but `RESTORE`, THRE and TSRE of either block are both as they were,
or equal; and only `WR.THR`, `RESET` and `RESTORE` move them, so a stuck transmitter stays stuck (R256). -/
def Obligations.TransmitterFlagsMoveTogether : Prop :=
  (∀ (i : Instr) (s t : State), exec i s = .next t → (∀ x, i ≠ .restore x) → ∀ q,
    ((t.port q).lsr.getLsbD 5 = (s.port q).lsr.getLsbD 5 ∧ (t.port q).lsr.getLsbD 6 = (s.port q).lsr.getLsbD 6) ∨
    (t.port q).lsr.getLsbD 5 = (t.port q).lsr.getLsbD 6) ∧
  (∀ (i : Instr) (s t : State), exec i s = .next t → (∀ v, i ≠ .wrThr v) → i ≠ .reset → (∀ x, i ≠ .restore x) → ∀ q,
    (t.port q).lsr.getLsbD 5 = (s.port q).lsr.getLsbD 5 ∧ (t.port q).lsr.getLsbD 6 = (s.port q).lsr.getLsbD 6)

/-- The law of the delta bits (R36): no operation but a read of MSR, `RESET` and `RESTORE` clears one, on either block; and no
operation but `MSIN`, a write of MCR, `RESET` and `RESTORE` moves a level. -/
def Obligations.DeltaBitsAreSticky : Prop :=
  (∀ (i : Instr) (s t : State), exec i s = .next t → i ≠ .rdMsr → i ≠ .reset → (∀ x, i ≠ .restore x) →
    ∀ (q : Ep) (j : Nat), j < 4 → (s.port q).msr.getLsbD j = true → (t.port q).msr.getLsbD j = true) ∧
  (∀ (i : Instr) (s t : State), exec i s = .next t → (∀ c d r l, i ≠ .msin c d r l) → (∀ v, i ≠ .wrMcr v) → i ≠ .reset →
    (∀ x, i ≠ .restore x) → ∀ q, (t.port q).msr.extractLsb' 4 4 = (s.port q).msr.extractLsb' 4 4)

/-- "No bus transaction raises a synchronous exception: no fault, no bus error, no abort, for any offset, direction, value or
state" (R234), and no call does either: every operation ends in a next state, from every state. -/
def Obligations.EveryOperationCompletes : Prop :=
  ∀ (i : Instr) (s : State), ∃ t, exec i s = .next t

/-- An inert block performs no operation (R64, R200; decision D33 of the spec, notes/assumptions/11), and an empty slot no more
(notes/assumptions/29): whatever is asked of it,
every block, the history and the directory stay as they are. -/
def Obligations.InertBlockDoesNothing : Prop :=
  ∀ (i : Instr) (s : State), (s.cur.cfg.adapter ≠ 1 ∧ s.cur.cfg.adapter ≠ 2) ∨ s.cur.stage = .absent →
    ∃ t, exec i s = .next t ∧ (∀ q, t.port q = s.port q) ∧ t.events = s.events ∧ s.SameAround t

/-- No operation changes a block's configuration or how far its life has come, and no step changes the configuration of a block
that has been constructed, takes the block away or takes its power-up back: it "is constructed once", and its handler tables
"never change afterwards" (R200, R201). Two live blocks of one machine that share no port and have different adapters still
do after a step, whatever it constructs (R63). That no operation changes the directory it was handed, which block is acted
on or what is pending is the model's own choice (notes/assumptions/6 and 8); a step changes these when it takes up a request. -/
def Obligations.ConfigurationIsFixed : Prop :=
  (∀ (i : Instr) (s t : State), exec i s = .next t →
    (∀ q, (t.port q).cfg = (s.port q).cfg ∧ (t.port q).stage = (s.port q).stage) ∧ s.SameAround t) ∧
  (∀ (s t : State) (q : Ep), step s = .next t → (s.port q).stage ≠ .absent →
    (t.port q).cfg = (s.port q).cfg ∧ (t.port q).stage ≠ .absent ∧
    ((s.port q).stage = .powered → (t.port q).stage = .powered)) ∧
  (∀ s t : State, s.PortsExclusive → step s = .next t → t.PortsExclusive)

/-- R42 is an invariant of every step: from every state in which it holds for both blocks, and in which no pending `RESTORE`
loads an inconsistent snapshot and no pending construction changes the constants, a step that does not stop leads to such a state. -/
def Obligations.StepKeepsRegisterInvariants : Prop :=
  ∀ s t : State, s.Consistent → step s = .next t → t.Consistent

/-- R42 holds in the state after reset. -/
def Obligations.ResetStateIsConsistent : Prop :=
  State.reset.Consistent

/-- R40 is an invariant of every step: `updateStatus` is present exactly when a peer is, and `sendData` only then (a pointing
device has none, decision D31, notes/assumptions/22), and no block is linked to itself, so that none calls its own `RXPUSH`
(R146; notes/assumptions/28 says how resolution ends there); it holds in the state after reset. -/
def Obligations.StepKeepsLinkState : Prop :=
  (∀ q, (State.reset.port q).LinkSound q) ∧
  (∀ s t : State, (∀ q, (s.port q).LinkSound q) → step s = .next t → ∀ q, (t.port q).LinkSound q)
end

