-- ==== Sys2Proof/Laws/State.lean ====
section
/-! SUPPORT. The state's accessors: one lemma per field per update, so that no later proof unfolds a record update. -/

namespace Sys2Proof.Machine

@[simp] theorem Ep.other_ne (ep : Ep) : ep.other ≠ ep := by cases ep <;> decide
@[simp] theorem Ep.ne_other (ep : Ep) : ep ≠ ep.other := by cases ep <;> decide
@[simp] theorem Ep.other_other (ep : Ep) : ep.other.other = ep := by cases ep <;> rfl

theorem Ep.eq_or_other (ep q : Ep) : q = ep ∨ q = ep.other := by cases ep <;> cases q <;> decide

/-! ### `modify` -/

@[simp] theorem State.port_modify (s : State) (ep q : Ep) (f : Port → Port) :
    (s.modify ep f).port q = if q = ep then f (s.port q) else s.port q := by
  cases ep <;> cases q <;> rfl

@[simp] theorem State.directory_modify (s : State) (ep : Ep) (f : Port → Port) :
    (s.modify ep f).directory = s.directory := by cases ep <;> rfl
@[simp] theorem State.events_modify (s : State) (ep : Ep) (f : Port → Port) :
    (s.modify ep f).events = s.events := by cases ep <;> rfl
@[simp] theorem State.active_modify (s : State) (ep : Ep) (f : Port → Port) :
    (s.modify ep f).active = s.active := by cases ep <;> rfl
@[simp] theorem State.pending_modify (s : State) (ep : Ep) (f : Port → Port) :
    (s.modify ep f).pending = s.pending := by cases ep <;> rfl
@[simp] theorem State.result_modify (s : State) (ep : Ep) (f : Port → Port) :
    (s.modify ep f).result = s.result := by cases ep <;> rfl
@[simp] theorem State.draws_modify (s : State) (ep : Ep) (f : Port → Port) :
    (s.modify ep f).draws = s.draws := by cases ep <;> rfl

/-! ### `emit` -/

@[simp] theorem State.port_emit (s : State) (e : Event) (q : Ep) : (s.emit e).port q = s.port q := by
  cases q <;> rfl
@[simp] theorem State.directory_emit (s : State) (e : Event) : (s.emit e).directory = s.directory := rfl
@[simp] theorem State.events_emit (s : State) (e : Event) : (s.emit e).events = s.events ++ [e] := rfl
@[simp] theorem State.active_emit (s : State) (e : Event) : (s.emit e).active = s.active := rfl
@[simp] theorem State.pending_emit (s : State) (e : Event) : (s.emit e).pending = s.pending := rfl
@[simp] theorem State.result_emit (s : State) (e : Event) : (s.emit e).result = s.result := rfl
@[simp] theorem State.draws_emit (s : State) (e : Event) : (s.emit e).draws = s.draws := rfl

/-! ### `returning` -/

@[simp] theorem State.port_returning (s : State) (r : Result) (q : Ep) : (s.returning r).port q = s.port q := by
  cases q <;> rfl
@[simp] theorem State.directory_returning (s : State) (r : Result) : (s.returning r).directory = s.directory := rfl
@[simp] theorem State.events_returning (s : State) (r : Result) : (s.returning r).events = s.events := rfl
@[simp] theorem State.active_returning (s : State) (r : Result) : (s.returning r).active = s.active := rfl
@[simp] theorem State.pending_returning (s : State) (r : Result) : (s.returning r).pending = s.pending := rfl
@[simp] theorem State.result_returning (s : State) (r : Result) : (s.returning r).result = r := rfl
@[simp] theorem State.draws_returning (s : State) (r : Result) : (s.returning r).draws = s.draws := rfl

/-! ### Updates of one field -/

@[simp] theorem State.port_active (s : State) (ep q : Ep) : State.port { s with active := ep } q = s.port q := by
  cases q <;> rfl
@[simp] theorem State.port_pending (s : State) (l : List Request) (q : Ep) :
    State.port { s with pending := l } q = s.port q := by cases q <;> rfl
@[simp] theorem State.port_directory (s : State) (d : List DirEntry) (q : Ep) :
    State.port { s with directory := d } q = s.port q := by cases q <;> rfl
@[simp] theorem State.port_taken (s : State) (ep : Ep) (l : List Request) (d : List DirEntry) (q : Ep) :
    State.port { s with active := ep, pending := l, directory := d } q = s.port q := by cases q <;> rfl
@[simp] theorem State.port_draws (s : State) (n : Nat) (q : Ep) : State.port { s with draws := n } q = s.port q := by
  cases q <;> rfl
@[simp] theorem State.port_active_pending (s : State) (ep : Ep) (l : List Request) (q : Ep) :
    State.port { s with active := ep, pending := l } q = s.port q := by cases q <;> rfl

@[simp] theorem State.port_unclaimedRead (s : State) (q : Ep) : s.unclaimedRead.port q = s.port q := by
  cases q <;> rfl
@[simp] theorem State.events_unclaimedRead (s : State) : s.unclaimedRead.events = s.events := rfl
@[simp] theorem State.directory_unclaimedRead (s : State) : s.unclaimedRead.directory = s.directory := rfl
@[simp] theorem State.active_unclaimedRead (s : State) : s.unclaimedRead.active = s.active := rfl
@[simp] theorem State.pending_unclaimedRead (s : State) : s.unclaimedRead.pending = s.pending := rfl

theorem State.port_ext {s t : State} (ha : s.port .a = t.port .a) (hb : s.port .b = t.port .b)
    (hd : s.directory = t.directory) (he : s.events = t.events) (hc : s.active = t.active)
    (hp : s.pending = t.pending) (hr : s.result = t.result) (hn : s.draws = t.draws) : s = t := by
  cases s; cases t
  simp only [State.port] at ha hb
  simp_all

end Sys2Proof.Machine
end

