-- ==== Sys2Proof/Laws/Bits.lean ====
section
/-! SUPPORT. What each register update does to each field of the register. -/

namespace Sys2Proof.Machine

/-- Replacing one bit of a byte replaces that bit and no other. -/
@[simp] theorem getLsbD_setBit (b : Byte) (i j : Nat) (v : Bool) (hi : i < 8) :
    (setBit b i v).getLsbD j = if j = i then v else b.getLsbD j := by
  by_cases hj : j < 8
  · have hi' : i = 0 ∨ i = 1 ∨ i = 2 ∨ i = 3 ∨ i = 4 ∨ i = 5 ∨ i = 6 ∨ i = 7 := by omega
    have hj' : j = 0 ∨ j = 1 ∨ j = 2 ∨ j = 3 ∨ j = 4 ∨ j = 5 ∨ j = 6 ∨ j = 7 := by omega
    rcases hi' with rfl | rfl | rfl | rfl | rfl | rfl | rfl | rfl <;>
      rcases hj' with rfl | rfl | rfl | rfl | rfl | rfl | rfl | rfl <;>
        cases v <;> simp [setBit]
  · have hne : j ≠ i := by omega
    rw [if_neg hne, BitVec.getLsbD_of_ge _ _ (by omega), BitVec.getLsbD_of_ge _ _ (by omega)]

@[simp] theorem getElem_setBit (b : Byte) (i j : Nat) (v : Bool) (hi : i < 8) (hj : j < 8) :
    (setBit b i v)[j] = if j = i then v else b[j] := by
  rw [← BitVec.getLsbD_eq_getElem, getLsbD_setBit b i j v hi, ← BitVec.getLsbD_eq_getElem]

/-- A field that does not hold the bit stays. -/
theorem extract_setBit (b : Byte) (i start len : Nat) (v : Bool) (hi : i < 8) (h : i < start ∨ start + len ≤ i) :
    (setBit b i v).extractLsb' start len = b.extractLsb' start len := by
  apply BitVec.eq_of_getLsbD_eq
  intro j hj
  have hne : start + j ≠ i := by omega
  simp [hj, hi, hne]

/-! ### LSR -/

@[simp] theorem getLsbD_lsrDr (l : Byte) (v : Bool) (j : Nat) :
    (lsrDr l v).getLsbD j = if j = 0 then v else l.getLsbD j := by simp [lsrDr]

@[simp] theorem getLsbD_lsrTx (l : Byte) (v : Bool) (j : Nat) :
    (lsrTx l v).getLsbD j = if j = 6 ∨ j = 5 then v else l.getLsbD j := by
  rw [lsrTx, getLsbD_setBit _ 6 j v (by omega), getLsbD_setBit _ 5 j v (by omega)]
  split <;> split <;> simp_all

@[simp] theorem getElem_lsrDr (l : Byte) (v : Bool) (j : Nat) (hj : j < 8) :
    (lsrDr l v)[j] = if j = 0 then v else l[j] := by simp [lsrDr]

@[simp] theorem getElem_lsrTx (l : Byte) (v : Bool) (j : Nat) (hj : j < 8) :
    (lsrTx l v)[j] = if j = 6 ∨ j = 5 then v else l[j] := by
  rw [← BitVec.getLsbD_eq_getElem, getLsbD_lsrTx, ← BitVec.getLsbD_eq_getElem]

@[simp] theorem lsrDr_errors (l : Byte) (v : Bool) : (lsrDr l v).extractLsb' 1 4 = l.extractLsb' 1 4 :=
  extract_setBit l 0 1 4 v (by omega) (by omega)

@[simp] theorem lsrDr_rest (l : Byte) (v : Bool) : (lsrDr l v).extractLsb' 1 7 = l.extractLsb' 1 7 :=
  extract_setBit l 0 1 7 v (by omega) (by omega)

@[simp] theorem lsrTx_errors (l : Byte) (v : Bool) : (lsrTx l v).extractLsb' 1 4 = l.extractLsb' 1 4 := by
  rw [lsrTx, extract_setBit _ 6 1 4 v (by omega) (by omega), extract_setBit _ 5 1 4 v (by omega) (by omega)]

@[simp] theorem lsrTx_low (l : Byte) (v : Bool) : (lsrTx l v).extractLsb' 0 5 = l.extractLsb' 0 5 := by
  rw [lsrTx, extract_setBit _ 6 0 5 v (by omega) (by omega), extract_setBit _ 5 0 5 v (by omega) (by omega)]

/-! ### IIR -/

@[simp] theorem iirMatched_noInt (i : Byte) (c : BitVec 2) : (iirMatched i c).getLsbD 0 = false := by simp [iirMatched]

@[simp] theorem iirMatched_id (i : Byte) (c : BitVec 2) : (iirMatched i c).extractLsb' 1 2 = c := by
  apply BitVec.eq_of_getLsbD_eq
  intro j hj
  have : j = 0 ∨ j = 1 := by omega
  rcases this with rfl | rfl <;> simp [iirMatched]

@[simp] theorem iirMatched_high (i : Byte) (c : BitVec 2) : (iirMatched i c).extractLsb' 3 5 = i.extractLsb' 3 5 := by
  rw [iirMatched, extract_setBit _ 2 3 5 _ (by omega) (by omega), extract_setBit _ 1 3 5 _ (by omega) (by omega),
    extract_setBit _ 0 3 5 _ (by omega) (by omega)]

@[simp] theorem iirIdle_noInt (i : Byte) : (iirIdle i).getLsbD 0 = true := by simp [iirIdle]

@[simp] theorem iirIdle_id (i : Byte) : (iirIdle i).extractLsb' 1 2 = i.extractLsb' 1 2 :=
  extract_setBit i 0 1 2 true (by omega) (by omega)

@[simp] theorem iirIdle_high (i : Byte) : (iirIdle i).extractLsb' 3 5 = i.extractLsb' 3 5 :=
  extract_setBit i 0 3 5 true (by omega) (by omega)

/-! ### MSR -/

@[simp] theorem msrCleared_deltas (m : Byte) : (msrCleared m).extractLsb' 0 4 = 0#4 := by
  apply BitVec.eq_of_getLsbD_eq
  intro j hj
  have : j = 0 ∨ j = 1 ∨ j = 2 ∨ j = 3 := by omega
  rcases this with rfl | rfl | rfl | rfl <;> simp [msrCleared]

@[simp] theorem msrCleared_levels (m : Byte) : (msrCleared m).extractLsb' 4 4 = m.extractLsb' 4 4 := by
  apply BitVec.eq_of_getLsbD_eq
  intro j hj
  have : j = 0 ∨ j = 1 ∨ j = 2 ∨ j = 3 := by omega
  rcases this with rfl | rfl | rfl | rfl <;> simp [msrCleared]

/-- Every bit of MSR after `MSIN` (R142). -/
theorem getLsbD_msrAfter (m : Byte) (cts dsr ri rlsd : Bool) (j : Nat) :
    (msrAfter m cts dsr ri rlsd).getLsbD j =
      if j = 7 then rlsd else if j = 6 then ri else if j = 5 then dsr else if j = 4 then cts
      else if j = 3 then m.getLsbD 3 || (rlsd != m.getLsbD 7)
      else if j = 2 then m.getLsbD 2 || (m.getLsbD 6 && !ri)
      else if j = 1 then m.getLsbD 1 || (dsr != m.getLsbD 5)
      else if j = 0 then m.getLsbD 0 || (cts != m.getLsbD 4)
      else m.getLsbD j := by
  simp [msrAfter]

/-! ### MCR -/

/-- DTR or RTS changes exactly where the masked difference is not 0 (R126). -/
theorem mcrLinesChanged_iff (old v : Byte) :
    mcrLinesChanged old v = true ↔ v.getLsbD 0 ≠ old.getLsbD 0 ∨ v.getLsbD 1 ≠ old.getLsbD 1 := by
  have hz : (old ^^^ v) &&& 0x03#8 = 0#8 ↔ v.getLsbD 0 = old.getLsbD 0 ∧ v.getLsbD 1 = old.getLsbD 1 := by
    constructor
    · intro h
      have h0 := congrArg (BitVec.getLsbD · 0) h
      have h1 := congrArg (BitVec.getLsbD · 1) h
      simp at h0 h1
      simp [h0, h1]
    · rintro ⟨h0, h1⟩
      apply BitVec.eq_of_getLsbD_eq
      intro j hj
      have : j = 0 ∨ j = 1 ∨ j = 2 ∨ j = 3 ∨ j = 4 ∨ j = 5 ∨ j = 6 ∨ j = 7 := by omega
      simp at h0 h1
      rcases this with rfl | rfl | rfl | rfl | rfl | rfl | rfl | rfl <;> simp [h0, h1]
  rw [mcrLinesChanged, bne_iff_ne, ne_eq, hz]
  tauto

/-! ### The latch -/

@[simp] theorem dlLow_withLow (d : Word16) (v : Byte) : dlLow (dlWithLow d v) = v :=
  BitVec.extractLsb'_append_eq_right

@[simp] theorem dlHigh_withLow (d : Word16) (v : Byte) : dlHigh (dlWithLow d v) = dlHigh d :=
  BitVec.extractLsb'_append_eq_left

@[simp] theorem dlLow_withHigh (d : Word16) (v : Byte) : dlLow (dlWithHigh d v) = dlLow d :=
  BitVec.extractLsb'_append_eq_right

@[simp] theorem dlHigh_withHigh (d : Word16) (v : Byte) : dlHigh (dlWithHigh d v) = v :=
  BitVec.extractLsb'_append_eq_left

end Sys2Proof.Machine
end

