-- ==== Sys2Proof/Laws/Decode.lean ====
section
/-! SUPPORT. The fields of a decode key, and that the decoder reads exactly them. -/

namespace Sys2Proof

/-- The bits of a transaction word: the data below, direction and offset above (R81). -/
theorem word_bit (hi : BitVec 4) (v : Byte) (j : Nat) :
    (hi ++ v : TransWord).getLsbD j = if j < 8 then v.getLsbD j else hi.getLsbD (j - 8) :=
  BitVec.getLsbD_append

/-- The bits of a key: the transaction word below, DLAB above (R81). -/
theorem key_bit (dlab : Bool) (w : TransWord) (j : Nat) :
    (keyOf dlab w).getLsbD j = if j < 12 then w.getLsbD j else (BitVec.ofBool dlab).getLsbD (j - 12) :=
  BitVec.getLsbD_append

theorem keyOf_dlab (dlab : Bool) (w : TransWord) : Key.dlab (keyOf dlab w) = dlab := by
  rw [Key.dlab, key_bit]; cases dlab <;> rfl

theorem keyOf_data (dlab : Bool) (hi : BitVec 4) (v : Byte) : Key.data (keyOf dlab (hi ++ v)) = v := by
  apply BitVec.eq_of_getLsbD_eq
  intro j hj
  have h : j < 12 := by omega
  rw [Key.data, BitVec.getLsbD_extractLsb', key_bit, word_bit]
  simp [hj, h]

theorem keyOf_dirOffBits (dlab : Bool) (hi : BitVec 4) (v : Byte) :
    BitVec.extractLsb' 8 4 (keyOf dlab (hi ++ v)) = hi := by
  apply BitVec.eq_of_getLsbD_eq
  intro j hj
  have h : 8 + j < 12 := by omega
  rw [BitVec.getLsbD_extractLsb', key_bit, word_bit]
  simp [hj, h]

theorem keyOf_dirOff (dlab : Bool) (hi : BitVec 4) (v : Byte) : Key.dirOff (keyOf dlab (hi ++ v)) = hi.toNat := by
  rw [Key.dirOff, keyOf_dirOffBits]

/-- A transaction word as its direction and offset above its data (R81). -/
theorem transWord_read (off : BitVec 3) (v : Byte) : transWord .read off v = ((0#1 ++ off : BitVec 4) ++ v : TransWord) :=
  rfl
theorem transWord_write (off : BitVec 3) (v : Byte) : transWord .write off v = ((1#1 ++ off : BitVec 4) ++ v : TransWord) :=
  rfl

/-- A key is its DLAB bit, its direction and offset, and its data. -/
theorem key_split (k : Key) : k = keyOf (Key.dlab k) ((k.extractLsb' 8 4 : BitVec 4) ++ Key.data k) := by
  apply BitVec.eq_of_getLsbD_eq
  intro j hj
  rw [key_bit, word_bit]
  have : j < 8 ∨ (8 ≤ j ∧ j < 12) ∨ j = 12 := by omega
  rcases this with h | ⟨h1, h2⟩ | rfl
  · have h12 : j < 12 := by omega
    rw [if_pos h12, if_pos h, Key.data, BitVec.getLsbD_extractLsb']
    simp [h]
  · have h8 : ¬ j < 8 := by omega
    have h4 : j - 8 < 4 := by omega
    have hj8 : 8 + (j - 8) = j := by omega
    rw [if_pos h2, if_neg h8, BitVec.getLsbD_extractLsb', hj8]
    simp [h4]
  · rw [Key.dlab]; cases k.getLsbD 12 <;> rfl

/-- What the decoder gives on a key written from its fields. -/
theorem decodeKey_keyOf (dlab : Bool) (hi : BitVec 4) (v : Byte) :
    decodeKey (keyOf dlab (hi ++ v)) = decodeFields dlab hi.toNat v := by
  rw [decodeKey, keyOf_dirOff, keyOf_dlab, keyOf_data]

/-- Every key selects a bus operation (R84). -/
theorem decodeKey_isBus (k : Key) : (decodeKey k).isBus = true := by
  unfold decodeKey decodeFields
  split <;> first | rfl | (split <;> rfl)

/-- No row of the operation map looks at the data field (R84, R85). -/
theorem covers_data {r : KeyRow} (hr : r ∈ keyRows) (dlab : Bool) (hi : BitVec 4) (v : Byte) :
    r.covers (keyOf dlab (hi ++ v)) = r.covers (keyOf dlab (hi ++ 0#8)) := by
  have hm : ∀ r ∈ keyRows, ∀ j : Fin 8, r.mask.getLsbD j = false := by decide
  have h : keyOf dlab (hi ++ v) &&& r.mask = keyOf dlab (hi ++ 0#8) &&& r.mask := by
    apply BitVec.eq_of_getLsbD_eq
    intro j _
    rw [BitVec.getLsbD_and, BitVec.getLsbD_and, key_bit, key_bit, word_bit, word_bit]
    by_cases h : j < 8
    · have := hm r hr ⟨j, h⟩
      simp only at this
      simp [this]
    · simp [h]
  rw [KeyRow.covers, KeyRow.covers, h]

/-- The two bytes of a key are read back as that key (notes/assumptions/9). -/
theorem decode_keyBytes (k : Key) (rest : List Byte) : decode (keyBytes k ++ rest) = .ok (decodeKey k, rest) := by
  have hlt : ((k.extractLsb' 8 5).setWidth 8 : Byte).toNat < 32 := by
    rw [BitVec.toNat_setWidth]
    exact lt_of_le_of_lt (Nat.mod_le _ _) (k.extractLsb' 8 5).isLt
  have hkey : (((k.extractLsb' 8 5).setWidth 8 : Byte) ++ (k.extractLsb' 0 8 : Byte)).setWidth 13 = k := by
    apply BitVec.eq_of_getLsbD_eq
    intro j hj
    rw [BitVec.getLsbD_setWidth, BitVec.getLsbD_append]
    by_cases h : j < 8
    · simp [hj, h]
    · have h5 : 8 + (j - 8) = j := by omega
      have h8 : j - 8 < 8 := by omega
      have h55 : j - 8 < 5 := by omega
      simp [hj, h, h5, h8, h55]
  simp only [keyBytes, List.cons_append, List.nil_append, decode, hlt, if_true, hkey]

end Sys2Proof
end

