-- ==== Sys2Proof/Laws/Ops.lean ====
section
/-! SUPPORT. For each shared operation what it does to each block and to what surrounds the blocks. -/

namespace Sys2Proof.Machine

/-! ### The arbiter -/

/-- The arbiter writes IIR and the request level and nothing else (R222, R230). -/
theorem Port.arbitrated_frame (p : Port) : p.arbitrated = { p with iir := p.arbitrated.iir, intr := p.arbitrated.intr } := by
  unfold Port.arbitrated; split <;> rfl

@[simp] theorem Port.arbitrated_cfg (p : Port) : p.arbitrated.cfg = p.cfg := by rw [p.arbitrated_frame]
@[simp] theorem Port.arbitrated_stage (p : Port) : p.arbitrated.stage = p.stage := by rw [p.arbitrated_frame]
@[simp] theorem Port.arbitrated_rbr (p : Port) : p.arbitrated.rbr = p.rbr := by rw [p.arbitrated_frame]
@[simp] theorem Port.arbitrated_thr (p : Port) : p.arbitrated.thr = p.thr := by rw [p.arbitrated_frame]
@[simp] theorem Port.arbitrated_dl (p : Port) : p.arbitrated.dl = p.dl := by rw [p.arbitrated_frame]
@[simp] theorem Port.arbitrated_ier (p : Port) : p.arbitrated.ier = p.ier := by rw [p.arbitrated_frame]
@[simp] theorem Port.arbitrated_lcr (p : Port) : p.arbitrated.lcr = p.lcr := by rw [p.arbitrated_frame]
@[simp] theorem Port.arbitrated_mcr (p : Port) : p.arbitrated.mcr = p.mcr := by rw [p.arbitrated_frame]
@[simp] theorem Port.arbitrated_lsr (p : Port) : p.arbitrated.lsr = p.lsr := by rw [p.arbitrated_frame]
@[simp] theorem Port.arbitrated_msr (p : Port) : p.arbitrated.msr = p.msr := by rw [p.arbitrated_frame]
@[simp] theorem Port.arbitrated_scr (p : Port) : p.arbitrated.scr = p.scr := by rw [p.arbitrated_frame]
@[simp] theorem Port.arbitrated_rxq (p : Port) : p.arbitrated.rxq = p.rxq := by rw [p.arbitrated_frame]
@[simp] theorem Port.arbitrated_peer (p : Port) : p.arbitrated.peer = p.peer := by rw [p.arbitrated_frame]
@[simp] theorem Port.arbitrated_sendData (p : Port) : p.arbitrated.sendData = p.sendData := by rw [p.arbitrated_frame]
@[simp] theorem Port.arbitrated_updateStatus (p : Port) : p.arbitrated.updateStatus = p.updateStatus := by
  rw [p.arbitrated_frame]
@[simp] theorem Port.arbitrated_nullModem (p : Port) : p.arbitrated.nullModem = p.nullModem := by rw [p.arbitrated_frame]
@[simp] theorem Port.arbitrated_logbuf (p : Port) : p.arbitrated.logbuf = p.logbuf := by rw [p.arbitrated_frame]
@[simp] theorem Port.arbitrated_column (p : Port) : p.arbitrated.column = p.column := by rw [p.arbitrated_frame]
@[simp] theorem Port.arbitrated_surface (p : Port) : p.arbitrated.surface = p.surface := by rw [p.arbitrated_frame]

/-- The arbiter's outcome in terms of the registers (R220, R221, R222). -/
theorem Port.arbitrated_arbiterRan (p : Port) : Port.ArbiterRan p.iir p.arbitrated := by
  unfold Port.ArbiterRan
  simp only [Port.arbitrated_lsr, Port.arbitrated_ier, Port.arbitrated_msr, Port.arbitrated_cfg]
  have hr : p.condRda = true ↔ p.lsr.getLsbD 0 = true ∧ p.ier.getLsbD 0 = true := by
    simp [Port.condRda, Port.dr, Port.erbfi]
  have hm : p.condMsi = true ↔ p.msr.extractLsb' 0 4 ≠ 0#4 ∧ p.ier.getLsbD 3 = true := by
    simp only [Port.condMsi, Port.deltas, Port.edssi, Bool.and_eq_true, bne_iff_ne]
  rw [← hr, ← hm]
  unfold Port.arbitrated Port.arbiterCode
  by_cases h1 : p.condRda = true <;> by_cases h2 : p.condMsi = true <;> simp [h1, h2, -BitVec.getLsbD_eq_getElem]

/-- The call the arbiter makes restates the level (R227). -/
theorem Port.irqCall_level (p : Port) (ep : Ep) : Port.LevelCall ep p (p.irqCall ep) := by
  constructor <;> intro h <;> simp [Port.irqCall, h]

theorem State.port_arbitrate (s : State) (ep q : Ep) :
    (s.arbitrate ep).port q = if q = ep then (s.port q).arbitrated else s.port q := by simp [State.arbitrate]
theorem State.events_arbitrate (s : State) (ep : Ep) :
    (s.arbitrate ep).events = s.events ++ [(s.port ep).arbitrated.irqCall ep] := by simp [State.arbitrate]
@[simp] theorem State.directory_arbitrate (s : State) (ep : Ep) : (s.arbitrate ep).directory = s.directory := by
  simp [State.arbitrate]
@[simp] theorem State.active_arbitrate (s : State) (ep : Ep) : (s.arbitrate ep).active = s.active := by
  simp [State.arbitrate]
@[simp] theorem State.pending_arbitrate (s : State) (ep : Ep) : (s.arbitrate ep).pending = s.pending := by
  simp [State.arbitrate]
@[simp] theorem State.draws_arbitrate (s : State) (ep : Ep) : (s.arbitrate ep).draws = s.draws := by
  simp [State.arbitrate]

theorem State.port_rearbitrate (s : State) (ep q : Ep) :
    (s.rearbitrate ep).port q =
      if q = ep ∧ (s.port ep).cfg.arbitrateOnAllInputs = true then (s.port q).arbitrated else s.port q := by
  unfold State.rearbitrate
  by_cases h : (s.port ep).cfg.arbitrateOnAllInputs <;> simp [h, State.port_arbitrate]
@[simp] theorem State.directory_rearbitrate (s : State) (ep : Ep) : (s.rearbitrate ep).directory = s.directory := by
  unfold State.rearbitrate; split <;> simp
@[simp] theorem State.active_rearbitrate (s : State) (ep : Ep) : (s.rearbitrate ep).active = s.active := by
  unfold State.rearbitrate; split <;> simp
@[simp] theorem State.pending_rearbitrate (s : State) (ep : Ep) : (s.rearbitrate ep).pending = s.pending := by
  unfold State.rearbitrate; split <;> simp
@[simp] theorem State.draws_rearbitrate (s : State) (ep : Ep) : (s.rearbitrate ep).draws = s.draws := by
  unfold State.rearbitrate; split <;> simp

/-! ### Staging and the line -/

/-- Staging moves at most the head of the queue, and writes RBR, the queue and DR only (R141). -/
theorem Port.staged_frame (p : Port) :
    p.staged = { p with rbr := p.staged.rbr, rxq := p.staged.rxq, lsr := p.staged.lsr } := by
  unfold Port.staged
  split
  · rfl
  · split <;> rfl

@[simp] theorem Port.staged_nil {p : Port} (h : p.rxq = []) : p.staged = p := by simp [Port.staged, h]
@[simp] theorem Port.staged_ready {p : Port} (h : p.dr = true) : p.staged = p := by
  unfold Port.staged; split <;> simp [h]
theorem Port.staged_cons {p : Port} {b : Byte} {rest : List Byte} (h : p.rxq = b :: rest) (hd : p.dr = false) :
    p.staged = { p with rbr := b, rxq := rest, lsr := lsrDr p.lsr true } := by simp [Port.staged, h, hd]

@[simp] theorem Port.staged_iir (p : Port) : p.staged.iir = p.iir := by rw [p.staged_frame]
@[simp] theorem Port.staged_cfg (p : Port) : p.staged.cfg = p.cfg := by rw [p.staged_frame]
@[simp] theorem Port.staged_stage (p : Port) : p.staged.stage = p.stage := by rw [p.staged_frame]
@[simp] theorem Port.staged_thr (p : Port) : p.staged.thr = p.thr := by rw [p.staged_frame]
@[simp] theorem Port.staged_dl (p : Port) : p.staged.dl = p.dl := by rw [p.staged_frame]
@[simp] theorem Port.staged_ier (p : Port) : p.staged.ier = p.ier := by rw [p.staged_frame]
@[simp] theorem Port.staged_lcr (p : Port) : p.staged.lcr = p.lcr := by rw [p.staged_frame]
@[simp] theorem Port.staged_mcr (p : Port) : p.staged.mcr = p.mcr := by rw [p.staged_frame]
@[simp] theorem Port.staged_msr (p : Port) : p.staged.msr = p.msr := by rw [p.staged_frame]
@[simp] theorem Port.staged_scr (p : Port) : p.staged.scr = p.scr := by rw [p.staged_frame]
@[simp] theorem Port.staged_intr (p : Port) : p.staged.intr = p.intr := by rw [p.staged_frame]
@[simp] theorem Port.staged_peer (p : Port) : p.staged.peer = p.peer := by rw [p.staged_frame]
@[simp] theorem Port.staged_sendData (p : Port) : p.staged.sendData = p.sendData := by rw [p.staged_frame]
@[simp] theorem Port.staged_updateStatus (p : Port) : p.staged.updateStatus = p.updateStatus := by rw [p.staged_frame]
@[simp] theorem Port.staged_nullModem (p : Port) : p.staged.nullModem = p.nullModem := by rw [p.staged_frame]
@[simp] theorem Port.staged_logbuf (p : Port) : p.staged.logbuf = p.logbuf := by rw [p.staged_frame]
@[simp] theorem Port.staged_column (p : Port) : p.staged.column = p.column := by rw [p.staged_frame]
@[simp] theorem Port.staged_surface (p : Port) : p.staged.surface = p.surface := by rw [p.staged_frame]

/-- What a push leaves staged and queued (R140, R141). -/
theorem Port.staged_pushed (p : Port) (data : List Byte) :
    p.Pushed data { p with rxq := p.rxq ++ data }.staged.arbitrated := by
  refine ⟨fun h => ?_, fun h hn => ?_, fun h hn => ?_⟩
  · rw [Port.staged_ready (p := { p with rxq := p.rxq ++ data }) h]; simp
  · rw [hn, Port.staged_nil (p := { p with rxq := [] }) rfl]; simp
  · obtain ⟨b, rest, hx⟩ := List.exists_cons_of_ne_nil hn
    rw [hx, Port.staged_cons (p := { p with rxq := b :: rest }) rfl h]; simp [Port.dr]

theorem State.port_stage (s : State) (ep q : Ep) :
    (s.stage ep).port q = if q = ep then (s.port q).staged.arbitrated else s.port q := by
  by_cases h : q = ep <;> simp [State.stage, State.port_arbitrate, h]
theorem State.events_stage (s : State) (ep : Ep) :
    (s.stage ep).events = s.events ++ [(s.port ep).staged.arbitrated.irqCall ep] := by
  simp [State.stage, State.events_arbitrate]
@[simp] theorem State.directory_stage (s : State) (ep : Ep) : (s.stage ep).directory = s.directory := by
  simp [State.stage]
@[simp] theorem State.active_stage (s : State) (ep : Ep) : (s.stage ep).active = s.active := by simp [State.stage]
@[simp] theorem State.pending_stage (s : State) (ep : Ep) : (s.stage ep).pending = s.pending := by simp [State.stage]
@[simp] theorem State.draws_stage (s : State) (ep : Ep) : (s.stage ep).draws = s.draws := by simp [State.stage]

theorem State.port_takeByte (s : State) (ep q : Ep) :
    (s.takeByte ep).port q =
      if q = ep then { s.port q with lsr := lsrDr (s.port q).lsr false }.staged.arbitrated else s.port q := by
  by_cases h : q = ep <;> simp [State.takeByte, State.port_stage, h]
theorem State.events_takeByte (s : State) (ep : Ep) :
    (s.takeByte ep).events =
      s.events ++ [{ s.port ep with lsr := lsrDr (s.port ep).lsr false }.staged.arbitrated.irqCall ep] := by
  simp [State.takeByte, State.events_stage]
@[simp] theorem State.directory_takeByte (s : State) (ep : Ep) : (s.takeByte ep).directory = s.directory := by
  simp [State.takeByte]
@[simp] theorem State.active_takeByte (s : State) (ep : Ep) : (s.takeByte ep).active = s.active := by
  simp [State.takeByte]
@[simp] theorem State.pending_takeByte (s : State) (ep : Ep) : (s.takeByte ep).pending = s.pending := by
  simp [State.takeByte]
@[simp] theorem State.draws_takeByte (s : State) (ep : Ep) : (s.takeByte ep).draws = s.draws := by
  simp [State.takeByte]

theorem State.port_rxPush (s : State) (ep q : Ep) (data : List Byte) :
    (s.rxPush ep data).port q =
      if q = ep then { s.port q with rxq := (s.port q).rxq ++ data }.staged.arbitrated else s.port q := by
  by_cases h : q = ep <;> simp [State.rxPush, State.port_stage, h]
theorem State.events_rxPush (s : State) (ep : Ep) (data : List Byte) :
    (s.rxPush ep data).events =
      s.events ++ [{ s.port ep with rxq := (s.port ep).rxq ++ data }.staged.arbitrated.irqCall ep] := by
  simp [State.rxPush, State.events_stage]
@[simp] theorem State.directory_rxPush (s : State) (ep : Ep) (d : List Byte) : (s.rxPush ep d).directory = s.directory := by
  simp [State.rxPush]
@[simp] theorem State.active_rxPush (s : State) (ep : Ep) (d : List Byte) : (s.rxPush ep d).active = s.active := by
  simp [State.rxPush]
@[simp] theorem State.pending_rxPush (s : State) (ep : Ep) (d : List Byte) : (s.rxPush ep d).pending = s.pending := by
  simp [State.rxPush]
@[simp] theorem State.draws_rxPush (s : State) (ep : Ep) (d : List Byte) : (s.rxPush ep d).draws = s.draws := by
  simp [State.rxPush]

/-- What `MSIN` leaves of the modem inputs (R142). -/
theorem Port.inputsSet (p : Port) (c d r l : Bool) : p.InputsSet c d r l { p with msr := msrAfter p.msr c d r l }.arbitrated := by
  unfold Port.InputsSet
  simp only [Port.arbitrated_msr, getLsbD_msrAfter]
  simp [-BitVec.getLsbD_eq_getElem]

theorem State.port_msIn (s : State) (ep q : Ep) (c d r l : Bool) :
    (s.msIn ep c d r l).port q =
      if q = ep then { s.port q with msr := msrAfter (s.port q).msr c d r l }.arbitrated else s.port q := by
  by_cases h : q = ep <;> simp [State.msIn, State.port_arbitrate, h]
theorem State.events_msIn (s : State) (ep : Ep) (c d r l : Bool) :
    (s.msIn ep c d r l).events =
      s.events ++ [{ s.port ep with msr := msrAfter (s.port ep).msr c d r l }.arbitrated.irqCall ep] := by
  simp [State.msIn, State.events_arbitrate]
@[simp] theorem State.directory_msIn (s : State) (ep : Ep) (c d r l : Bool) :
    (s.msIn ep c d r l).directory = s.directory := by simp [State.msIn]
@[simp] theorem State.active_msIn (s : State) (ep : Ep) (c d r l : Bool) : (s.msIn ep c d r l).active = s.active := by
  simp [State.msIn]
@[simp] theorem State.pending_msIn (s : State) (ep : Ep) (c d r l : Bool) : (s.msIn ep c d r l).pending = s.pending := by
  simp [State.msIn]
@[simp] theorem State.draws_msIn (s : State) (ep : Ep) (c d r l : Bool) : (s.msIn ep c d r l).draws = s.draws := by
  simp [State.msIn]

/-! ### The transmit sinks -/

/-- The local sinks write the block's sink state only (R163, R165, R167). -/
theorem Port.echoed_frame (p : Port) (b : Byte) :
    p.echoed b = { p with column := (p.echoed b).column, surface := (p.echoed b).surface } := by
  unfold Port.echoed
  split
  · rfl
  · split
    · rfl
    · split
      · dsimp only; split <;> rfl
      · rfl

/-- What the local sink of the block in slot `ep` does to each block and answers (R163, R166, R167). -/
theorem State.localSink_cases (s : State) (ep : Ep) (b : Byte) :
    (sinkKind (s.port ep).cfg.bindingName = .silent ∧ s.localSink ep b = (s, false)) ∨
    (sinkKind (s.port ep).cfg.bindingName = .log ∧
      s.localSink ep b = ((if (s.port ep).logFlushes b then s.emit (.logLine ep (s.port ep).logbuf) else s).modify ep
        (·.logged b), true)) ∨
    (sinkKind (s.port ep).cfg.bindingName = .echo ∧ s.localSink ep b = (s.modify ep (·.echoed b), true)) := by
  unfold State.localSink
  cases h : sinkKind (s.port ep).cfg.bindingName <;> simp [h]

@[simp] theorem State.directory_localSink (s : State) (ep : Ep) (b : Byte) :
    (s.localSink ep b).1.directory = s.directory := by
  rcases s.localSink_cases ep b with ⟨-, h⟩ | ⟨-, h⟩ | ⟨-, h⟩ <;> rw [h] <;> simp
  split <;> simp
@[simp] theorem State.active_localSink (s : State) (ep : Ep) (b : Byte) : (s.localSink ep b).1.active = s.active := by
  rcases s.localSink_cases ep b with ⟨-, h⟩ | ⟨-, h⟩ | ⟨-, h⟩ <;> rw [h] <;> simp
  split <;> simp
@[simp] theorem State.pending_localSink (s : State) (ep : Ep) (b : Byte) :
    (s.localSink ep b).1.pending = s.pending := by
  rcases s.localSink_cases ep b with ⟨-, h⟩ | ⟨-, h⟩ | ⟨-, h⟩ <;> rw [h] <;> simp
  split <;> simp
@[simp] theorem State.draws_localSink (s : State) (ep : Ep) (b : Byte) : (s.localSink ep b).1.draws = s.draws := by
  rcases s.localSink_cases ep b with ⟨-, h⟩ | ⟨-, h⟩ | ⟨-, h⟩ <;> rw [h] <;> simp
  split <;> simp

/-- The block after its local sink has taken a byte. -/
def Port.sunk (p : Port) (b : Byte) : Port :=
  match sinkKind p.cfg.bindingName with
  | .silent => p
  | .log => p.logged b
  | .echo => p.echoed b

theorem State.port_localSink (s : State) (ep q : Ep) (b : Byte) :
    (s.localSink ep b).1.port q = if q = ep then (s.port q).sunk b else s.port q := by
  have hflush : ∀ c : Bool, ∀ e : Event, (if c then s.emit e else s).port q = s.port q := by
    intro c e; cases c <;> simp
  rcases s.localSink_cases ep b with ⟨h, e⟩ | ⟨h, e⟩ | ⟨h, e⟩ <;> rw [e]
  · by_cases hq : q = ep
    · subst hq; simp [Port.sunk, h]
    · simp [hq]
  · by_cases hq : q = ep
    · subst hq; simp only [State.port_modify, hflush, ↓reduceIte, Port.sunk, h]
    · simp only [State.port_modify, hflush, hq, ↓reduceIte]
  · by_cases hq : q = ep
    · subst hq; simp [Port.sunk, h]
    · simp [hq]

/-- A local sink answers true unless it is the silent one (R163, R166, R167). -/
theorem State.localSink_answer (s : State) (ep : Ep) (b : Byte) :
    (s.localSink ep b).2 = (sinkKind (s.port ep).cfg.bindingName != .silent) := by
  rcases s.localSink_cases ep b with ⟨h, e⟩ | ⟨h, e⟩ | ⟨h, e⟩ <;> rw [e, h] <;> rfl

theorem Port.sunk_frame (p : Port) (b : Byte) :
    p.sunk b = { p with logbuf := (p.sunk b).logbuf, column := (p.sunk b).column, surface := (p.sunk b).surface } := by
  unfold Port.sunk
  cases h : sinkKind p.cfg.bindingName
  · rfl
  · rfl
  · dsimp only
    have e := p.echoed_frame b
    generalize p.echoed b = q at e ⊢
    rw [e]

@[simp] theorem Port.sunk_cfg (p : Port) (b : Byte) : (p.sunk b).cfg = p.cfg := by rw [p.sunk_frame]
@[simp] theorem Port.sunk_stage (p : Port) (b : Byte) : (p.sunk b).stage = p.stage := by rw [p.sunk_frame]
@[simp] theorem Port.sunk_rbr (p : Port) (b : Byte) : (p.sunk b).rbr = p.rbr := by rw [p.sunk_frame]
@[simp] theorem Port.sunk_thr (p : Port) (b : Byte) : (p.sunk b).thr = p.thr := by rw [p.sunk_frame]
@[simp] theorem Port.sunk_dl (p : Port) (b : Byte) : (p.sunk b).dl = p.dl := by rw [p.sunk_frame]
@[simp] theorem Port.sunk_ier (p : Port) (b : Byte) : (p.sunk b).ier = p.ier := by rw [p.sunk_frame]
@[simp] theorem Port.sunk_iir (p : Port) (b : Byte) : (p.sunk b).iir = p.iir := by rw [p.sunk_frame]
@[simp] theorem Port.sunk_lcr (p : Port) (b : Byte) : (p.sunk b).lcr = p.lcr := by rw [p.sunk_frame]
@[simp] theorem Port.sunk_mcr (p : Port) (b : Byte) : (p.sunk b).mcr = p.mcr := by rw [p.sunk_frame]
@[simp] theorem Port.sunk_lsr (p : Port) (b : Byte) : (p.sunk b).lsr = p.lsr := by rw [p.sunk_frame]
@[simp] theorem Port.sunk_msr (p : Port) (b : Byte) : (p.sunk b).msr = p.msr := by rw [p.sunk_frame]
@[simp] theorem Port.sunk_scr (p : Port) (b : Byte) : (p.sunk b).scr = p.scr := by rw [p.sunk_frame]
@[simp] theorem Port.sunk_rxq (p : Port) (b : Byte) : (p.sunk b).rxq = p.rxq := by rw [p.sunk_frame]
@[simp] theorem Port.sunk_intr (p : Port) (b : Byte) : (p.sunk b).intr = p.intr := by rw [p.sunk_frame]
@[simp] theorem Port.sunk_peer (p : Port) (b : Byte) : (p.sunk b).peer = p.peer := by rw [p.sunk_frame]
@[simp] theorem Port.sunk_sendData (p : Port) (b : Byte) : (p.sunk b).sendData = p.sendData := by rw [p.sunk_frame]
@[simp] theorem Port.sunk_updateStatus (p : Port) (b : Byte) : (p.sunk b).updateStatus = p.updateStatus := by rw [p.sunk_frame]
@[simp] theorem Port.sunk_nullModem (p : Port) (b : Byte) : (p.sunk b).nullModem = p.nullModem := by rw [p.sunk_frame]

/-- The peer's part of `Deliver`, case by case (R161, R164). -/
theorem State.peerDeliver_cases (s : State) (ep : Ep) (b : Byte) :
    (∃ q, (s.port ep).peer.isSome ∧ (s.port ep).sendData = some (.port q) ∧ (s.port q).live = true ∧ q ≠ ep ∧
      s.peerDeliver ep b = ((s.emit (.receiveData ep (.port q) b)).rxPush q [b], true)) ∨
    (∃ name, (s.port ep).peer.isSome ∧ (s.port ep).sendData = some (.ext name) ∧
      s.peerDeliver ep b =
        ({ s.emit (.receiveData ep (.ext name) b) with draws := s.draws + 1 }, Config.deviceAnswer s.draws)) ∨
    s.peerDeliver ep b = (s, false) := by
  unfold State.peerDeliver
  split
  · rename_i r q hr hq
    by_cases hl : (s.port q).live = true ∧ q ≠ ep
    · left; exact ⟨q, by simp [hr], hq, hl.1, hl.2, by simp [hl.1, hl.2]⟩
    · right; right
      have : ((s.port q).live && q != ep) = false := by simpa using hl
      simp [this]
  · rename_i r name hr hn
    right; left; exact ⟨name, by simp [hr], hn, rfl⟩
  · right; right; rfl

@[simp] theorem State.directory_peerDeliver (s : State) (ep : Ep) (b : Byte) :
    (s.peerDeliver ep b).1.directory = s.directory := by
  rcases s.peerDeliver_cases ep b with ⟨q, -, -, -, -, h⟩ | ⟨n, -, -, h⟩ | h <;> rw [h] <;> simp
@[simp] theorem State.active_peerDeliver (s : State) (ep : Ep) (b : Byte) :
    (s.peerDeliver ep b).1.active = s.active := by
  rcases s.peerDeliver_cases ep b with ⟨q, -, -, -, -, h⟩ | ⟨n, -, -, h⟩ | h <;> rw [h] <;> simp
@[simp] theorem State.pending_peerDeliver (s : State) (ep : Ep) (b : Byte) :
    (s.peerDeliver ep b).1.pending = s.pending := by
  rcases s.peerDeliver_cases ep b with ⟨q, -, -, -, -, h⟩ | ⟨n, -, -, h⟩ | h <;> rw [h] <;> simp

/-- The local sink adds to the history the lines it logs (R165, R166). -/
theorem State.events_localSink (s : State) (ep : Ep) (b : Byte) :
    (s.localSink ep b).1.events = s.events ++ (s.port ep).sinkLines ep b := by
  have hk : sinkKind (s.port ep).cfg.bindingName = .log ↔
      (s.port ep).cfg.bindingName = some ['c', 'o', 'n', 's', 'o', 'l', 'e'] := by
    cases (s.port ep).cfg.bindingName with
    | none => simp [sinkKind]
    | some name => by_cases h : name = ['c', 'o', 'n', 's', 'o', 'l', 'e'] <;> simp [sinkKind, h]
  rcases s.localSink_cases ep b with ⟨h, e⟩ | ⟨h, e⟩ | ⟨h, e⟩ <;> rw [h] at hk <;> rw [e, Port.sinkLines]
  · simp [← hk]
  · by_cases hf : b = 0x0A#8 ∨ 1024 ≤ (s.port ep).logbuf.length
    · have : (s.port ep).logFlushes b = true := by
        rcases hf with h | h <;> simp [Port.logFlushes, logLineMax, h]
      simp [← hk, this, hf]
    · have : (s.port ep).logFlushes b = false := by
        have h1 : b ≠ 0x0A#8 := fun h => hf (.inl h)
        have h2 : ¬ 1024 ≤ (s.port ep).logbuf.length := fun h => hf (.inr h)
        simp [Port.logFlushes, logLineMax, h1, h2]
      simp [← hk, this, hf]
  · simp [← hk]

/-- What the local sink leaves of the sink state (R163, R166 to R171). -/
theorem Port.sunk_took (p : Port) (b : Byte) : p.SinkTook b (p.sunk b) := by
  refine ⟨fun h => ?_, fun h => ?_, fun name h hn => ?_⟩
  · simp [Port.sunk, sinkKind, h]
  · have e : p.sunk b = p.logged b := by simp [Port.sunk, sinkKind, h]
    rw [e]
    refine ⟨rfl, rfl, fun hb => ?_, fun hb hl => ?_, fun hb hl => ?_⟩
    · simp [Port.logged, hb, Port.logFlushes]
    · simp [Port.logged, hb, Port.logFlushes, logLineMax, hl]
    · have : ¬ 1024 ≤ p.logbuf.length := by omega
      simp [Port.logged, hb, Port.logFlushes, logLineMax, this]
  · have e : p.sunk b = p.echoed b := by simp [Port.sunk, sinkKind, h, hn]
    have hfill : p.filled.surface = p.surface ++ (if p.column = 0 then p.cfg.bolChar.toList else []) := by
      unfold Port.filled
      cases p.cfg.bolChar <;> by_cases hc : p.column = 0 <;> simp [hc]
    rw [e]
    refine ⟨by rw [Port.echoed_frame], fun hb => ?_, fun hb => ?_, fun hb hw => ?_, fun hb w hw0 hw => ?_, fun h1 h2 h3 => ?_⟩
    · simp [Port.echoed, hb]
    · simp [Port.echoed, hb]
    · simp [Port.echoed, hb, hw]
    · simp [Port.echoed, hb, hw, hw0, hfill]
    · simp [Port.echoed, h1, h2, h3, hfill]

/-- The block in slot `ep` keeps, while its peer is delivered to, its configuration and its sink state. -/
theorem State.peerDeliver_keeps (s : State) (ep q : Ep) (b : Byte) :
    ((s.peerDeliver ep b).1.port q).cfg = (s.port q).cfg ∧ ((s.peerDeliver ep b).1.port q).logbuf = (s.port q).logbuf ∧
    ((s.peerDeliver ep b).1.port q).column = (s.port q).column ∧
    ((s.peerDeliver ep b).1.port q).surface = (s.port q).surface := by
  rcases s.peerDeliver_cases ep b with ⟨r, -, -, -, -, h⟩ | ⟨n, -, -, h⟩ | h <;> rw [h]
  · rw [State.port_rxPush, State.port_emit]; split <;> simp
  · rw [State.port_draws, State.port_emit]; exact ⟨rfl, rfl, rfl, rfl⟩
  · exact ⟨rfl, rfl, rfl, rfl⟩

/-- The peer's part of `Deliver` does not touch the sender: a block never calls its own `RXPUSH` (R146). -/
theorem State.port_peerDeliver_self (s : State) (ep : Ep) (b : Byte) :
    (s.peerDeliver ep b).1.port ep = s.port ep := by
  rcases s.peerDeliver_cases ep b with ⟨r, -, -, -, hr, h⟩ | ⟨n, -, -, h⟩ | h <;> rw [h]
  · rw [State.port_rxPush, if_neg (Ne.symm hr), State.port_emit]
  · rw [State.port_draws, State.port_emit]

/-- `WR.THR` in its parts (R120, R161): the byte stored and the transmitter busy, the peer's part `d`, the local sink's part,
the transmitter idle where one of the two accepted. -/
theorem State.port_transmit {s : State} {ep : Ep} {v : Byte} {d : State × Bool}
    (hd : (s.modify ep fun p => { p with thr := v, lsr := lsrTx p.lsr false }).peerDeliver ep v = d) (q : Ep) :
    (s.transmit ep v).port q =
      if q = ep then
        if d.2 || (s.port ep).cfg.bindingName.isSome then
          { (d.1.port q).sunk v with lsr := lsrTx (d.1.port q).lsr true }
        else (d.1.port q).sunk v
      else d.1.port q := by
  have hans : (d.1.localSink ep v).2 = (s.port ep).cfg.bindingName.isSome := by
    rw [State.localSink_answer, ← hd, (State.peerDeliver_keeps _ ep ep v).1, State.port_modify, if_pos rfl]
    dsimp only
    cases (s.port ep).cfg.bindingName with
    | none => rfl
    | some name => by_cases h : name = ['c', 'o', 'n', 's', 'o', 'l', 'e'] <;> simp [sinkKind, h]
  unfold State.transmit State.deliver
  dsimp only
  rw [hd, hans]
  by_cases hq : q = ep
  · subst hq
    by_cases h : (d.2 || (s.port q).cfg.bindingName.isSome) = true
    · rw [if_pos h, if_pos rfl, if_pos h, State.port_modify, if_pos rfl, State.port_localSink, if_pos rfl, Port.sunk_lsr]
    · rw [if_neg h, if_pos rfl, if_neg h, State.port_localSink, if_pos rfl]
  · rw [if_neg hq]
    split <;> simp [State.port_localSink, hq]

/-- The history after `WR.THR`: the peer's part, then the lines the local sink logs (R161). -/
theorem State.events_transmit {s : State} {ep : Ep} {v : Byte} {d : State × Bool}
    (hd : (s.modify ep fun p => { p with thr := v, lsr := lsrTx p.lsr false }).peerDeliver ep v = d) :
    (s.transmit ep v).events = d.1.events ++ (s.port ep).sinkLines ep v := by
  have hl : (d.1.port ep).sinkLines ep v = (s.port ep).sinkLines ep v := by
    have hk := (s.modify ep fun p => { p with thr := v, lsr := lsrTx p.lsr false }).peerDeliver_keeps ep ep v
    rw [hd] at hk
    rw [Port.sinkLines, Port.sinkLines, hk.1, hk.2.1, State.port_modify, if_pos rfl]
  unfold State.transmit State.deliver
  dsimp only
  rw [hd]
  split <;> simp only [State.events_modify, State.events_localSink, hl]

@[simp] theorem State.directory_transmit (s : State) (ep : Ep) (v : Byte) :
    (s.transmit ep v).directory = s.directory := by
  unfold State.transmit State.deliver; dsimp only; split <;> simp
@[simp] theorem State.active_transmit (s : State) (ep : Ep) (v : Byte) : (s.transmit ep v).active = s.active := by
  unfold State.transmit State.deliver; dsimp only; split <;> simp
@[simp] theorem State.pending_transmit (s : State) (ep : Ep) (v : Byte) : (s.transmit ep v).pending = s.pending := by
  unfold State.transmit State.deliver; dsimp only; split <;> simp

/-- A relation between blocks that the parts of `WR.THR` respect, and that composes, holds between each block before and
after `WR.THR`: the blocks change by these parts and in no other way. -/
theorem State.transmit_relates (R : Port → Port → Prop) (v : Byte) (hrefl : ∀ p, R p p)
    (htrans : ∀ p q r, R p q → R q r → R p r)
    (hthr : ∀ p, R p { p with thr := v, lsr := lsrTx p.lsr false })
    (hacc : ∀ p, R p { p with lsr := lsrTx p.lsr true })
    (hpush : ∀ p d, R p { p with rxq := p.rxq ++ d }.staged.arbitrated)
    (hsink : ∀ p l c t, R p { p with logbuf := l, column := c, surface := t })
    (s : State) (ep q : Ep) : R (s.port q) ((s.transmit ep v).port q) := by
  have h1 : R (s.port q) ((s.modify ep fun p => { p with thr := v, lsr := lsrTx p.lsr false }).port q) := by
    rw [State.port_modify]; split
    · exact hthr _
    · exact hrefl _
  have h2 : ∀ u : State, R (u.port q) ((u.peerDeliver ep v).1.port q) := by
    intro u
    rcases u.peerDeliver_cases ep v with ⟨r, -, -, -, -, h⟩ | ⟨n, -, -, h⟩ | h <;> rw [h]
    · simp only [State.port_rxPush, State.port_emit]
      split
      · exact hpush _ _
      · exact hrefl _
    · simp only [State.port_draws, State.port_emit]; exact hrefl _
    · exact hrefl _
  have h3 : ∀ u : State, R (u.port q) ((u.localSink ep v).1.port q) := by
    intro u
    rw [State.port_localSink]; split
    · rw [Port.sunk_frame]; exact hsink _ _ _ _
    · exact hrefl _
  unfold State.transmit State.deliver
  dsimp only
  split
  · rw [State.port_modify]; split
    · exact htrans _ _ _ (htrans _ _ _ (htrans _ _ _ h1 (h2 _)) (h3 _)) (hacc _)
    · exact htrans _ _ _ (htrans _ _ _ h1 (h2 _)) (h3 _)
  · exact htrans _ _ _ (htrans _ _ _ h1 (h2 _)) (h3 _)

/-! ### The control lines -/

/-- `UpdateStatus`, case by case (R186, R189). -/
theorem State.sendStatus_cases (s : State) (ep : Ep) (l : Lines) :
    (∃ q, (s.port ep).peer.isSome ∧ (s.port ep).updateStatus = some (.port q) ∧ (s.port q).live = true ∧ q ≠ ep ∧
      s.sendStatus ep l = (s.emit (.receiveStatus ep (.port q) l)).msIn q l.cts l.dsr l.ri l.cd) ∨
    (∃ name, (s.port ep).peer.isSome ∧ (s.port ep).updateStatus = some (.ext name) ∧
      s.sendStatus ep l = s.emit (.receiveStatus ep (.ext name) l)) ∨
    s.sendStatus ep l = s := by
  unfold State.sendStatus
  split
  · rename_i r q hr hq
    by_cases hl : (s.port q).live = true ∧ q ≠ ep
    · left; exact ⟨q, by simp [hr], hq, hl.1, hl.2, by simp [hl.1, hl.2]⟩
    · right; right
      have : ((s.port q).live && q != ep) = false := by simpa using hl
      simp [this]
  · rename_i r name hr hn
    right; left; exact ⟨name, by simp [hr], hn, rfl⟩
  · right; right; rfl

/-- A status does not touch the block that sends it: the peer is another endpoint (R40). -/
theorem State.port_sendStatus_self (s : State) (ep : Ep) (l : Lines) : (s.sendStatus ep l).port ep = s.port ep := by
  rcases s.sendStatus_cases ep l with ⟨r, -, -, -, hr, h⟩ | ⟨n, -, -, h⟩ | h <;> rw [h]
  · rw [State.port_msIn, if_neg (Ne.symm hr), State.port_emit]
  · rw [State.port_emit]

/-- Of the block that writes it `WR.MCR` changes MCR only (R126). -/
theorem State.port_writeMcr_self (s : State) (ep : Ep) (v : Byte) :
    (s.writeMcr ep v).port ep = { s.port ep with mcr := v } := by
  unfold State.writeMcr; dsimp only; split
  · rw [State.port_sendStatus_self, State.port_modify, if_pos rfl]
  · rw [State.port_modify, if_pos rfl]

@[simp] theorem State.directory_writeMcr (s : State) (ep : Ep) (v : Byte) :
    (s.writeMcr ep v).directory = s.directory := by
  unfold State.writeMcr; dsimp only; split
  · rcases State.sendStatus_cases (s.modify ep fun p => { p with mcr := v }) ep _ with ⟨q, -, -, -, -, h⟩ | ⟨n, -, -, h⟩ | h <;>
      rw [h] <;> simp
  · simp
@[simp] theorem State.active_writeMcr (s : State) (ep : Ep) (v : Byte) : (s.writeMcr ep v).active = s.active := by
  unfold State.writeMcr; dsimp only; split
  · rcases State.sendStatus_cases (s.modify ep fun p => { p with mcr := v }) ep _ with ⟨q, -, -, -, -, h⟩ | ⟨n, -, -, h⟩ | h <;>
      rw [h] <;> simp
  · simp
@[simp] theorem State.pending_writeMcr (s : State) (ep : Ep) (v : Byte) : (s.writeMcr ep v).pending = s.pending := by
  unfold State.writeMcr; dsimp only; split
  · rcases State.sendStatus_cases (s.modify ep fun p => { p with mcr := v }) ep _ with ⟨q, -, -, -, -, h⟩ | ⟨n, -, -, h⟩ | h <;>
      rw [h] <;> simp
  · simp
@[simp] theorem State.draws_writeMcr (s : State) (ep : Ep) (v : Byte) : (s.writeMcr ep v).draws = s.draws := by
  unfold State.writeMcr; dsimp only; split
  · rcases State.sendStatus_cases (s.modify ep fun p => { p with mcr := v }) ep _ with ⟨q, -, -, -, -, h⟩ | ⟨n, -, -, h⟩ | h <;>
      rw [h] <;> simp
  · simp

/-- The same principle for `WR.MCR`. -/
theorem State.writeMcr_relates (R : Port → Port → Prop) (v : Byte) (hrefl : ∀ p, R p p)
    (htrans : ∀ p q r, R p q → R q r → R p r) (hmcr : ∀ p, R p { p with mcr := v })
    (hms : ∀ p c d r l, R p { p with msr := msrAfter p.msr c d r l }.arbitrated)
    (s : State) (ep q : Ep) : R (s.port q) ((s.writeMcr ep v).port q) := by
  have h1 : R (s.port q) ((s.modify ep fun p => { p with mcr := v }).port q) := by
    rw [State.port_modify]; split
    · exact hmcr _
    · exact hrefl _
  unfold State.writeMcr
  dsimp only
  split
  · refine htrans _ _ _ h1 ?_
    rcases State.sendStatus_cases (s.modify ep fun p => { p with mcr := v }) ep
      (translate ((s.modify ep fun p => { p with mcr := v }).port ep).nullModem (v.getLsbD 0) (v.getLsbD 1))
      with ⟨r, -, -, -, -, h⟩ | ⟨n, -, -, h⟩ | h <;> rw [h]
    · rw [State.port_msIn, State.port_emit]; split
      · exact hms _ _ _ _ _
      · exact hrefl _
    · rw [State.port_emit]; exact hrefl _
    · exact hrefl _
  · exact h1

/-! ### Reset and construction -/

theorem State.port_construct (s : State) (ep q : Ep) (cfg : PortConfig) :
    (s.construct ep cfg).port q = if q = ep then Port.fresh cfg else s.port q := by
  unfold State.construct; dsimp only; split <;> simp
/-- A construction that no rule excludes is in an empty slot, and leaves the blocks of one machine without a port in common
(R63, R201). -/
theorem State.construct_exclusive {s : State} {ep : Ep} {cfg : PortConfig} (h : s.constructionRefusal ep cfg = none) :
    (s.port ep).stage = .absent ∧ (s.construct ep cfg).PortsExclusive := by
  have hs : (s.port ep).stage = .absent := by
    by_contra hn; simp [State.constructionRefusal, hn] at h
  refine ⟨hs, ?_⟩
  have hw : s.windowFree ep cfg = true := by
    by_contra hn; simp [State.constructionRefusal, hs, hn] at h
  have key : cfg.known = true → (s.port ep.other).live = true → (s.port ep.other).cfg.machine = cfg.machine →
      cfg.adapter ≠ (s.port ep.other).cfg.adapter ∧
      (cfg.base + 8 ≤ (s.port ep.other).cfg.base ∨ (s.port ep.other).cfg.base + 8 ≤ cfg.base) := by
    intro hk hl hm
    have hk' : (s.port ep.other).cfg.known = true := by
      unfold Port.live at hl; simp only [Bool.and_eq_true] at hl; exact hl.2
    simp only [State.windowFree, hk, hl, hm, Bool.not_true, Bool.false_or, Bool.and_eq_true, Bool.or_eq_true,
      decide_eq_true_eq, bne_iff_ne, ne_eq, not_true_eq_false, beq_iff_eq, false_or] at hw
    obtain ⟨hx, hp, ha⟩ := hw
    refine ⟨Ne.symm ha, ?_⟩
    simp only [PortConfig.known, Bool.or_eq_true, beq_iff_eq] at hk hk'
    unfold PortConfig.base
    rw [hp]
    rcases hk with h1 | h1 <;> rcases hk' with h2 | h2 <;> simp [h1, h2] at ha ⊢ <;> rcases hx with hx | hx <;> omega
  have hlive : (Port.fresh cfg).live = cfg.known := rfl
  unfold State.PortsExclusive
  rw [State.port_construct, State.port_construct]
  cases ep
  · intro h1 h2 h3
    exact key (by simpa [hlive] using h1) h2 (by simpa [Ep.other, Port.fresh] using h3.symm)
  · intro h1 h2 h3
    have := key (by simpa [hlive] using h2) h1 (by simpa [Ep.other, Port.fresh] using h3)
    exact ⟨Ne.symm this.1, this.2.symm⟩

@[simp] theorem State.directory_construct (s : State) (ep : Ep) (cfg : PortConfig) :
    (s.construct ep cfg).directory = s.directory := by unfold State.construct; dsimp only; split <;> simp
@[simp] theorem State.pending_construct (s : State) (ep : Ep) (cfg : PortConfig) :
    (s.construct ep cfg).pending = s.pending := by unfold State.construct; dsimp only; split <;> simp

@[simp] theorem State.port_resetPort (s : State) (ep q : Ep) :
    (s.resetPort ep).port q = if q = ep then (s.port q).afterReset else s.port q := by simp [State.resetPort]

/-- A block straight from construction is a block after `RESET` (R48, R208). -/
theorem Port.fresh_afterReset (cfg : PortConfig) : (Port.fresh cfg).afterReset = Port.fresh cfg := rfl

/-! ### The connection broker -/

/-- The blocks `RESOLVE` leaves behind: a block with a peer is not touched, a touched block differs in its link state
only (R182, R190), and a sound link state stays sound (R40). -/
def Port.LinkStep (ep : Ep) (p q : Port) : Prop :=
  (p.peer.isSome = true → q = p) ∧
  q = { p with peer := q.peer, sendData := q.sendData, updateStatus := q.updateStatus, nullModem := q.nullModem } ∧
  (p.LinkSound ep → q.LinkSound ep)

theorem Port.LinkStep.refl (ep : Ep) (p : Port) : p.LinkStep ep p := ⟨fun _ => rfl, rfl, id⟩

/-- `RESOLVE` changes no more than the link state of blocks without a peer, and the history. -/
def State.LinkFrame (s t : State) : Prop :=
  (∀ q, (s.port q).LinkStep q (t.port q)) ∧ t.directory = s.directory ∧ t.active = s.active ∧ t.pending = s.pending ∧
  t.draws = s.draws ∧ t.result = s.result

theorem State.LinkFrame.refl (s : State) : s.LinkFrame s := ⟨fun _ => Port.LinkStep.refl _ _, rfl, rfl, rfl, rfl, rfl⟩

theorem State.LinkFrame.emit (s : State) (e : Event) : s.LinkFrame (s.emit e) :=
  ⟨fun q => by rw [State.port_emit]; exact Port.LinkStep.refl _ _, rfl, rfl, rfl, rfl, rfl⟩

/-- What `RESOLVE` does once the target is found: `u` is the state after the target's `connect`, in which `ep`, which holds
its peer since before that call, has not been touched. -/
theorem State.LinkFrame.finish {s u : State} {ep : Ep} {r : Ref} (hnone : (s.port ep).peer = none)
    (hu : (s.modify ep fun p => { p with peer := some r }).LinkFrame u) (g : Port → Port)
    (hg : ∀ p, g p = { p with
      peer := (g p).peer, sendData := (g p).sendData, updateStatus := (g p).updateStatus, nullModem := (g p).nullModem })
    (hs : (s.port ep).LinkSound ep → (g { s.port ep with peer := some r }).LinkSound ep) : s.LinkFrame (u.modify ep g) := by
  obtain ⟨hp, h1, h2, h3, h4, h5⟩ := hu
  refine ⟨fun q => ?_, by simpa using h1, by simpa using h2, by simpa using h3, by simpa using h4, by simpa using h5⟩
  by_cases hq : q = ep
  · subst hq
    have hkeep := (hp q).1 (by simp)
    rw [State.port_modify, if_pos rfl] at hkeep
    rw [State.port_modify, if_pos rfl, hkeep]
    exact ⟨fun h => by simp [hnone] at h, by rw [hg], hs⟩
  · simpa [hq] using hp q

theorem State.LinkFrame.callConnect (s : State) (again : State → Ep → State) (ep : Ep) (t : Target) (flag : Bool)
    (h : ∀ (u : State) q, u.LinkFrame (again u q)) : s.LinkFrame (s.callConnect again ep t flag) := by
  unfold State.callConnect
  split
  · cases t with
    | ext => exact State.LinkFrame.emit s _
    | port q =>
      obtain ⟨ha, hb⟩ := h (s.emit (.connect ep (Target.port q).ref flag)) q
      exact ⟨fun r => by simpa using ha r, hb⟩
  · exact State.LinkFrame.refl s

/-- The directory never gives a block itself as its peer (R40, R146). -/
theorem lookupPeer_ref {dir : List DirEntry} {ep : Ep} {key : Ident} {t : Target} (h : lookupPeer dir ep key = some t) :
    some t.ref ≠ some (.port ep) := by
  have := (Option.filter_eq_some_iff.mp h).2
  cases t with
  | port q => simpa [Target.ref] using this
  | ext => simp [Target.ref]

/-- What a block finds as its peer, from what the directory finds (R182). -/
theorem lookupPeer_of_ne {dir : List DirEntry} {ep : Ep} {key : Ident} {t : Target} (h : lookupTarget dir key = some t)
    (ht : t ≠ .port ep) : lookupPeer dir ep key = some t := by simp [lookupPeer, h, Option.filter, ht]

theorem lookupPeer_none {dir : List DirEntry} {ep : Ep} {key : Ident}
    (h : lookupTarget dir key = none ∨ lookupTarget dir key = some (.port ep)) : lookupPeer dir ep key = none := by
  rcases h with h | h <;> simp [lookupPeer, h, Option.filter]

theorem State.resolveLink_frame (fuel : Nat) (s : State) (ep : Ep) (flag : Bool) :
    s.LinkFrame (State.resolveLink fuel s ep flag).1 := by
  induction fuel generalizing s ep flag with
  | zero => exact State.LinkFrame.refl s
  | succ n ih =>
    unfold State.resolveLink
    split
    · exact State.LinkFrame.refl s
    · rename_i hp
      have hnone : (s.port ep).peer = none := by simpa using hp
      split
      · exact State.LinkFrame.refl s
      · split
        · exact State.LinkFrame.emit s _
        · rename_i t ht
          have hc := State.LinkFrame.callConnect (s.modify ep fun p => { p with peer := some t.ref })
            (fun u q => (State.resolveLink n u q flag).1) ep t flag fun u q => ih u q flag
          unfold State.captureLink
          split
          · exact State.LinkFrame.finish hnone hc (·.linked t.ref flag) (fun _ => rfl)
              fun _ => ⟨rfl, fun _ => rfl, lookupPeer_ref ht, lookupPeer_ref ht, lookupPeer_ref ht⟩
          · obtain ⟨ha, hb⟩ := State.LinkFrame.finish hnone hc (fun p => { p with peer := none }) (fun _ => rfl)
              fun h => by simpa [Port.LinkSound, hnone] using h
            exact ⟨fun q => by rw [State.port_emit]; exact ha q, hb⟩

/-- A second `RESOLVE` on a block that has a peer does nothing (R182: "calling it again when already connected is a no-op"). -/
theorem State.resolveLink_of_peer {s : State} {ep : Ep} (h : (s.port ep).peer.isSome = true) (fuel : Nat) (flag : Bool) :
    State.resolveLink fuel s ep flag = (s, false) := by
  cases fuel <;> simp [State.resolveLink, h]

/-- A descriptor written from its parts is cut where it was joined, the source part holding no `->` (R180). -/
theorem splitArrow_joined {source : Ident} (target : Ident) (h : NoArrow source) :
    splitArrow (source ++ ['-', '>'] ++ target) = some (source, target) := by
  induction source with
  | nil => rfl
  | cons c source ih =>
    have := ih fun hi => h (hi.trans (List.suffix_cons c source).isInfix)
    simp only [List.cons_append]
    rw [splitArrow]
    · simp only [this, Option.map]
    · intro rest h1 h2
      cases source with
      | nil => simp at h2
      | cons d source =>
        simp only [List.cons_append, List.cons.injEq] at h2
        exact h ⟨[], source, by simp [h1, h2.1]⟩

/-- A descriptor without `->` has no source part (R180). -/
theorem splitArrow_none {d : Ident} (h : NoArrow d) : splitArrow d = none := by
  induction d with
  | nil => rfl
  | cons c d ih =>
    have := ih fun hi => h (hi.trans (List.suffix_cons c d).isInfix)
    rw [splitArrow]
    · simp only [this, Option.map]
    · intro rest h1 h2
      exact h ⟨[], rest, by simp [h1, h2]⟩

/-- The target of a block whose descriptor names the block itself as source (R182). -/
theorem Port.linkTarget_own {p : Port} {target : Ident} (h : p.cfg.connection = some (p.cfg.ownId ++ ['-', '>'] ++ target))
    (hd : NoArrow p.cfg.ownId) : p.linkTarget = some target := by
  unfold Port.linkTarget; rw [h]; simp only [splitArrow_joined _ hd, if_true]

/-! ### The frame of a meaning -/

theorem busRead_live {s : State} (h : s.cur.live = true) (t : State) (b : Byte) :
    busRead s t b = .next (t.returning (.byte b)) := by simp [busRead, h]

theorem busRead_inert {s : State} (h : s.cur.live = false) (t : State) (b : Byte) :
    busRead s t b = .next s.unclaimedRead := by simp [busRead, h]

theorem busWrite_live {s : State} (h : s.cur.live = true) (t : State) :
    busWrite s t = .next (t.returning .nothing) := by simp [busWrite, h]

theorem busWrite_inert {s : State} (h : s.cur.live = false) (t : State) :
    busWrite s t = .next (s.returning .nothing) := by simp [busWrite, h]

theorem callEnd_live {s : State} (h : s.cur.live = true) (t : State) (r : Result) :
    callEnd s t r = .next (t.returning r) := by simp [callEnd, h]

theorem callEnd_inert {s : State} (h : s.cur.live = false) (t : State) (r : Result) :
    callEnd s t r = .next (s.returning .ignored) := by simp [callEnd, h]

theorem State.cur_returning (s : State) (r : Result) : (s.returning r).cur = s.cur := by simp [State.cur]

/-- The block in hand after a change of the block in its slot. -/
theorem State.cur_modify (s : State) (f : Port → Port) : (s.modify s.active f).cur = f s.cur := by simp [State.cur]

end Sys2Proof.Machine
end

