-- ==== Sys2Proof/Laws/Exec.lean ====
section
/-! SUPPORT. What one operation can do to a block, said once over all operations. -/

namespace Sys2Proof.Machine

/-- The block after the arbiter where the operation is `RD.MSR` or `WR.IER` (R223, decision D2). -/
def Port.rearbitrated (p : Port) : Port := if p.cfg.arbitrateOnAllInputs then p.arbitrated else p

theorem State.port_rearbitrate_if (s : State) (ep q : Ep) :
    (s.rearbitrate ep).port q = if q = ep then (s.port q).rearbitrated else s.port q := by
  rw [State.port_rearbitrate]
  by_cases hq : q = ep
  · subst hq; by_cases h : (s.port q).cfg.arbitrateOnAllInputs <;> simp [Port.rearbitrated, h]
  · simp [hq]

/-- `ATTACHMOUSE` is a step of the link state (R187). -/
theorem State.attach_linkStep (s : State) (ep q : Ep) (id device callback : Ident) :
    (s.port q).LinkStep q ((s.attach ep id device callback).1.port q) := by
  unfold State.attach
  split
  · exact Port.LinkStep.refl _ _
  · rename_i h
    rw [State.port_modify]
    split
    · rename_i hq
      subst hq
      have hnone : (s.port q).peer.isSome = false := by
        cases hp : (s.port q).peer.isSome <;> simp [hp] at h ⊢
      refine ⟨fun h => by simp [hnone] at h, rfl, fun h => ⟨rfl, fun _ => rfl, nofun, h.2.2.2.1, nofun⟩⟩
    · exact Port.LinkStep.refl _ _

/-- The changes of a block that make up an operation: a relation that holds between a block and itself, composes, and holds
across each change that operation `i` can make to the block in slot `slot`, holds between that block before and after `i`. -/
structure Port.Respects (slot : Ep) (R : Port → Port → Prop) (i : Instr) : Prop where
  refl : ∀ p, R p p
  trans : ∀ p q r, R p q → R q r → R p r
  take : i = .rdRbr ∨ i = .rdDll → ∀ p, R p { p with lsr := lsrDr p.lsr false }.staged.arbitrated
  clear : i = .rdMsr → ∀ p, R p { p with msr := msrCleared p.msr }.rearbitrated
  thr : ∀ v, i = .wrThr v → ∀ p, R p { p with thr := v, lsr := lsrTx p.lsr false }
  accept : ∀ v, i = .wrThr v → ∀ p, R p { p with lsr := lsrTx p.lsr true }
  sink : ∀ v, i = .wrThr v → ∀ p l c t, R p { p with logbuf := l, column := c, surface := t }
  push : (∃ v, i = .wrThr v) ∨ (∃ d, i = .rxpush d) → ∀ p d, R p { p with rxq := p.rxq ++ d }.staged.arbitrated
  latch : (∃ v, i = .wrDll v) ∨ (∃ v, i = .wrDlm v) → ∀ p d, R p { p with dl := d }
  enable : ∀ v, i = .wrIer v → ∀ p, R p { p with ier := v }.rearbitrated
  line : ∀ v, i = .wrLcr v → ∀ p, R p { p with lcr := v }
  modem : ∀ v, i = .wrMcr v → ∀ p, R p { p with mcr := v }
  inputs : (∃ v, i = .wrMcr v) ∨ (∃ c d r l, i = .msin c d r l) →
    ∀ p c d r l, R p { p with msr := msrAfter p.msr c d r l }.arbitrated
  scratch : ∀ v, i = .wrScr v → ∀ p w, R p { p with scr := w }
  reset : i = .reset → ∀ p, R p p.afterReset
  restore : ∀ x, i = .restore x → ∀ p r, p.restoredFrom x = some r → R p r
  link : (∃ f, i = .resolve f) ∨ (∃ f, i = .connect f) ∨ (∃ a b c, i = .attachMouse a b c) →
    ∀ p q, p.LinkStep slot q → R p q

/-- The state after an operation is `t` with a value returned, or the block was inert and no block changed. -/
theorem busRead_port {s t u : State} {b : Byte} (h : busRead s t b = .next u) (q : Ep) :
    u.port q = t.port q ∨ u.port q = s.port q := by
  by_cases hl : s.cur.live = true
  · rw [busRead_live hl] at h; cases h; exact .inl (by simp)
  · rw [busRead_inert (by simpa using hl)] at h; cases h; exact .inr (by simp)

theorem busWrite_port {s t u : State} (h : busWrite s t = .next u) (q : Ep) :
    u.port q = t.port q ∨ u.port q = s.port q := by
  by_cases hl : s.cur.live = true
  · rw [busWrite_live hl] at h; cases h; exact .inl (by simp)
  · rw [busWrite_inert (by simpa using hl)] at h; cases h; exact .inr (by simp)

theorem callEnd_port {s t u : State} {r : Result} (h : callEnd s t r = .next u) (q : Ep) :
    u.port q = t.port q ∨ u.port q = s.port q := by
  by_cases hl : s.cur.live = true
  · rw [callEnd_live hl] at h; cases h; exact .inl (by simp)
  · rw [callEnd_inert (by simpa using hl)] at h; cases h; exact .inr (by simp)

/-- A change of the block in hand, whatever the end of the meaning makes of it. -/
theorem State.modify_relates {R : Port → Port → Prop} (hrefl : ∀ p, R p p) (s : State) (ep q : Ep) (f : Port → Port)
    (hf : ∀ p, R p (f p)) : R (s.port q) ((s.modify ep f).port q) := by
  rw [State.port_modify]; split
  · exact hf _
  · exact hrefl _

/-- What an operation can do to a block. -/
theorem exec_relates {q : Ep} {R : Port → Port → Prop} {i : Instr} (hR : Port.Respects q R i) {s t : State}
    (h : exec i s = .next t) : R (s.port q) (t.port q) := by
  have one : ∀ u : State, R (s.port q) (u.port q) → t.port q = u.port q ∨ t.port q = s.port q → R (s.port q) (t.port q) := by
    rintro u hu (e | e) <;> rw [e]
    · exact hu
    · exact hR.refl _
  have at1 : ∀ {f : Port → Port}, (∀ p, R p (f p)) →
      R (s.port q) (if q = s.active then f (s.port q) else s.port q) := by
    intro f hf; split
    · exact hf _
    · exact hR.refl _
  cases i with
  | rdRbr => exact one _ (by rw [State.port_takeByte]; exact at1 (hR.take (.inl rfl))) (busRead_port h q)
  | rdDll => exact one _ (by rw [State.port_takeByte]; exact at1 (hR.take (.inr rfl))) (busRead_port h q)
  | rdIer => exact one s (hR.refl _) (busRead_port h q)
  | rdDlm => exact one s (hR.refl _) (busRead_port h q)
  | rdIir => exact one s (hR.refl _) (busRead_port h q)
  | rdLcr => exact one s (hR.refl _) (busRead_port h q)
  | rdMcr => exact one s (hR.refl _) (busRead_port h q)
  | rdLsr => exact one s (hR.refl _) (busRead_port h q)
  | rdMsr =>
    refine one _ ?_ (busRead_port h q)
    rw [State.port_rearbitrate_if, State.port_modify]
    split
    · exact hR.clear rfl _
    · exact hR.refl _
  | rdScr => exact one s (hR.refl _) (busRead_port h q)
  | wrThr v =>
    exact one _ (State.transmit_relates R v hR.refl hR.trans (hR.thr v rfl) (hR.accept v rfl)
      (hR.push (.inl ⟨v, rfl⟩)) (hR.sink v rfl) s s.active q) (busWrite_port h q)
  | wrDll v =>
    exact one _ (State.modify_relates hR.refl s s.active q _ fun p => hR.latch (.inl ⟨v, rfl⟩) p _) (busWrite_port h q)
  | wrIer v =>
    refine one _ ?_ (busWrite_port h q)
    rw [State.port_rearbitrate_if, State.port_modify]
    split
    · exact hR.enable v rfl _
    · exact hR.refl _
  | wrDlm v =>
    exact one _ (State.modify_relates hR.refl s s.active q _ fun p => hR.latch (.inr ⟨v, rfl⟩) p _) (busWrite_port h q)
  | wrX2 v => exact one s (hR.refl _) (busWrite_port h q)
  | wrLcr v =>
    exact one _ (State.modify_relates hR.refl s s.active q _ (hR.line v rfl)) (busWrite_port h q)
  | wrMcr v =>
    exact one _ (State.writeMcr_relates R v hR.refl hR.trans (hR.modem v rfl) (hR.inputs (.inl ⟨v, rfl⟩))
      s s.active q) (busWrite_port h q)
  | wrX5 v => exact one s (hR.refl _) (busWrite_port h q)
  | wrX6 v => exact one s (hR.refl _) (busWrite_port h q)
  | wrScr v =>
    exact one _ (State.modify_relates hR.refl s s.active q _ fun p => hR.scratch v rfl p _) (busWrite_port h q)
  | rxpush d =>
    exact one _ (by rw [State.port_rxPush]; exact at1 fun p => hR.push (.inr ⟨d, rfl⟩) p _) (callEnd_port h q)
  | msin c d r l =>
    exact one _ (by rw [State.port_msIn]; exact at1 fun p => hR.inputs (.inr ⟨c, d, r, l, rfl⟩) p c d r l)
      (callEnd_port h q)
  | reset => exact one _ (by rw [State.port_resetPort]; exact at1 (hR.reset rfl)) (callEnd_port h q)
  | save => exact one s (hR.refl _) (callEnd_port h q)
  | restore x =>
    simp only [exec, execRestore] at h
    cases hx : s.cur.restoredFrom x with
    | none => rw [hx] at h; exact one s (hR.refl _) (callEnd_port h q)
    | some r =>
      rw [hx] at h
      refine one _ ?_ (callEnd_port h q)
      rw [State.port_modify]
      split
      · rename_i hq; subst hq; exact hR.restore x rfl _ _ hx
      · exact hR.refl _
  | resolve f =>
    exact one _ (hR.link (.inl ⟨f, rfl⟩) _ _ ((State.resolveLink_frame _ s _ f).1 q)) (callEnd_port h q)
  | connect f =>
    exact one _ (hR.link (.inr (.inl ⟨f, rfl⟩)) _ _ ((State.resolveLink_frame _ s _ f).1 q)) (callEnd_port h q)
  | attachMouse a b c =>
    exact one _ (hR.link (.inr (.inr ⟨a, b, c, rfl⟩)) _ _ (s.attach_linkStep s.active q a b c)) (callEnd_port h q)

/-- The block in a slot, in the state a call is performed in (R208). -/
theorem State.port_calling (s : State) (ep q : Ep) (c : Call) :
    (s.calling ep c).port q = if q = ep ∧ c.powersUp = true then (s.port q).poweredUp else s.port q := by
  unfold State.calling; dsimp only
  cases c.powersUp <;> by_cases h : q = ep <;> simp [h]
@[simp] theorem State.events_calling (s : State) (ep : Ep) (c : Call) : (s.calling ep c).events = s.events := by
  unfold State.calling; dsimp only; split <;> simp
@[simp] theorem State.active_calling (s : State) (ep : Ep) (c : Call) : (s.calling ep c).active = s.active := by
  unfold State.calling; dsimp only; split <;> simp
@[simp] theorem State.pending_calling (s : State) (ep : Ep) (c : Call) : (s.calling ep c).pending = s.pending := by
  unfold State.calling; dsimp only; split <;> simp
@[simp] theorem State.draws_calling (s : State) (ep : Ep) (c : Call) : (s.calling ep c).draws = s.draws := by
  unfold State.calling; dsimp only; split <;> simp
theorem State.directory_calling (s : State) (ep : Ep) (c : Call) :
    (s.calling ep c).directory = c.directory.getD s.directory := by
  unfold State.calling; dsimp only; split <;> simp

/-- No operation changes a block's configuration or how far its life has come (R201). -/
theorem exec_fixed {i : Instr} {s t : State} (h : exec i s = .next t) (q : Ep) :
    (t.port q).cfg = (s.port q).cfg ∧ (t.port q).stage = (s.port q).stage := by
  have hb : ∀ p : Port, p.rearbitrated.cfg = p.cfg ∧ p.rearbitrated.stage = p.stage := by
    intro p; unfold Port.rearbitrated; split <;> simp
  refine exec_relates (R := fun p q => q.cfg = p.cfg ∧ q.stage = p.stage) ⟨fun _ => ⟨rfl, rfl⟩,
    fun p q r h k => ⟨k.1.trans h.1, k.2.trans h.2⟩, ?_, ?_, ?_, ?_, ?_, ?_, ?_, ?_, ?_, ?_, ?_, ?_, ?_, ?_, ?_⟩ h
  case refine_14 =>
    intro x _ p r hr
    unfold Port.restoredFrom at hr
    split at hr
    · cases hr; exact ⟨rfl, rfl⟩
    · cases hr
  case refine_15 => intro _ p q hl; rw [hl.2.1]; exact ⟨rfl, rfl⟩
  all_goals intros; first | exact ⟨rfl, rfl⟩ | simp [hb]

/-- What a byte access selects (R64, R82, R208). -/
theorem State.fetch_access {s t : State} {ep : Ep} {dir : Dir} {port : Nat} {data : Byte} {src : Option Nat}
    {rest : List Request} (hp : s.pending = .access ep dir port data src :: rest)
    (ht : t = { s with active := ep, pending := rest }) :
    s.fetch = if (s.port ep).claims port = true then
        if (s.port ep).stage = .powered then .run (decodeKey ((s.port ep).accessKey dir port data)) t
        else .refuse .beforePowerUp
      else .unclaimed dir t := by
  subst ht
  unfold State.fetch
  rw [hp]
  cases ep <;> rfl

/-- What a step does (R63, R64, R71, R181, R200, R201, R208): the first request taken off and an operation performed, a call with
its directory and power-up; a block constructed in an empty slot; or no block changes. -/
theorem step_cases {s t : State} (h : step s = .next t) :
    (∃ r rest u i, s.pending = r :: rest ∧ exec i u = .next t ∧
      (∀ ep c, r = .call ep c → i = c.toInstr ∧ u = State.calling { s with active := ep, pending := rest } ep c) ∧
      ((∀ ep c, r ≠ .call ep c) → i.isBus = true ∧ u = { s with active := r.ep, pending := rest } ∧
        (s.port r.ep).live = true ∧ (s.port r.ep).stage = .powered)) ∨
    (∃ ep cfg rest, s.pending = .construct ep cfg :: rest ∧
      State.constructionRefusal { s with active := ep, pending := rest } ep cfg = none ∧
      t = State.construct { s with active := ep, pending := rest } ep cfg) ∨
    ((∀ q, t.port q = s.port q) ∧ t.events = s.events ∧ t.directory = s.directory ∧ ∀ r ∈ t.pending, r ∈ s.pending) := by
  cases hp : s.pending with
  | nil =>
    simp only [step, State.fetch, hp] at h
    cases h
    exact .inr (.inr ⟨fun _ => rfl, rfl, rfl, by simp [hp]⟩)
  | cons r rest =>
    cases r with
    | wide ep dir port w => simp [step, State.fetch, hp] at h
    | construct ep cfg =>
      simp only [step, State.fetch, hp, Request.ep] at h
      cases hr : State.constructionRefusal { s with active := ep, pending := rest } ep cfg with
      | some r => simp [hr] at h
      | none =>
        simp only [hr] at h
        cases h
        exact .inr (.inl ⟨ep, cfg, rest, rfl, hr, rfl⟩)
    | call ep c =>
      simp only [step, State.fetch, hp, Request.ep] at h
      exact .inl ⟨_, _, _, c.toInstr, rfl, h, fun _ _ e => by cases e; exact ⟨rfl, rfl⟩, fun hn => absurd rfl (hn ep c)⟩
    | access ep dir port data src =>
      rw [step, State.fetch_access hp rfl] at h
      by_cases hc : (s.port ep).claims port = true
      · by_cases hs : (s.port ep).stage = .powered
        · rw [if_pos hc, if_pos hs] at h
          refine .inl ⟨_, _, _, _, rfl, h, (fun _ _ e => by cases e), fun _ => ⟨decodeKey_isBus _, rfl, ?_, hs⟩⟩
          simp only [Port.claims, Bool.and_eq_true] at hc
          exact hc.1
        · rw [if_pos hc, if_neg hs] at h; cases h
      · rw [if_neg hc] at h
        cases h
        refine .inr (.inr ⟨fun q => ?_, ?_, ?_, ?_⟩) <;> cases dir <;> simp +contextual [State.unclaimed]

end Sys2Proof.Machine
end

