-- ==== Sys2Proof/Laws/PerInstr.lean ====
section
/-! SUPPORT. Statements about operations as syntax, one lemma per constructor. -/

namespace Sys2Proof.Laws.KeyFields

open Sys2Proof

/-- Every key the encoder gives an operation has the DLAB value in bit 12 (R81), and the operation's row of the map matches
it (R84). A call has no key (R88). -/
def Statement (i : Instr) : Prop :=
  ∀ (dlab : Bool) (k : Key), encodeKey dlab i = some k →
    Key.dlab k = dlab ∧ ∃ n r, i.rowIndex = some n ∧ keyRows[n]? = some r ∧ r.covers k = true

/-- A key written from its fields, with the row that stands at `n`. -/
theorem of_row {i : Instr} {n : Nat} {r : KeyRow} (hi : BitVec 4) (v : Byte) (dlab : Bool) (hn : i.rowIndex = some n)
    (hr : keyRows[n]? = some r) (hc : r.covers (keyOf dlab (hi ++ 0#8)) = true) :
    Key.dlab (keyOf dlab (hi ++ v)) = dlab ∧
      ∃ n r, i.rowIndex = some n ∧ keyRows[n]? = some r ∧ r.covers (keyOf dlab (hi ++ v)) = true :=
  ⟨keyOf_dlab _ _, n, r, hn, hr, by rw [covers_data (List.mem_of_getElem? hr)]; exact hc⟩

theorem rdRbr : Statement .rdRbr := by
  intro dlab k h
  cases dlab <;> cases h
  exact of_row 0x0#4 0#8 _ rfl rfl (by decide)

theorem rdDll : Statement .rdDll := by
  intro dlab k h
  cases dlab <;> cases h
  exact of_row 0x0#4 0#8 _ rfl rfl (by decide)

theorem rdIer : Statement .rdIer := by
  intro dlab k h
  cases dlab <;> cases h
  exact of_row 0x1#4 0#8 _ rfl rfl (by decide)

theorem rdDlm : Statement .rdDlm := by
  intro dlab k h
  cases dlab <;> cases h
  exact of_row 0x1#4 0#8 _ rfl rfl (by decide)

theorem rdIir : Statement .rdIir := by
  intro dlab k h
  cases dlab <;> cases h
  · exact of_row 0x2#4 0#8 _ rfl rfl (by decide)
  · exact of_row 0x2#4 0#8 _ rfl rfl (by decide)

theorem rdLcr : Statement .rdLcr := by
  intro dlab k h
  cases dlab <;> cases h
  · exact of_row 0x3#4 0#8 _ rfl rfl (by decide)
  · exact of_row 0x3#4 0#8 _ rfl rfl (by decide)

theorem rdMcr : Statement .rdMcr := by
  intro dlab k h
  cases dlab <;> cases h
  · exact of_row 0x4#4 0#8 _ rfl rfl (by decide)
  · exact of_row 0x4#4 0#8 _ rfl rfl (by decide)

theorem rdLsr : Statement .rdLsr := by
  intro dlab k h
  cases dlab <;> cases h
  · exact of_row 0x5#4 0#8 _ rfl rfl (by decide)
  · exact of_row 0x5#4 0#8 _ rfl rfl (by decide)

theorem rdMsr : Statement .rdMsr := by
  intro dlab k h
  cases dlab <;> cases h
  · exact of_row 0x6#4 0#8 _ rfl rfl (by decide)
  · exact of_row 0x6#4 0#8 _ rfl rfl (by decide)

theorem rdScr : Statement .rdScr := by
  intro dlab k h
  cases dlab <;> cases h
  · exact of_row 0x7#4 0#8 _ rfl rfl (by decide)
  · exact of_row 0x7#4 0#8 _ rfl rfl (by decide)

theorem wrThr (v : Byte) : Statement (.wrThr v) := by
  intro dlab k h
  cases dlab <;> cases h
  exact of_row 0x8#4 v _ rfl rfl (by decide)

theorem wrDll (v : Byte) : Statement (.wrDll v) := by
  intro dlab k h
  cases dlab <;> cases h
  exact of_row 0x8#4 v _ rfl rfl (by decide)

theorem wrIer (v : Byte) : Statement (.wrIer v) := by
  intro dlab k h
  cases dlab <;> cases h
  exact of_row 0x9#4 v _ rfl rfl (by decide)

theorem wrDlm (v : Byte) : Statement (.wrDlm v) := by
  intro dlab k h
  cases dlab <;> cases h
  exact of_row 0x9#4 v _ rfl rfl (by decide)

theorem wrX2 (v : Byte) : Statement (.wrX2 v) := by
  intro dlab k h
  cases dlab <;> cases h
  · exact of_row 0xA#4 v _ rfl rfl (by decide)
  · exact of_row 0xA#4 v _ rfl rfl (by decide)

theorem wrLcr (v : Byte) : Statement (.wrLcr v) := by
  intro dlab k h
  cases dlab <;> cases h
  · exact of_row 0xB#4 v _ rfl rfl (by decide)
  · exact of_row 0xB#4 v _ rfl rfl (by decide)

theorem wrMcr (v : Byte) : Statement (.wrMcr v) := by
  intro dlab k h
  cases dlab <;> cases h
  · exact of_row 0xC#4 v _ rfl rfl (by decide)
  · exact of_row 0xC#4 v _ rfl rfl (by decide)

theorem wrX5 (v : Byte) : Statement (.wrX5 v) := by
  intro dlab k h
  cases dlab <;> cases h
  · exact of_row 0xD#4 v _ rfl rfl (by decide)
  · exact of_row 0xD#4 v _ rfl rfl (by decide)

theorem wrX6 (v : Byte) : Statement (.wrX6 v) := by
  intro dlab k h
  cases dlab <;> cases h
  · exact of_row 0xE#4 v _ rfl rfl (by decide)
  · exact of_row 0xE#4 v _ rfl rfl (by decide)

theorem wrScr (v : Byte) : Statement (.wrScr v) := by
  intro dlab k h
  cases dlab <;> cases h
  · exact of_row 0xF#4 v _ rfl rfl (by decide)
  · exact of_row 0xF#4 v _ rfl rfl (by decide)

theorem rxpush (data : RxData) : Statement (.rxpush data) := by
  intro dlab k h
  cases h

theorem msin (cts dsr ri rlsd : Bool) : Statement (.msin cts dsr ri rlsd) := by
  intro dlab k h
  cases h

theorem reset : Statement .reset := by
  intro dlab k h
  cases h

theorem save : Statement .save := by
  intro dlab k h
  cases h

theorem restore (snapshot : List Prim) : Statement (.restore snapshot) := by
  intro dlab k h
  cases h

theorem resolve (flag : Bool) : Statement (.resolve flag) := by
  intro dlab k h
  cases h

theorem connect (isNullModem : Bool) : Statement (.connect isNullModem) := by
  intro dlab k h
  cases h

theorem attachMouse (id device updateCallback : Ident) : Statement (.attachMouse id device updateCallback) := by
  intro dlab k h
  cases h

end Sys2Proof.Laws.KeyFields
end

