-- ==== Sys2Proof/Tests/Slice0.lean ====
section
/-! SUPPORT. Tests on small states. Expected values are those of `95_test_vectors.md` (S1 to S8, V1 to V9) and of the rules
named; the witnesses show states and operands that meet the hypotheses of the obligations. -/

namespace Sys2Proof.Tests.Slice0

open Sys2Proof Sys2Proof.Machine

/-- The operation ends in a next state of which `p` holds. -/
def ran (i : Instr) (s : State) (p : State → Bool) : Bool :=
  match exec i s with
  | .next t => p t
  | _ => false

/-- One step ends in a next state of which `p` holds. -/
def stepped (s : State) (p : State → Bool) : Bool :=
  match step s with
  | .next t => p t
  | _ => false

/-- One step is refused for the reason `r`. -/
def refuses (s : State) (r : Refusal) : Bool :=
  match step s with
  | .refused q => decide (q = r)
  | _ => false

/-- Slot `a` changed by `f`, everything else as after reset. -/
def withA (f : Port → Port) : State := State.reset.modify .a f

/-- Slot `a` with its configuration changed by `f`. -/
def withCfg (f : PortConfig → PortConfig) : State := withA fun p => { p with cfg := f p.cfg }

/-- Slot `a` holds no block. -/
def emptyA : State := withA fun p => { p with stage := .absent }

/-- Both slots linked to each other with the null-modem flag `nm`, and slot `b` enabling interrupts `ierB`. -/
def linked (nm : Bool) (ierB : Byte) : State :=
  (State.reset.modify .a fun p =>
    { p with peer := some (.port .b), sendData := some (.port .b), updateStatus := some (.port .b), nullModem := nm }).modify .b
    fun p => { p with
      peer := some (.port .a), sendData := some (.port .a), updateStatus := some (.port .a), nullModem := nm, ier := ierB }

/-- Slot `a` linked to an outside component, with data capability `d`. -/
def outside (d : Option Ref) (nm : Bool) : State :=
  withA fun p => { p with peer := some (.ext ['D']), sendData := d, updateStatus := some (.ext ['C']), nullModem := nm }

/-- The descriptor of slot `a` of S8. -/
def toB : Ident := ['A', '-', '>', 'M', '.', 'B']

/-- The descriptor of slot `b` of S8. -/
def toA : Ident := ['B', '-', '>', 'M', '.', 'A']

/-- Slot `a` with the descriptor `d`, slot `b` with the descriptor `e`. -/
def wired (d e : Option Ident) : State :=
  (withCfg fun c => { c with connection := d }).modify .b fun p => { p with cfg := { p.cfg with connection := e } }

/-- The state of S4 after its push. -/
def s4 : State := withA fun p => { p with ier := 0x01, rbr := 0x10, rxq := [0x20], lsr := 0x61, iir := 0x04, intr := true }

/-- The name that selects the log. -/
def console : Ident := ['c', 'o', 'n', 's', 'o', 'l', 'e']

/-! ### WellFormed refuses -/

theorem test_wf_dll_needs_dlab : Instr.wellFormed false .rdDll = false := by decide
theorem test_wf_dlm_needs_dlab : Instr.wellFormed false (.wrDlm 0x01) = false := by decide
theorem test_wf_rbr_needs_dlab_clear : Instr.wellFormed true .rdRbr = false := by decide
theorem test_wf_ier_needs_dlab_clear : Instr.wellFormed true (.wrIer 0x01) = false := by decide
theorem test_wf_call_is_no_transaction : Instr.wellFormed false .reset = false := by decide
theorem test_wf_port_above_window : Request.wellFormed 0x3F8 (.access .a .read 0x400 0 none) = false := by decide
theorem test_wf_port_below_window : Request.wellFormed 0x3F8 (.access .a .read 0x3F7 0 none) = false := by decide
theorem test_wf_wide_access : Request.wellFormed 0x3F8 (.wide .a .read 0x3F8 2) = false := by decide
theorem test_wf_last_offset : Request.wellFormed 0x3F8 (.access .a .read 0x3FF 0 none) = true := by decide

/-! ### Keys written out from R84 -/

theorem test_decode_rdRbr : decodeTableWord 16 0b0_0_000_00000000 = some .rdRbr := by decide
theorem test_decode_rdDll : decodeTableWord 16 0b1_0_000_00000000 = some .rdDll := by decide
theorem test_decode_rdIer : decodeTableWord 16 0b0_0_001_00000000 = some .rdIer := by decide
theorem test_decode_rdDlm : decodeTableWord 16 0b1_0_001_00000000 = some .rdDlm := by decide
theorem test_decode_rdIir : decodeTableWord 16 0b0_0_010_00000000 = some .rdIir := by decide
theorem test_decode_rdLcr : decodeTableWord 16 0b1_0_011_00000000 = some .rdLcr := by decide
theorem test_decode_rdMcr : decodeTableWord 16 0b0_0_100_00000000 = some .rdMcr := by decide
theorem test_decode_rdLsr : decodeTableWord 16 0b0_0_101_11111111 = some .rdLsr := by decide
theorem test_decode_rdMsr : decodeTableWord 16 0b1_0_110_00000000 = some .rdMsr := by decide
theorem test_decode_rdScr : decodeTableWord 16 0b0_0_111_00000000 = some .rdScr := by decide
theorem test_decode_wrThr : decodeTableWord 16 0b0_1_000_01000001 = some (.wrThr 0x41) := by decide
theorem test_decode_wrDll : decodeTableWord 16 0b1_1_000_01100000 = some (.wrDll 0x60) := by decide
theorem test_decode_wrIer : decodeTableWord 16 0b0_1_001_11110010 = some (.wrIer 0xF2) := by decide
theorem test_decode_wrDlm : decodeTableWord 16 0b1_1_001_00000001 = some (.wrDlm 0x01) := by decide
theorem test_decode_wrX2 : decodeTableWord 16 0b0_1_010_11000111 = some (.wrX2 0xC7) := by decide
theorem test_decode_wrLcr : decodeTableWord 16 0b1_1_011_10000011 = some (.wrLcr 0x83) := by decide
theorem test_decode_wrMcr : decodeTableWord 16 0b0_1_100_00001011 = some (.wrMcr 0x0B) := by decide
theorem test_decode_wrX5 : decodeTableWord 16 0b1_1_101_11111111 = some (.wrX5 0xFF) := by decide
theorem test_decode_wrX6 : decodeTableWord 16 0b0_1_110_11111110 = some (.wrX6 0xFE) := by decide
theorem test_decode_wrScr : decodeTableWord 16 0b0_1_111_10100101 = some (.wrScr 0xA5) := by decide
theorem test_decode_thirteen_bits : decodeTableWord 13 0b1_1_111_10100101 = some (.wrScr 0xA5) := by decide
theorem test_decode_no_key : decodeTableWord 16 0b001_0_0_000_00000000 = none := by decide
theorem test_decode_truncated : decode [0x41] = .error .truncated := by decide
theorem test_encode_under_wrong_dlab : encode false .rdDll = none := by decide
theorem test_encode_call : encode false .save = none := by decide

/-! ### The step -/

theorem test_step_runs_word : stepped (State.reset.withFetchWord 16 0x0500) (fun t => t.result = .byte 0x60) = true := by
  decide
theorem test_step_word_sets_dlab :
    stepped (State.reset.withFetchWord 16 0x1100) (fun t => t.result = .byte 0x01 ∧ t.cur.lcr = 0x80) = true := by decide
theorem test_step_runs_call :
    stepped { State.reset with pending := [.call .b .save] } (fun t => t.active = .b ∧ t.pending = []) = true := by decide
/-- R64: no block claims the port below the window. -/
theorem test_step_unclaimed :
    stepped { State.reset with pending := [.access .a .write 0x3F7 0xFF (some 0)] }
      (fun t => t.portA = State.reset.portA) = true := by decide

/-- R181: the directory comes with the call, so an explicit retry succeeds once the peer machine is in it. -/
theorem test_step_resolve_retry :
    stepped { wired (some toB) none with directory := [], pending := [.call .a (.resolve true [])] }
      (fun t => t.result = .connectionResolutionFailure ∧ t.portA.peer = none) = true ∧
    stepped { wired (some toB) none with directory := [], pending := [.call .a (.resolve true [⟨['M', '.', 'B'], .port .b⟩])] }
      (fun t => t.result = .resolved ∧ t.portA.peer = some (.port .b)) = true := by decide
/-- R200, R235: adapter 3 is a `ConfigurationError`, adapter 1 is not. -/
theorem test_step_construct :
    stepped { emptyA with pending := [.construct .a (PortConfig.default 3 ['A'])] }
      (fun t => t.result = .configurationError ∧ t.events = [.configurationError .a] ∧ t.portA.live = false) = true ∧
    stepped { emptyA with pending := [.construct .a (PortConfig.default 1 ['A'])] }
      (fun t => t.result = .constructed ∧ t.events = [] ∧ t.portA.live = true ∧
        t.portA.poweredUp = State.reset.portA) = true := by decide
/-- R201: a slot takes one block. R63: not two with one adapter in one machine; R239: in two machines they may. -/
theorem test_step_construct_excluded :
    refuses { s4 with pending := [.construct .a (PortConfig.default 1 ['A'])] } .constructedTwice = true ∧
    refuses { emptyA with pending := [.construct .a (PortConfig.default 2 ['A'])] } .windowTaken = true ∧
    stepped { emptyA with pending := [.construct .a { PortConfig.default 2 ['A'] with machine := ['N'] }] }
      (fun t => t.result = .constructed ∧ t.portA.cfg.base = 0x2F8 ∧ t.portA.cfg.irqLine = 3) = true := by decide
/-- R208: no bus access before the first power-up, and `RESET` is one. -/
theorem test_step_first_powerUp :
    refuses { (withA fun p => { p with stage := .constructed }) with pending := [inReq .a 0x3F8 5] } .beforePowerUp = true ∧
    stepped { (withA fun p => { p with stage := .constructed }) with pending := [.call .a .reset] }
      (fun t => t.portA = State.reset.portA) = true := by decide
/-- R208: exactly one of `RESET` and `RESTORE`, then resolution; R206: the host falls back to `RESET` or does not. -/
theorem test_powerUp :
    powerUp .a (PortConfig.default 1 ['A']) [] true none = [.call .a .reset, .call .a (.resolve true [])] ∧
    powerUp .a (PortConfig.default 1 ['A']) [] true (some State.reset.portA.snapshot) =
      [.call .a (.restore State.reset.portA.snapshot), .call .a (.resolve true [])] ∧
    powerUp .a (PortConfig.default 1 ['A']) [] true (some []) =
      [.call .a (.restore []), .call .a .reset, .call .a (.resolve true [])] ∧
    powerUp .a (PortConfig.default 1 ['A']) [] false (some []) =
      [.call .a (.restore []), .call .a (.resolve true [])] := by decide

/-! ### Port reads -/

theorem test_rdRbr_stages_next :
    ran .rdRbr s4 (fun t => t.result = .byte 0x10 ∧ t.cur.rbr = 0x20 ∧ t.cur.rxq = [] ∧ t.cur.lsr = 0x61 ∧
      t.cur.iir = 0x04 ∧ t.events = [.irqAssert .a 4 1]) = true := by decide
theorem test_rdRbr_last_byte :
    ran .rdRbr (withA fun p => { p with ier := 0x01, rbr := 0x20, lsr := 0x61, iir := 0x04, intr := true })
      (fun t => t.result = .byte 0x20 ∧ t.cur.lsr = 0x60 ∧ t.cur.iir = 0x05 ∧ t.cur.intr = false ∧
        t.events = [.irqClear .a 4]) = true := by decide
theorem test_rdDll_takes_the_byte :
    ran .rdDll (withA fun p => { p with rbr := 0x11, rxq := [0x22], lsr := 0x61, lcr := 0x80 })
      (fun t => t.result = .byte 0x80 ∧ t.cur.rbr = 0x22 ∧ t.cur.rxq = [] ∧ t.cur.lsr = 0x61) = true := by decide
theorem test_rdIer : ran .rdIer (withA fun p => { p with ier := 0xF2 }) (fun t => t.result = .byte 0xF2) = true := by decide
theorem test_rdDlm : ran .rdDlm State.reset (fun t => t.result = .byte 0x01) = true := by decide
theorem test_rdIir : ran .rdIir s4 (fun t => t.result = .byte 0x04 ∧ t.portA = s4.portA ∧ t.events = []) = true := by
  decide
theorem test_rdLcr : ran .rdLcr (withA fun p => { p with lcr := 0x83 }) (fun t => t.result = .byte 0x83) = true := by decide
theorem test_rdMcr : ran .rdMcr (withA fun p => { p with mcr := 0x0B }) (fun t => t.result = .byte 0x0B) = true := by decide
/-- V8 row 6: error bits that a snapshot brought are returned and not cleared. -/
theorem test_rdLsr_clears_nothing :
    ran .rdLsr (withA fun p => { p with lsr := 0x7E }) (fun t => t.result = .byte 0x7E ∧ t.cur.lsr = 0x7E) = true := by
  decide
theorem test_rdMsr_clears_deltas :
    ran .rdMsr (withA fun p => { p with ier := 0x08, msr := 0x21, iir := 0x00, intr := true })
      (fun t => t.result = .byte 0x21 ∧ t.cur.msr = 0x20 ∧ t.cur.iir = 0x01 ∧ t.cur.intr = false) = true := by decide
theorem test_rdScr : ran .rdScr (withA fun p => { p with scr := 0xA5 }) (fun t => t.result = .byte 0xA5) = true := by decide

/-! ### Port writes -/

/-- No sink; and the block's own capability, which is not called (R146). -/
theorem test_wrThr_silent : ∀ r ∈ [none, some (Ref.port .a)],
    ran (.wrThr 0x55) (withA fun p => { p with peer := r, sendData := r })
      (fun t => t.cur.thr = 0x55 ∧ t.cur.lsr = 0x00 ∧ t.cur.rxq = [] ∧ t.cur.rbr = 0x00 ∧ t.events = []) = true := by decide
/-- V7, data between endpoints; and the sender's log takes a byte that the peer has accepted (R161). -/
theorem test_wrThr_peer :
    ran (.wrThr 0x48) (linked true 0x01) (fun t => t.portA.lsr = 0x60 ∧ t.portB.rbr = 0x48 ∧ t.portB.lsr = 0x61 ∧
      t.portB.iir = 0x04 ∧ t.portB.intr = true ∧ t.portA.rbr = 0x00) = true ∧
    ran (.wrThr 0x0A) ((linked true 0x00).modify .a fun p => { p with
        cfg := { p.cfg with bindingName := some console }, logbuf := [0x41] })
      (fun t => t.portB.rbr = 0x0A ∧ t.portA.logbuf = [] ∧
        t.events = [.receiveData .a (.port .b) 0x0A, .irqClear .b 3, .logLine .a [0x41]]) = true := by decide
theorem test_wrDll : ran (.wrDll 0x60) State.reset (fun t => t.cur.dl = 0x0160 ∧ t.cur.thr = 0x00) = true := by decide
theorem test_wrIer_raises :
    ran (.wrIer 0x01) (withA fun p => { p with rbr := 0x33, lsr := 0x61 })
      (fun t => t.cur.ier = 0x01 ∧ t.cur.iir = 0x04 ∧ t.cur.intr = true) = true := by decide
theorem test_wrIer_no_thre_condition :
    ran (.wrIer 0x06) State.reset (fun t => t.cur.iir = 0x01 ∧ t.cur.intr = false ∧ t.events = [.irqClear .a 4]) = true := by
  decide
theorem test_wrDlm :
    ran (.wrDlm 0x00) (withA fun p => { p with dl := 0x0160 }) (fun t => t.cur.dl = 0x0060 ∧ t.cur.ier = 0x00) = true := by
  decide
theorem test_wrX2 : ran (.wrX2 0xC7) s4 (fun t => t.portA = s4.portA ∧ t.events = []) = true := by decide
theorem test_wrLcr : ran (.wrLcr 0x7F) State.reset (fun t => t.cur.lcr = 0x7F ∧ t.cur.lsr = 0x60) = true := by decide
/-- S6, the first write of the null-modem sequence. -/
theorem test_wrMcr_crossover :
    ran (.wrMcr 0x03) (linked true 0x09) (fun t => t.portA.mcr = 0x03 ∧ t.portA.msr = 0x30 ∧ t.portB.msr = 0xB8 ∧
      t.portB.iir = 0x00 ∧ t.portB.intr = true) = true := by decide
/-- V7, straight through to a SerialPort. -/
theorem test_wrMcr_straight :
    ran (.wrMcr 0x03) (linked false 0x08) (fun t => t.portB.msr = 0x03 ∧ t.portB.iir = 0x00) = true := by decide
theorem test_wrX5 : ran (.wrX5 0xFF) State.reset (fun t => t.cur.lsr = 0x60 ∧ t.events = []) = true := by decide
theorem test_wrX6 : ran (.wrX6 0xFF) State.reset (fun t => t.cur.msr = 0x30 ∧ t.events = []) = true := by decide
theorem test_wrScr : ran (.wrScr 0xA5) State.reset (fun t => t.cur.scr = 0xA5) = true := by decide
/-- V2 row 14. -/
theorem test_wrScr_unwritable :
    ran (.wrScr 0xA5) (withCfg fun c => { c with scrWritable := false }) (fun t => t.cur.scr = 0x00) = true := by decide

/-! ### The line -/

theorem test_rxpush_stages_head :
    ran (.rxpush (.bytes [0x10, 0x20])) (withA fun p => { p with ier := 0x01 }) (fun t => t.result = .accepted true ∧
      t.cur.rbr = 0x10 ∧ t.cur.rxq = [0x20] ∧ t.cur.lsr = 0x61 ∧ t.cur.iir = 0x04 ∧ t.events = [.irqAssert .a 4 1]) = true := by
  decide
theorem test_rxpush_nothing :
    ran (.rxpush (.bytes [])) State.reset (fun t => t.portA = State.reset.portA ∧ t.events = [.irqClear .a 4]) = true := by
  decide
theorem test_msin_trailing_ring :
    ran (.msin false true false false) (withA fun p => { p with ier := 0x08, msr := 0x60 })
      (fun t => t.cur.msr = 0x24 ∧ t.cur.iir = 0x00 ∧ t.cur.intr = true) = true := by decide
theorem test_msin_all_deltas :
    ran (.msin true false false true) (withA fun p => { p with ier := 0x08, msr := 0x24, iir := 0x00, intr := true })
      (fun t => t.cur.msr = 0x9F ∧ t.cur.iir = 0x00) = true := by decide

/-! ### The host -/

/-- V9 row 1. -/
theorem test_reset_keeps_link :
    ran .reset ((linked true 0x00).modify .a fun p => { p with
      rbr := 0x20, thr := 0x69, dl := 0x000C, ier := 0x09, iir := 0x04, lcr := 0x83, mcr := 0x0B, lsr := 0x01, msr := 0xBF,
      scr := 0xA5, rxq := [0x31, 0x32], intr := true })
      (fun t => t.portA = (linked true 0x00).portA ∧ t.portB = (linked true 0x00).portB ∧ t.events = [.irqClear .a 4]) =
      true := by decide
/-- V8 row 1. -/
theorem test_save :
    ran .save State.reset (fun t => t.result = .snapshot [.byte 0x00, .byte 0x00, .word 0x0180, .byte 0x00, .byte 0x01,
      .byte 0x00, .byte 0x00, .byte 0x60, .byte 0x30, .bytes []]) = true := by decide
/-- V8 row 2. -/
theorem test_restore :
    ran (.restore [.byte 0x41, .byte 0x42, .word 0x0060, .byte 0x01, .byte 0x04, .byte 0x03, .byte 0x0B, .byte 0x61,
      .byte 0x30, .bytes [0x43]]) State.reset (fun t => t.result = .restored ∧ t.cur.rbr = 0x41 ∧ t.cur.lcr = 0x03 ∧
        t.cur.mcr = 0x0B ∧ t.cur.rxq = [0x43] ∧ t.cur.intr = true ∧ t.events = []) = true := by decide
/-- V8 row 4, nine elements. -/
theorem test_restore_mismatch :
    ran (.restore [.byte 0x00, .byte 0x00, .word 0x0180, .byte 0x00, .byte 0x01, .byte 0x00, .byte 0x00, .byte 0x60,
      .byte 0x30]) s4 (fun t => t.result = .snapshotShapeMismatch ∧ t.portA = s4.portA) = true := by decide

/-! ### Links -/

/-- S8, slot `b` without a descriptor. -/
theorem test_resolve_one_side :
    ran (.resolve true) (wired (some toB) none) (fun t => t.result = .resolved ∧ t.portA.peer = some (.port .b) ∧
      t.portA.sendData = some (.port .b) ∧ t.portA.updateStatus = some (.port .b) ∧ t.portA.nullModem = true ∧
      t.portB.peer = none) = true := by decide
/-- S8, both slots with a descriptor. -/
theorem test_resolve_both_sides :
    ran (.resolve true) (wired (some toB) (some toA)) (fun t => t.portA.peer = some (.port .b) ∧
      t.portB.peer = some (.port .a) ∧ t.portB.sendData = some (.port .a) ∧ t.portB.nullModem = true) = true := by decide
/-- R182: the target is not in the directory; R40, R146: it is the block itself. -/
theorem test_connect_absent_target : ∀ d ∈ [['A', '-', '>', 'X'], ['A', '-', '>', 'M', '.', 'A']],
    ran (.connect true) (wired (some d) none) (fun t => t.result = .connectionResolutionFailure ∧
      t.portA.peer = none ∧ t.portA.sendData = none ∧ t.events = [.resolutionFailure .a]) = true := by decide
theorem test_attachMouse :
    ran (.attachMouse ['A'] ['D'] ['C']) State.reset (fun t => t.result = .attached true ∧ t.cur.peer = some (.ext ['D']) ∧
      t.cur.updateStatus = some (.ext ['C']) ∧ t.cur.sendData = none) = true := by decide
theorem test_attachMouse_other_id :
    ran (.attachMouse ['X'] ['D'] ['C']) State.reset (fun t => t.result = .attached false ∧ t.cur.peer = none) = true := by
  decide

theorem test_step_wide_refused :
    refuses { State.reset with pending := [.wide .a .read 0x3F8 2] } (.wideAccess 2) = true := by decide

/-! ### Witnesses: a state and operands that meet the hypotheses of the obligation named -/

/-- A live block; the hypothesis of every statement about one operation on such a block. -/
theorem witness_LiveBlock : State.reset.cur.live = true := by decide

/-- The first and the last port of the window. -/
theorem witness_StepRunsDecodedTransaction : ∀ port ∈ [0x3F8, 0x3FF], ∃ s : State,
    s.pending = [.access .a .write port 0x41 none] ∧ (s.port .a).live = true ∧ (s.port .a).stage = .powered ∧
      (s.port .a).cfg.base ≤ port ∧
      port < (s.port .a).cfg.base + 8 := by
  intro port h
  refine ⟨{ State.reset with pending := [.access .a .write port 0x41 none] }, rfl, rfl, rfl, ?_⟩
  revert port; decide

/-- A call that resolves nothing and powers nothing up, those that do, and a construction in an empty slot beside the live block
of slot `b`, with adapter 1 and with the adapters on either side of the two that make a block live. -/
theorem witness_StepRunsPendingCall :
    (({ State.reset with pending := [.call .b .save] } : State).pending = .call .b .save :: [] ∧
      (∀ f d, Call.save ≠ .resolve f d) ∧ (∀ f d, Call.save ≠ .connect f d) ∧ Call.save ≠ .reset ∧
      ∀ x, Call.save ≠ .restore x) ∧
    ({ emptyA with pending := [.call .a .reset] } : State).pending = .call .a .reset :: [] ∧
    ({ State.reset with pending := [.call .a (.restore [])] } : State).pending = .call .a (.restore []) :: [] ∧
    ({ State.reset with pending := [.call .a (.resolve true [])] } : State).pending = .call .a (.resolve true []) :: [] ∧
    ({ State.reset with pending := [.call .b (.connect false [])] } : State).pending = .call .b (.connect false []) :: [] ∧
    (∀ n ∈ [0, 1, 3], ({ emptyA with pending := [.construct .a (PortConfig.default n ['A'])] } : State).pending =
        .construct .a (PortConfig.default n ['A']) :: [] ∧ (emptyA.port .a).stage = .absent ∧
      (PortConfig.default n ['A']).pairs.Exclusive ∧ (emptyA.port .b).live = true ∧
      (emptyA.port .b).cfg.machine = (PortConfig.default n ['A']).machine ∧
      (emptyA.port .b).cfg.pairs = (PortConfig.default n ['A']).pairs ∧
      (emptyA.port .b).cfg.adapter ≠ (PortConfig.default n ['A']).adapter) ∧
    ((PortConfig.default 1 ['A']).adapter = 1 ∧ (PortConfig.default 2 ['A']).adapter = 2 ∧
      ∀ n ∈ [0, 3], (PortConfig.default n ['A']).adapter ≠ 1 ∧ (PortConfig.default n ['A']).adapter ≠ 2) :=
  ⟨⟨rfl, nofun, nofun, nofun, nofun⟩, rfl, rfl, rfl, rfl, by decide, by decide⟩

/-- One below the window, one above it, and an inert block; a block without power-up; a slot that has a block; a taken adapter,
another table of pairs, and a table whose ranges overlap by one port. -/
theorem witness_StepWithoutOperation :
    State.reset.pending = [] ∧
    ({ State.reset with pending := [.wide .a .read 0x3F8 2] } : State).pending = .wide .a .read 0x3F8 2 :: [] ∧
    (0x3F7 < (State.reset.port .a).cfg.base) ∧ ((State.reset.port .a).cfg.base + 8 ≤ 0x400) ∧
    (((withCfg fun c => { c with adapter := 3 }).port .a).live = false) ∧
    (((withA fun p => { p with stage := .constructed }).port .a).live = true ∧
      ((withA fun p => { p with stage := .constructed }).port .a).stage ≠ .powered) ∧
    (State.reset.port .a).stage ≠ .absent ∧
    ((emptyA.port .a).stage = .absent ∧ (emptyA.port .b).live = true ∧ (emptyA.port .b).cfg.machine = ['M'] ∧
      (emptyA.port .b).cfg.adapter = 2 ∧ (emptyA.port .b).cfg.pairs ≠ { AdapterPairs.pc with base1 := 0x3E8 }) ∧
    ¬ ({ AdapterPairs.pc with base1 := 0x2FF } : AdapterPairs).Exclusive := by decide

/-- An operation selected by either DLAB value, one by each. -/
theorem witness_EncodedOperationDecodesToItself :
    Instr.wellFormed false .rdRbr = true ∧ Instr.wellFormed true (.wrDlm 0xFF) = true ∧
    Instr.wellFormed true (.wrScr 0x00) = true := by decide

theorem witness_DlabTakesEffectAtNextTransaction :
    (State.reset.port .a).live = true ∧ (State.reset.port .a).stage = .powered ∧
    ({ State.reset with pending := [.access .a .write 0x3FB 0x80 none, .access .a .read 0x3FF 0x00 none] } : State).pending =
      .access .a .write ((State.reset.port .a).cfg.base + 3) 0x80 none ::
        .access .a .read ((State.reset.port .a).cfg.base + (7#3).toNat) 0x00 none :: [] := by decide

/-- A queue with and without a byte. -/
theorem witness_ReceiveBufferRead : s4.cur.live = true ∧ s4.cur.rxq = 0x20 :: [] ∧ State.reset.cur.rxq = [] := by decide

/-- Both settings of the switch, for `RD.MSR` and `WR.IER`. -/
theorem witness_ModemStatusRead_InterruptEnableWrite :
    State.reset.cur.cfg.arbitrateOnAllInputs = true ∧
    (withCfg fun c => { c with arbitrateOnAllInputs := false }).cur.cfg.arbitrateOnAllInputs = false ∧
    (withCfg fun c => { c with arbitrateOnAllInputs := false }).cur.live = true := by decide

theorem witness_PortReadFrame : ∀ i ∈ [Instr.rdRbr, .rdMsr, .rdScr], ∃ t, exec i s4 = .next t := by
  intro i h
  simp only [List.mem_cons, List.not_mem_nil, or_false] at h
  rcases h with rfl | rfl | rfl <;> exact ⟨_, rfl⟩

/-- No peer, a peer without the data capability, and the block's own capability; each of the three sinks. -/
theorem witness_TransmitWithoutPeer :
    (∀ n ∈ [none, some console, some ['p']], (withCfg fun c => { c with bindingName := n }).cur.live = true ∧
      (withCfg fun c => { c with bindingName := n }).cur.peer = none ∧
      (withCfg fun c => { c with bindingName := n }).cur.cfg.bindingName = n) ∧
    ((outside none false).cur.live = true ∧ (outside none false).cur.sendData = none) ∧
    ((outside (some (.port .a)) false).cur.live = true ∧
      (outside (some (.port .a)) false).cur.sendData = some (.port (outside (some (.port .a)) false).active)) := by decide

/-- Without a peer and with the other block as peer; one character less than the limit, and the limit. -/
theorem witness_LogSinkTakesByte : ∀ n ∈ [1023, 1024], ∀ r ∈ [none, some (Ref.port .b)], ∃ s : State,
    s.cur.live = true ∧ s.cur.cfg.bindingName = some console ∧ s.cur.peer = r ∧ s.cur.logbuf.length = n :=
  fun n _ r _ => ⟨withA fun p => { p with
    cfg := { p.cfg with bindingName := some console }, peer := r, sendData := r, logbuf := List.replicate n 0x61#8 },
    by rfl, rfl, rfl, List.length_replicate⟩

/-- Each tab width of the two tab clauses, without a peer and with the other block as peer. -/
theorem witness_EchoSurfaceTakesByte : ∀ w ∈ [none, some 0, some 8], ∀ r ∈ [none, some (Ref.port .b)], ∃ s : State,
    s.cur.live = true ∧ s.cur.peer = r ∧ s.cur.cfg.bindingName = some ['p'] ∧ s.cur.cfg.tabWidth = w ∧ s.cur.column = 3 :=
  fun w _ r _ => ⟨withA fun p => { p with
    cfg := { p.cfg with bindingName := some ['p'], tabWidth := w }, peer := r, sendData := r, column := 3 },
    by rfl, rfl, rfl, rfl, rfl⟩

theorem witness_TransmitReachesPeerBlock :
    (linked true 0x00).cur.live = true ∧ (linked true 0x00).cur.peer = some (.port .b) ∧
    (linked true 0x00).cur.sendData = some (.port (linked true 0x00).active.other) ∧
    ((linked true 0x00).port (linked true 0x00).active.other).live = true := by decide

theorem witness_TransmitReachesOutsideComponent :
    (outside (some (.ext ['D'])) false).cur.live = true ∧ (outside (some (.ext ['D'])) false).cur.peer = some (.ext ['D']) ∧
    (outside (some (.ext ['D'])) false).cur.sendData = some (.ext ['D']) := by decide

theorem witness_TransmitFrame : ∃ t, exec (.wrThr 0x48) (linked true 0x01) = .next t := ⟨_, rfl⟩

/-- The same lines with a peer, no peer, and the block's own capability. -/
theorem witness_ModemControlWriteWithoutNotice :
    ((0x08#8).getLsbD 0 = (linked true 0x00).cur.mcr.getLsbD 0 ∧ (0x08#8).getLsbD 1 = (linked true 0x00).cur.mcr.getLsbD 1) ∧
    State.reset.cur.peer = none ∧
    (withA fun p => { p with updateStatus := some (.port .a) }).cur.updateStatus =
      some (.port (withA fun p => { p with updateStatus := some (.port .a) }).active) := by decide

/-- DTR alone and RTS alone change, towards the other block and towards an outside component. -/
theorem witness_NullModemCrossover :
    ((outside none true).cur.live = true ∧ (outside none true).cur.peer = some (.ext ['D']) ∧
      (outside none true).cur.updateStatus = some (.ext ['C']) ∧ (outside none true).cur.nullModem = true ∧
      (0x01#8).getLsbD 0 ≠ (outside none true).cur.mcr.getLsbD 0 ∧
      (0x02#8).getLsbD 1 ≠ (outside none true).cur.mcr.getLsbD 1) ∧
    (linked true 0x00).cur.live = true ∧ (linked true 0x00).cur.peer = some (.port .b) ∧
    (linked true 0x00).cur.updateStatus = some (.port (linked true 0x00).active.other) ∧
    ((linked true 0x00).port (linked true 0x00).active.other).live = true ∧ (linked true 0x00).cur.nullModem = true ∧
    (0x01#8).getLsbD 0 ≠ (linked true 0x00).cur.mcr.getLsbD 0 ∧
    (0x02#8).getLsbD 1 ≠ (linked true 0x00).cur.mcr.getLsbD 1 := by decide

/-- An outside component, and the other block. -/
theorem witness_StraightThroughStatus :
    ((linked false 0x00).cur.live = true ∧ (linked false 0x00).cur.peer = some (.port .b) ∧
      (linked false 0x00).cur.updateStatus = some (.port (linked false 0x00).active.other) ∧
      ((linked false 0x00).port (linked false 0x00).active.other).live = true ∧ (linked false 0x00).cur.nullModem = false ∧
      (0x02#8).getLsbD 1 ≠ (linked false 0x00).cur.mcr.getLsbD 1) ∧
    (outside none false).cur.live = true ∧ (outside none false).cur.peer = some (.ext ['D']) ∧
    (outside none false).cur.updateStatus = some (.ext ['C']) ∧ (outside none false).cur.nullModem = false ∧
    (0x03#8).getLsbD 0 ≠ (outside none false).cur.mcr.getLsbD 0 := by decide

theorem witness_ModemControlFrame : ∃ t, exec (.wrMcr 0x03) (linked true 0x09) = .next t := ⟨_, rfl⟩

/-- Both settings of `SCR_WRITABLE`. -/
theorem witness_ScratchRegister :
    State.reset.cur.live = true ∧ State.reset.cur.cfg.scrWritable = true ∧
    (withCfg fun c => { c with scrWritable := false }).cur.live = true ∧
    (withCfg fun c => { c with scrWritable := false }).cur.cfg.scrWritable = false := by decide

/-- A byte ready; none ready with nothing to take, and none ready with a byte to take. -/
theorem witness_PushDeliversBytes :
    (s4.cur.live = true ∧ s4.cur.dr = true) ∧
    (State.reset.cur.live = true ∧ State.reset.cur.dr = false ∧ State.reset.cur.rxq ++ [] = [] ∧
      State.reset.cur.rxq ++ [0x41] ≠ []) := by decide

theorem witness_BacklogBehindStagedByte :
    s4.cur.live = true ∧ s4.cur.lsr.getLsbD 0 = true ∧ s4.cur.rxq ++ [0x30] ≠ [] := by decide

/-- With a byte ready and without one. -/
theorem witness_ReceivedBytesKeepTheirOrder :
    (∃ t, exec (.rxpush (.byte 0x30)) s4 = .next t) ∧ (s4.cur.live = true ∧ s4.cur.lsr.getLsbD 0 = true) ∧
    (State.reset.cur.live = true ∧ State.reset.cur.lsr.getLsbD 0 = false) :=
  ⟨⟨_, rfl⟩, by decide, by decide⟩

/-- One element too few, one too many, and ten of one kind. -/
theorem witness_RestoreRejectsWrongLength :
    State.reset.cur.live = true ∧ (List.replicate 9 (Prim.byte 0)).length ≠ 10 ∧
    (List.replicate 11 (Prim.byte 0)).length ≠ 10 ∧
    (∀ rbr thr dl ier iir lcr mcr lsr msr rxq, List.replicate 10 (Prim.byte 0) ≠ [.byte rbr, .byte thr, .word dl, .byte ier,
      .byte iir, .byte lcr, .byte mcr, .byte lsr, .byte msr, .bytes rxq]) :=
  ⟨by decide, by decide, by decide, by simp [List.replicate]⟩

/-- A peer, no descriptor, one without an arrow, and the descriptor of another source. -/
theorem witness_ResolveWithNothingToDo :
    (linked true 0x00).cur.peer.isSome = true ∧ State.reset.cur.cfg.connection = none ∧
    ((wired (some ['A', '-']) none).cur.cfg.connection = some ['A', '-'] ∧ NoArrow ['A', '-']) ∧
    ((wired (some toA) none).cur.cfg.connection = some (['B'] ++ ['-', '>'] ++ ['M', '.', 'A']) ∧ NoArrow ['B'] ∧
      (['B'] : Ident) ≠ (wired (some toA) none).cur.cfg.ownId) := by decide

/-- A target under no entry, and the block itself. -/
theorem witness_ResolveReportsAbsentTarget :
    ((wired (some ['A', '-', '>', 'M', '.', 'A']) none).cur.peer = none ∧
      (wired (some ['A', '-', '>', 'M', '.', 'A']) none).cur.cfg.connection =
        some ((wired (some ['A', '-', '>', 'M', '.', 'A']) none).cur.cfg.ownId ++ ['-', '>'] ++ ['M', '.', 'A']) ∧
      lookupTarget (wired (some ['A', '-', '>', 'M', '.', 'A']) none).directory ['M', '.', 'A'] = some (.port .a)) ∧
    (wired (some ['A', '-', '>', 'X']) none).cur.live = true ∧ (wired (some ['A', '-', '>', 'X']) none).cur.peer = none ∧
    (wired (some ['A', '-', '>', 'X']) none).cur.cfg.connection =
      some ((wired (some ['A', '-', '>', 'X']) none).cur.cfg.ownId ++ ['-', '>'] ++ ['X']) ∧
    NoArrow (wired (some ['A', '-', '>', 'X']) none).cur.cfg.ownId ∧
    ∀ e ∈ (wired (some ['A', '-', '>', 'X']) none).directory, e.id ≠ ['X'] := by decide

/-- Slot `b` live or inert, with a peer, without a descriptor, with one without an arrow, with another source's (`toB`), with the
one that names slot `a`, with one whose target is absent, with one that names itself as target, and with one that names an
outside component, of each export. -/
theorem witness_ResolveLinksTheBlocks :
    ∀ d ∈ [none, some ['B'], some toB, some toA, some ['B', '-', '>', 'X'], some ['B', '-', '>', 'M', '.', 'B'],
      some ['B', '-', '>', 'D']],
    ∀ n ∈ [2, 3], ∀ r ∈ [none, some (Ref.ext ['D'])], ∀ e : Bool,
    ∃ s : State, s.cur.live = true ∧ s.cur.peer = none ∧
      s.cur.cfg.connection = some (s.cur.cfg.ownId ++ ['-', '>'] ++ ['M', '.', 'B']) ∧ NoArrow s.cur.cfg.ownId ∧
      lookupTarget s.directory ['M', '.', 'B'] = some (.port s.active.other) ∧
      (s.port s.active.other).live = decide (n = 2) ∧ (s.port s.active.other).peer = r ∧
      (s.port s.active.other).cfg.connection = d ∧ NoArrow (s.port s.active.other).cfg.ownId ∧
      (['A'] : Ident) ≠ (s.port s.active.other).cfg.ownId ∧
      lookupTarget s.directory ['M', '.', 'A'] = some (.port s.active) ∧ lookupTarget s.directory ['X'] = none ∧
      lookupTarget s.directory ['D'] = some (.ext ['D'] e e e) := by
  intro d _ n hn r _ e
  refine ⟨{ ((wired (some toB) d).modify .b fun p => { p with cfg := { p.cfg with adapter := n }, peer := r }) with
      directory := State.reset.directory ++ [⟨['D'], .ext ['D'] e e e⟩] },
    rfl, rfl, rfl, ?_, rfl, ?_, rfl, rfl, ?_, ?_, rfl, rfl, rfl⟩
  · show NoArrow ['A']; decide
  · show (n == 1 || n == 2) = decide (n = 2)
    revert n; decide
  · show NoArrow ['B']; decide
  · show (['A'] : Ident) ≠ ['B']; decide

/-- A component that exports everything, and one that exports no `receiveStatus`. -/
theorem witness_ResolveOutsideComponent : ∀ u : Bool, ∃ s : State,
    s.cur.live = true ∧ s.cur.peer = none ∧ s.cur.cfg.connection = some (s.cur.cfg.ownId ++ ['-', '>'] ++ ['X']) ∧
    NoArrow s.cur.cfg.ownId ∧ lookupTarget s.directory ['X'] = some (.ext ['X'] true true u) := by
  intro u
  refine ⟨{ wired (some ['A', '-', '>', 'X']) none with directory := [⟨['X'], .ext ['X'] true true u⟩] }, ?_⟩
  revert u; decide

theorem witness_ResolutionIsIdempotent :
    ∃ t, exec (.resolve true) (wired (some toB) none) = .next t ∧ t.cur.peer.isSome = true ∧
      (wired (some toB) none).cur.live = true := ⟨_, rfl, by decide, by decide⟩

/-- A free block with its own identifier and with another, and a block with a peer. -/
theorem witness_MouseAttaches :
    (State.reset.cur.live = true ∧ State.reset.cur.peer = none ∧ ['A'] = State.reset.cur.cfg.ownId) ∧
    ['B'] ≠ State.reset.cur.cfg.ownId ∧ (linked true 0x00).cur.peer.isSome = true := by decide

theorem witness_LinkPersists :
    (∃ t, exec .reset (linked true 0x00) = .next t) ∧ ((linked true 0x00).port .a).peer.isSome = true := ⟨⟨_, rfl⟩, by decide⟩

theorem witness_LinkOperationsWriteLinkStateOnly :
    (∃ t, exec (.resolve true) (wired (some toB) (some toA)) = .next t) ∧
    ∃ t, exec (.attachMouse ['A'] ['D'] ['C']) State.reset = .next t := ⟨⟨_, rfl⟩, _, rfl⟩

/-- Both conditions hold, one byte staged and none queued (V5). -/
theorem witness_ModemStatusReportedAfterReceive : ∃ s : State, s.cur.live = true ∧ s.cur.lsr.getLsbD 0 = true ∧
    s.cur.rxq = [] ∧ s.cur.ier.getLsbD 3 = true ∧ s.cur.msr.extractLsb' 0 4 ≠ 0#4 :=
  ⟨withA fun p => { p with ier := 0x09, lsr := 0x61, msr := 0xB8 }, by decide⟩

/-- Two blocks that differ in MCR, LCR and the other IER bits. -/
theorem witness_RequestDependsOnItsInputsOnly : ∃ s s' : State, s.cur.live = true ∧ s'.cur.live = true ∧
    s.cur.cfg.idRda = s'.cur.cfg.idRda ∧ s.cur.cfg.idMsi = s'.cur.cfg.idMsi ∧
    s.cur.lsr.getLsbD 0 = s'.cur.lsr.getLsbD 0 ∧ s.cur.rxq = s'.cur.rxq ∧ s.cur.msr = s'.cur.msr ∧
    s.cur.ier.getLsbD 0 = s'.cur.ier.getLsbD 0 ∧ s.cur.ier.getLsbD 3 = s'.cur.ier.getLsbD 3 ∧
    s.cur.iir = s'.cur.iir ∧ s.cur.mcr ≠ s'.cur.mcr ∧ s.cur.ier ≠ s'.cur.ier :=
  ⟨withA fun p => { p with ier := 0x09 }, withA fun p => { p with ier := 0xFF, mcr := 0x08, lcr := 0x80 }, by decide⟩

/-- An operation outside the excluded ones, for the statements that exclude some by name. -/
theorem witness_RequestMovesOnlyWithTheArbiter : (∃ t, exec (.wrLcr 0x80) s4 = .next t) ∧ Instr.wrLcr 0x80 ≠ .rdRbr ∧
    Instr.wrLcr 0x80 ≠ .rdDll ∧ Instr.wrLcr 0x80 ≠ .rdMsr ∧ (∀ v, Instr.wrLcr 0x80 ≠ .wrIer v) ∧
    (∀ v, Instr.wrLcr 0x80 ≠ .wrThr v) ∧ (∀ v, Instr.wrLcr 0x80 ≠ .wrMcr v) ∧ (∀ d, Instr.wrLcr 0x80 ≠ .rxpush d) ∧
    (∀ c d r l, Instr.wrLcr 0x80 ≠ .msin c d r l) ∧ Instr.wrLcr 0x80 ≠ .reset ∧
    ∀ x, Instr.wrLcr 0x80 ≠ .restore x := ⟨⟨_, rfl⟩, by simp⟩

theorem witness_ErrorBitsNeverRaised :
    (∃ t, exec .reset (withA fun p => { p with lsr := 0x7E }) = .next t) ∧
    ∃ t, exec (.wrThr 0x41) (withA fun p => { p with lsr := 0x7E }) = .next t := ⟨⟨_, rfl⟩, _, rfl⟩

theorem witness_TransmitterFlagsMoveTogether :
    (∃ t, exec (.wrThr 0x41) State.reset = .next t) ∧ ∃ t, exec .rdLsr State.reset = .next t := ⟨⟨_, rfl⟩, _, rfl⟩

/-- A delta bit set, and an operation that may not clear it. -/
theorem witness_DeltaBitsAreSticky :
    (∃ t, exec (.msin true false false true) (withA fun p => { p with msr := 0x24 }) = .next t) ∧
    ((withA fun p => { p with msr := 0x24 }).port .a).msr.getLsbD 2 = true := ⟨⟨_, rfl⟩, by decide⟩

/-- Below 1 and above 2; an empty slot. -/
theorem witness_InertBlockDoesNothing : emptyA.cur.stage = .absent ∧ ∀ n ∈ [0, 3], (withCfg fun c => { c with adapter := n }).cur.cfg.adapter ≠ 1 ∧
    (withCfg fun c => { c with adapter := n }).cur.cfg.adapter ≠ 2 := by decide

/-- An operation; a step of a powered block; and the construction of a block beside a live one. -/
theorem witness_ConfigurationIsFixed : (∃ t, exec .reset s4 = .next t) ∧
    (∃ t, step { s4 with pending := [.call .a .reset] } = .next t) ∧ (s4.port .a).stage = .powered ∧
    ∃ t, ({ emptyA with pending := [.construct .a (PortConfig.default 1 ['A'])] } : State).PortsExclusive ∧
      step { emptyA with pending := [.construct .a (PortConfig.default 1 ['A'])] } = .next t :=
  ⟨⟨_, rfl⟩, ⟨_, rfl⟩, rfl, _, (fun h => absurd h (by decide)), rfl⟩

/-- A consistent state with a byte staged, a request up and a consistent snapshot to be
restored and a block to be constructed, and its next step. -/
theorem witness_StepKeepsRegisterInvariants : ∃ s t : State, s.Consistent ∧ step s = .next t ∧ s.pending ≠ [] := by
  refine ⟨{ s4 with pending := [.access .a .read 0x3F8 0x00 none, .call .b (.restore State.reset.portA.snapshot),
    .construct .b (PortConfig.default 3 ['B'])] }, _, ⟨?_, ?_, ?_⟩, rfl, by decide⟩
  · intro ep; cases ep <;> decide
  · intro ep; cases ep <;> decide
  · intro r hr
    simp only [List.mem_cons, List.not_mem_nil, or_false] at hr
    rcases hr with rfl | rfl | rfl
    · trivial
    · intro p h
      cases h
      decide
    · exact ⟨rfl, rfl, rfl⟩

theorem witness_StepKeepsLinkState : (∀ q, ((linked true 0x00).port q).LinkSound q) ∧
    ∃ t, step { linked true 0x00 with pending := [.call .a (.resolve false [])] } = .next t :=
  ⟨fun q => by cases q <;> decide, _, rfl⟩

end Sys2Proof.Tests.Slice0
end

section
/-! PROOFS. What a step does with the first pending request, kind by kind, and where there is no operation to perform. -/

namespace Sys2Proof.Machine

/-- The ports a block claims (R61, R64). -/
theorem Port.claims_iff (p : Port) (port : Nat) :
    p.claims port = true ↔ p.live = true ∧ p.cfg.base ≤ port ∧ port < p.cfg.base + 8 := by
  simp [Port.claims]

/-- The adapters R200 knows. -/
theorem PortConfig.known_iff (c : PortConfig) : c.known = true ↔ c.adapter = 1 ∨ c.adapter = 2 := by
  simp [PortConfig.known]

/-! ### The fields of the answer to an unclaimed access (R64) -/

@[simp] theorem State.port_unclaimed (s : State) (dir : Dir) (q : Ep) : (s.unclaimed dir).port q = s.port q := by
  cases dir <;> simp [State.unclaimed]
@[simp] theorem State.events_unclaimed (s : State) (dir : Dir) : (s.unclaimed dir).events = s.events := by
  cases dir <;> rfl
@[simp] theorem State.directory_unclaimed (s : State) (dir : Dir) : (s.unclaimed dir).directory = s.directory := by
  cases dir <;> rfl
@[simp] theorem State.pending_unclaimed (s : State) (dir : Dir) : (s.unclaimed dir).pending = s.pending := by
  cases dir <;> rfl

/-! ### A step, by the first pending request -/

theorem step_of_pending_nil {s : State} (hp : s.pending = []) : step s = .next s := by
  simp [step, State.fetch, hp]

theorem step_wide {s : State} {ep : Ep} {dir : Dir} {port width : Nat} {rest : List Request}
    (hp : s.pending = .wide ep dir port width :: rest) : step s = .refused (.wideAccess width) := by
  simp [step, State.fetch, hp]

section Access
variable {s : State} {ep : Ep} {dir : Dir} {port : Nat} {data : Byte} {src : Option Nat} {rest : List Request}
  (hp : s.pending = .access ep dir port data src :: rest)
include hp

theorem step_access_unclaimed (hc : (s.port ep).claims port ≠ true) :
    step s = .next (State.unclaimed { s with active := ep, pending := rest } dir) := by
  rw [step, State.fetch_access hp rfl, if_neg hc]

theorem step_access_beforePowerUp (hc : (s.port ep).claims port = true) (hs : (s.port ep).stage ≠ .powered) :
    step s = .refused .beforePowerUp := by
  rw [step, State.fetch_access hp rfl, if_pos hc, if_neg hs]

end Access

/-- A construction that no machine performs is refused for its reason (R63, R201). -/
theorem step_construct_refused {s : State} {ep : Ep} {cfg : PortConfig} {rest : List Request} {r : Refusal}
    (hp : s.pending = .construct ep cfg :: rest)
    (hr : State.constructionRefusal { s with active := ep, pending := rest } ep cfg = some r) :
    step s = .refused r := by
  simp [step, State.fetch, hp, Request.ep, hr]

/-! ### Why a construction is refused -/

theorem State.constructionRefusal_of_present {s : State} {ep : Ep} (cfg : PortConfig)
    (hs : (s.port ep).stage ≠ .absent) : s.constructionRefusal ep cfg = some .constructedTwice :=
  if_pos hs

theorem State.constructionRefusal_of_absent {s : State} {ep : Ep} {cfg : PortConfig}
    (hs : (s.port ep).stage = .absent) (hw : s.windowFree ep cfg = false) :
    s.constructionRefusal ep cfg = some .windowTaken := by
  simp [State.constructionRefusal, hs, hw]

/-- The port conflicts of R63. -/
theorem State.windowFree_eq_false_iff (s : State) (ep : Ep) (cfg : PortConfig) :
    s.windowFree ep cfg = false ↔ cfg.known = true ∧ (¬ cfg.pairs.Exclusive ∨
      ((s.port ep.other).live = true ∧ (s.port ep.other).cfg.machine = cfg.machine ∧
        ((s.port ep.other).cfg.pairs ≠ cfg.pairs ∨ (s.port ep.other).cfg.adapter = cfg.adapter))) := by
  simp only [State.windowFree, Bool.or_eq_false_iff, Bool.and_eq_false_iff, Bool.not_eq_false', decide_eq_false_iff_not,
    bne_eq_false_iff_eq, beq_eq_false_iff_ne, and_assoc]

/-- Settles O4, request by request: nothing pending, a wide access, an access no block claims, an access before the first
power-up, and the two refused constructions. -/
theorem stepWithoutOperation : Obligations.StepWithoutOperation := by
  refine ⟨fun _ => step_of_pending_nil, fun _ _ _ _ _ _ => step_wide, ?unclaimed, ?beforePowerUp, ?construct⟩
  case unclaimed =>
    intro s ep dir port data src rest hp hout
    have hc : (s.port ep).claims port ≠ true := by
      rw [ne_eq, Port.claims_iff]
      rintro ⟨hlive, hlow, hhigh⟩
      rcases hout with hdead | hbelow | habove
      · simp [hlive] at hdead
      · omega
      · omega
    exact ⟨_, step_access_unclaimed hp hc, by simp, by simp, by simp, by simp⟩
  case beforePowerUp =>
    intro s ep dir port data src rest hp hlive hs hlow hhigh
    exact step_access_beforePowerUp hp ((Port.claims_iff _ _).mpr ⟨hlive, hlow, hhigh⟩) hs
  case construct =>
    intro s ep cfg rest hp
    constructor
    · intro hs
      exact step_construct_refused hp (State.constructionRefusal_of_present cfg (by simpa using hs))
    · intro hs hknown hconflict
      refine step_construct_refused hp (State.constructionRefusal_of_absent (by simpa using hs) ?_)
      rw [State.windowFree_eq_false_iff]
      exact ⟨(PortConfig.known_iff cfg).mpr hknown, by simpa using hconflict⟩

end Sys2Proof.Machine
end

section
/-! PROOFS. What every operation keeps of one register, of the link state and of what surrounds the blocks, and what a step
makes of the blocks. -/

namespace Sys2Proof.Machine

/-! ### The changes of a block that `Port.Respects` lists -/

/-- The arbiter writes IIR and the request level only, under both settings of the switch of decision D2. -/
theorem Port.rearbitrated_frame (p : Port) :
    p.rearbitrated = { p with iir := p.rearbitrated.iir, intr := p.rearbitrated.intr } := by
  unfold Port.rearbitrated
  split
  · exact p.arbitrated_frame
  · rfl

@[simp] theorem Port.rearbitrated_lsr (p : Port) : p.rearbitrated.lsr = p.lsr := by rw [p.rearbitrated_frame]
@[simp] theorem Port.rearbitrated_msr (p : Port) : p.rearbitrated.msr = p.msr := by rw [p.rearbitrated_frame]
@[simp] theorem Port.rearbitrated_cfg (p : Port) : p.rearbitrated.cfg = p.cfg := by rw [p.rearbitrated_frame]
@[simp] theorem Port.rearbitrated_peer (p : Port) : p.rearbitrated.peer = p.peer := by rw [p.rearbitrated_frame]
@[simp] theorem Port.rearbitrated_sendData (p : Port) : p.rearbitrated.sendData = p.sendData := by
  rw [p.rearbitrated_frame]
@[simp] theorem Port.rearbitrated_updateStatus (p : Port) : p.rearbitrated.updateStatus = p.updateStatus := by
  rw [p.rearbitrated_frame]

theorem Port.rearbitrated_of_switch {p : Port} (h : p.cfg.arbitrateOnAllInputs = true) :
    p.rearbitrated = p.arbitrated := if_pos h

/-- Of LSR staging sets DR at most (R141). -/
theorem Port.staged_lsr (p : Port) : p.staged.lsr = p.lsr ∨ p.staged.lsr = lsrDr p.lsr true := by
  unfold Port.staged
  split
  · exact .inl rfl
  · split
    · exact .inl rfl
    · exact .inr rfl

/-- Staging leaves a byte in the queue only behind a staged one (R42 (f)). -/
theorem Port.staged_rxq_nil {p : Port} (h : p.staged.dr = false) : p.staged.rxq = [] := by
  cases hq : p.rxq with
  | nil => rw [Port.staged_nil hq, hq]
  | cons b rest =>
    cases hd : p.dr with
    | true => rw [Port.staged_ready hd, hd] at h; cases h
    | false => rw [Port.staged_cons hq hd] at h; simp [Port.dr] at h

/-- A snapshot replaces neither the configuration nor the link state (R205). -/
theorem Port.restoredFrom_frame {p r : Port} {x : List Prim} (h : p.restoredFrom x = some r) :
    r.cfg = p.cfg ∧ r.peer = p.peer ∧ r.sendData = p.sendData ∧ r.updateStatus = p.updateStatus := by
  unfold Port.restoredFrom at h
  split at h
  · cases h; exact ⟨rfl, rfl, rfl, rfl⟩
  · cases h

/-! ### One register through every operation -/

/-- LSR changes by staging and taking a byte, by `WR.THR`, by `RESET` and by `RESTORE`, and by nothing else: a relation
that these changes respect, `RESTORE` left out, holds between LSR of each block before and after an operation. -/
theorem exec_relates_lsr {i : Instr} {s t : State} (h : exec i s = .next t) {R : Byte → Byte → Prop}
    (hrefl : ∀ l, R l l) (htrans : ∀ k l m, R k l → R l m → R k m) (hdr : ∀ l v, R l (lsrDr l v))
    (htx : (∃ v, i = .wrThr v) → ∀ l v, R l (lsrTx l v)) (hreset : i = .reset → ∀ l, R l 0x60)
    (hrestore : ∀ x, i ≠ .restore x) (q : Ep) : R (s.port q).lsr (t.port q).lsr := by
  have hstaged : ∀ p : Port, R p.lsr p.staged.lsr := by
    intro p
    rcases p.staged_lsr with e | e <;> rw [e]
    · exact hrefl _
    · exact hdr _ _
  refine exec_relates (R := fun p q => R p.lsr q.lsr) ?_ h
  exact {
    refl := fun _ => hrefl _
    trans := fun _ _ _ => htrans _ _ _
    take := fun _ p => by
      rw [Port.arbitrated_lsr]
      exact htrans _ _ _ (hdr p.lsr false) (hstaged { p with lsr := lsrDr p.lsr false })
    clear := fun _ p => by rw [Port.rearbitrated_lsr]; exact hrefl _
    thr := fun v hv _ => htx ⟨v, hv⟩ _ false
    accept := fun v hv _ => htx ⟨v, hv⟩ _ true
    sink := fun _ _ _ _ _ _ => hrefl _
    push := fun _ p d => by rw [Port.arbitrated_lsr]; exact hstaged { p with rxq := p.rxq ++ d }
    latch := fun _ _ _ => hrefl _
    enable := fun _ _ p => by rw [Port.rearbitrated_lsr]; exact hrefl _
    line := fun _ _ _ => hrefl _
    modem := fun _ _ _ => hrefl _
    inputs := fun _ p _ _ _ _ => by rw [Port.arbitrated_lsr]; exact hrefl _
    scratch := fun _ _ _ _ => hrefl _
    reset := fun hi _ => hreset hi _
    restore := fun x hi => absurd hi (hrestore x)
    link := fun _ p q hl => by rw [hl.2.1]; exact hrefl _ }

/-- MSR changes by `RD.MSR`, by the modem inputs (`MSIN` or a peer's `WR.MCR`), by `RESET` and by `RESTORE`, and by nothing
else. -/
theorem exec_relates_msr {i : Instr} {s t : State} (h : exec i s = .next t) {R : Byte → Byte → Prop}
    (hrefl : ∀ m, R m m) (htrans : ∀ k l m, R k l → R l m → R k m) (hclear : i = .rdMsr → ∀ m, R m (msrCleared m))
    (hinputs : (∃ v, i = .wrMcr v) ∨ (∃ c d r l, i = .msin c d r l) → ∀ m c d r l, R m (msrAfter m c d r l))
    (hreset : i = .reset → ∀ m, R m 0x30) (hrestore : ∀ x, i ≠ .restore x) (q : Ep) :
    R (s.port q).msr (t.port q).msr := by
  refine exec_relates (R := fun p q => R p.msr q.msr) ?_ h
  exact {
    refl := fun _ => hrefl _
    trans := fun _ _ _ => htrans _ _ _
    take := fun _ p => by rw [Port.arbitrated_msr, Port.staged_msr]; exact hrefl _
    clear := fun hi p => by rw [Port.rearbitrated_msr]; exact hclear hi _
    thr := fun _ _ _ => hrefl _
    accept := fun _ _ _ => hrefl _
    sink := fun _ _ _ _ _ _ => hrefl _
    push := fun _ p d => by rw [Port.arbitrated_msr, Port.staged_msr]; exact hrefl _
    latch := fun _ _ _ => hrefl _
    enable := fun _ _ p => by rw [Port.rearbitrated_msr]; exact hrefl _
    line := fun _ _ _ => hrefl _
    modem := fun _ _ _ => hrefl _
    inputs := fun hi p _ _ _ _ => by rw [Port.arbitrated_msr]; exact hinputs hi _ _ _ _ _
    scratch := fun _ _ _ _ => hrefl _
    reset := fun hi _ => hreset hi _
    restore := fun x hi => absurd hi (hrestore x)
    link := fun _ p q hl => by rw [hl.2.1]; exact hrefl _ }

/-! ### What surrounds the blocks -/

theorem State.SameAround.refl (s : State) : s.SameAround s := ⟨rfl, rfl, rfl⟩

theorem busRead_sameAround {s t u : State} {b : Byte} (h : busRead s t b = .next u) (ht : s.SameAround t) :
    s.SameAround u := by
  by_cases hl : s.cur.live = true
  · rw [busRead_live hl] at h; cases h; exact ht
  · rw [busRead_inert (by simpa using hl)] at h; cases h; exact ⟨rfl, rfl, rfl⟩

theorem busWrite_sameAround {s t u : State} (h : busWrite s t = .next u) (ht : s.SameAround t) : s.SameAround u := by
  by_cases hl : s.cur.live = true
  · rw [busWrite_live hl] at h; cases h; exact ht
  · rw [busWrite_inert (by simpa using hl)] at h; cases h; exact ⟨rfl, rfl, rfl⟩

theorem callEnd_sameAround {s t u : State} {r : Result} (h : callEnd s t r = .next u) (ht : s.SameAround t) :
    s.SameAround u := by
  by_cases hl : s.cur.live = true
  · rw [callEnd_live hl] at h; cases h; exact ht
  · rw [callEnd_inert (by simpa using hl)] at h; cases h; exact ⟨rfl, rfl, rfl⟩

theorem State.modify_sameAround (s : State) (ep : Ep) (f : Port → Port) : s.SameAround (s.modify ep f) :=
  ⟨by simp, by simp, by simp⟩

theorem State.resetPort_sameAround (s : State) (ep : Ep) : s.SameAround (s.resetPort ep) :=
  s.modify_sameAround ep Port.afterReset

theorem State.resolveLink_sameAround (fuel : Nat) (s : State) (ep : Ep) (flag : Bool) :
    s.SameAround (State.resolveLink fuel s ep flag).1 := by
  obtain ⟨-, hdir, hactive, hpending, -, -⟩ := State.resolveLink_frame fuel s ep flag
  exact ⟨hdir, hactive, hpending⟩

theorem State.attach_sameAround (s : State) (ep : Ep) (id device callback : Ident) :
    s.SameAround (s.attach ep id device callback).1 := by
  unfold State.attach
  split
  · exact .refl s
  · exact s.modify_sameAround ep _

/-- No operation changes the directory, the block acted on or what is pending (notes/assumptions/6 and 8). -/
theorem exec_sameAround {i : Instr} {s t : State} (h : exec i s = .next t) : s.SameAround t := by
  cases i with
  | rdRbr | rdDll => exact busRead_sameAround h ⟨by simp, by simp, by simp⟩
  | rdIer | rdDlm | rdIir | rdLcr | rdMcr | rdLsr | rdScr => exact busRead_sameAround h (.refl s)
  | rdMsr => exact busRead_sameAround h ⟨by simp, by simp, by simp⟩
  | wrThr | wrIer | wrMcr => exact busWrite_sameAround h ⟨by simp, by simp, by simp⟩
  | wrDll | wrDlm | wrLcr | wrScr => exact busWrite_sameAround h (s.modify_sameAround _ _)
  | wrX2 | wrX5 | wrX6 => exact busWrite_sameAround h (.refl s)
  | rxpush | msin => exact callEnd_sameAround h ⟨by simp, by simp, by simp⟩
  | reset => exact callEnd_sameAround h (s.resetPort_sameAround _)
  | save => exact callEnd_sameAround h (.refl s)
  | restore x =>
    simp only [exec, execRestore] at h
    split at h
    · exact callEnd_sameAround h (s.modify_sameAround _ _)
    · exact callEnd_sameAround h (.refl s)
  | resolve | connect => exact callEnd_sameAround h (s.resolveLink_sameAround _ _ _)
  | attachMouse => exact callEnd_sameAround h (s.attach_sameAround _ _ _ _)

/-! ### The blocks through a step -/

/-- `RESTORE` changes the block it is called on only, to one the snapshot gives (R205, R206). -/
theorem exec_restore_port {x : List Prim} {s t : State} (h : exec (.restore x) s = .next t) (q : Ep) :
    t.port q = s.port q ∨ (q = s.active ∧ (s.port q).restoredFrom x = some (t.port q)) := by
  simp only [exec, execRestore] at h
  cases hx : s.cur.restoredFrom x with
  | none => rw [hx] at h; exact .inl ((callEnd_port h q).elim id id)
  | some r =>
    rw [hx] at h
    rcases callEnd_port h q with e | e
    · by_cases hq : q = s.active
      · rw [State.port_modify, if_pos hq] at e
        subst hq
        exact .inr ⟨rfl, by rw [e]; exact hx⟩
      · rw [State.port_modify, if_neg hq] at e
        exact .inl e
    · exact .inl e

/-- A step as far as the blocks and the pending requests see it: an operation performed on the blocks as they were or just
powered up, a `RESTORE` being the call that stood first; a construction; or no block changed. -/
theorem step_blocks {s t : State} (h : step s = .next t) :
    (∃ r rest u i, s.pending = r :: rest ∧ exec i u = .next t ∧ u.pending = rest ∧
      (∀ q, ∃ stage, u.port q = { s.port q with stage := stage }) ∧
      (∀ x, i = .restore x → r = .call u.active (.restore x))) ∨
    (∃ ep cfg rest, s.pending = .construct ep cfg :: rest ∧ t.pending = rest ∧
      ∀ q, t.port q = if q = ep then Port.fresh cfg else s.port q) ∨
    ((∀ q, t.port q = s.port q) ∧ ∀ r ∈ t.pending, r ∈ s.pending) := by
  rcases step_cases h with ⟨r, rest, u, i, hp, hexec, hcall, hbus⟩ | ⟨ep, cfg, rest, hp, -, rfl⟩ | ⟨hports, -, -, hp⟩
  · refine .inl ⟨r, rest, u, i, hp, hexec, ?_⟩
    by_cases hr : ∃ ep c, r = .call ep c
    · obtain ⟨ep, c, rfl⟩ := hr
      obtain ⟨rfl, rfl⟩ := hcall ep c rfl
      refine ⟨by simp, fun q => ?_, fun x hx => ?_⟩
      · rw [State.port_calling, State.port_active_pending]
        split
        · exact ⟨_, rfl⟩
        · exact ⟨_, rfl⟩
      · cases c <;> cases hx
        simp
    · obtain ⟨hi, rfl, -, -⟩ := hbus fun ep c e => hr ⟨ep, c, e⟩
      exact ⟨rfl, fun q => ⟨(s.port q).stage, by simp⟩, fun x hx => by subst hx; cases hi⟩
  · exact .inr (.inl ⟨ep, cfg, rest, hp, by simp, fun q => by rw [State.port_construct, State.port_active_pending]⟩)
  · exact .inr (.inr ⟨hports, hp⟩)

/-! ### The state after `RESET` -/

/-- Settles O34: on a live block the call ends with `resetPort`, whose parts are read off. -/
theorem resetGivesDocumentedState : Obligations.ResetGivesDocumentedState := by
  intro s hlive
  refine ⟨_, callEnd_live hlive _ _, rfl, ⟨by simp, by simp [State.resetPort], s.resetPort_sameAround _⟩, ?_, ?_⟩
  · simp [State.resetPort, State.cur]
  · simp [State.cur, State.resetPort, Port.afterReset]

/-- Settles O39, block by block. -/
theorem machineAfterReset : Obligations.MachineAfterReset := by
  refine ⟨fun _ _ _ => ⟨by decide, by decide⟩, fun ep => ?_⟩
  cases ep <;> decide

/-! ### The laws of LSR and MSR -/

/-- Settles O52: staging moves DR and `WR.THR` moves THRE and TSRE, none of them one of the four error bits. -/
theorem errorBitsNeverRaised : Obligations.ErrorBitsNeverRaised := by
  constructor
  · intro i s t h hreset hrestore
    exact exec_relates_lsr h (R := fun l m => m.extractLsb' 1 4 = l.extractLsb' 1 4) (fun _ => rfl)
      (fun _ _ _ h₁ h₂ => h₂.trans h₁) lsrDr_errors (fun _ => lsrTx_errors) (fun hi => absurd hi hreset) hrestore
  · intro s t h q
    rcases callEnd_port h q with e | e
    · rw [e, State.port_resetPort]
      split
      · exact .inr (by simp [Port.afterReset])
      · exact .inl rfl
    · exact .inl (by rw [e])

/-- Settles O53: `WR.THR` and `RESET` give both flags one value, every other change of LSR leaves both. -/
theorem transmitterFlagsMoveTogether : Obligations.TransmitterFlagsMoveTogether := by
  constructor
  · intro i s t h hrestore
    refine exec_relates_lsr h (R := fun l m => (m.getLsbD 5 = l.getLsbD 5 ∧ m.getLsbD 6 = l.getLsbD 6) ∨
      m.getLsbD 5 = m.getLsbD 6) (fun _ => .inl ⟨rfl, rfl⟩) ?trans ?dr ?tx (fun _ _ => .inr (by decide)) hrestore
    case trans =>
      rintro k l m h₁ (⟨h5, h6⟩ | heq)
      · rw [h5, h6]; exact h₁
      · exact .inr heq
    case dr => intro l v; left; simp only [getLsbD_lsrDr]; simp
    case tx => intro _ l v; right; simp only [getLsbD_lsrTx]; simp
  · intro i s t h hthr hreset hrestore
    refine exec_relates_lsr h (R := fun l m => m.getLsbD 5 = l.getLsbD 5 ∧ m.getLsbD 6 = l.getLsbD 6)
      (fun _ => ⟨rfl, rfl⟩) (fun _ _ _ h₁ h₂ => ⟨h₂.1.trans h₁.1, h₂.2.trans h₁.2⟩) ?dr
      (fun ⟨v, hv⟩ => absurd hv (hthr v)) (fun hi => absurd hi hreset) hrestore
    case dr => intro l v; simp only [getLsbD_lsrDr]; simp

/-- The modem inputs clear no delta bit (R142). -/
theorem msrAfter_delta {m : Byte} {j : Nat} (hj : j < 4) (h : m.getLsbD j = true) (c d r l : Bool) :
    (msrAfter m c d r l).getLsbD j = true := by
  have : j = 0 ∨ j = 1 ∨ j = 2 ∨ j = 3 := by omega
  rw [getLsbD_msrAfter]
  rcases this with rfl | rfl | rfl | rfl <;> simp [h, -BitVec.getLsbD_eq_getElem]

/-- Settles O54: of the changes of MSR only `RD.MSR` clears deltas and only the modem inputs move levels. -/
theorem deltaBitsAreSticky : Obligations.DeltaBitsAreSticky := by
  constructor
  · intro i s t h hread hreset hrestore q j hj
    exact exec_relates_msr h (R := fun m n => m.getLsbD j = true → n.getLsbD j = true) (fun _ => id)
      (fun _ _ _ h₁ h₂ => h₂ ∘ h₁) (fun hi => absurd hi hread) (fun _ _ c d r l hm => msrAfter_delta hj hm c d r l)
      (fun hi => absurd hi hreset) hrestore q
  · intro i s t h hmsin hmcr hreset hrestore
    refine exec_relates_msr h (R := fun m n => n.extractLsb' 4 4 = m.extractLsb' 4 4) (fun _ => rfl)
      (fun _ _ _ h₁ h₂ => h₂.trans h₁) (fun _ => msrCleared_levels) ?inputs (fun hi => absurd hi hreset) hrestore
    case inputs =>
      rintro (⟨v, hv⟩ | ⟨c, d, r, l, hi⟩)
      · exact absurd hv (hmcr v)
      · exact absurd hi (hmsin c d r l)

end Sys2Proof.Machine
end

section
/-! PROOFS. The link state of R40 through every step. -/

namespace Sys2Proof.Machine

/-- The link state is sound where the three references are those of a sound block. -/
theorem Port.LinkSound.congr {ep : Ep} {p q : Port} (h : p.LinkSound ep) (hpeer : q.peer = p.peer)
    (hdata : q.sendData = p.sendData) (hstatus : q.updateStatus = p.updateStatus) : q.LinkSound ep := by
  rw [Port.LinkSound, hpeer, hdata, hstatus]
  exact h

/-- Only link management touches the link state, and it keeps it sound (`Port.LinkStep`). -/
theorem exec_keeps_linkSound {i : Instr} {s t : State} (h : exec i s = .next t) {q : Ep} (hs : (s.port q).LinkSound q) :
    (t.port q).LinkSound q := by
  refine exec_relates (R := fun p r => p.LinkSound q → r.LinkSound q) ?_ h hs
  exact {
    refl := fun _ => id
    trans := fun _ _ _ h₁ h₂ => h₂ ∘ h₁
    take := fun _ _ hp => hp.congr (by simp) (by simp) (by simp)
    clear := fun _ _ hp => hp.congr (by simp) (by simp) (by simp)
    thr := fun _ _ _ => id
    accept := fun _ _ _ => id
    sink := fun _ _ _ _ _ _ => id
    push := fun _ _ _ hp => hp.congr (by simp) (by simp) (by simp)
    latch := fun _ _ _ => id
    enable := fun _ _ _ hp => hp.congr (by simp) (by simp) (by simp)
    line := fun _ _ _ => id
    modem := fun _ _ _ => id
    inputs := fun _ _ _ _ _ _ hp => hp.congr (by simp) (by simp) (by simp)
    scratch := fun _ _ _ _ => id
    reset := fun _ _ => id
    restore := fun _ _ _ _ hr hp => by
      obtain ⟨-, hpeer, hdata, hstatus⟩ := Port.restoredFrom_frame hr
      exact hp.congr hpeer hdata hstatus
    link := fun _ _ _ hl => hl.2.2 }

/-- A block straight from construction is not linked (R40). -/
theorem Port.fresh_linkSound (cfg : PortConfig) (ep : Ep) : (Port.fresh cfg).LinkSound ep :=
  ⟨rfl, nofun, nofun, nofun, nofun⟩

/-- Settles O60: a step performs an operation on blocks whose power-up left the links alone, constructs a block without a
link, or changes no block. -/
theorem stepKeepsLinkState : Obligations.StepKeepsLinkState := by
  constructor
  · intro q
    cases q <;> decide
  · intro s t hs h q
    rcases step_blocks h with ⟨r, rest, u, i, -, hexec, -, hu, -⟩ | ⟨ep, cfg, rest, -, -, ht⟩ | ⟨ht, -⟩
    · obtain ⟨stage, e⟩ := hu q
      exact exec_keeps_linkSound hexec (by rw [e]; exact hs q)
    · rw [ht]
      split
      · exact Port.fresh_linkSound cfg q
      · exact hs q
    · rw [ht]
      exact hs q

end Sys2Proof.Machine
end

section
/-! PROOFS. The register invariants of R42 through every step. -/

namespace Sys2Proof.Machine

/-- The clauses of R42 that neither the arbiter nor staging establishes, and both keep: those on `IIR[7:3]` and on LSR. -/
abbrev Port.FieldsSound (p : Port) : Prop :=
  p.iir.extractLsb' 3 5 = 0#5 ∧ p.lsr.getLsbD 7 = false ∧ p.lsr.extractLsb' 1 4 = 0#4 ∧ p.tsre = p.thre

theorem Port.Consistent.fieldsSound {p : Port} (h : p.Consistent) : p.FieldsSound := by
  obtain ⟨hiir, -, -, -, -, h7, herr, htx, -⟩ := h
  exact ⟨hiir, h7, herr, htx⟩

theorem Port.Consistent.rxq_nil {p : Port} (h : p.Consistent) : p.dr = false → p.rxq = [] := by
  obtain ⟨-, -, -, -, -, -, -, -, hq⟩ := h
  exact hq

theorem Port.arbitrated_of_code {p : Port} {code : BitVec 2} (h : p.arbiterCode = some code) :
    p.arbitrated = { p with iir := iirMatched p.iir code, intr := true } := by
  rw [Port.arbitrated, h]

theorem Port.arbitrated_of_no_code {p : Port} (h : p.arbiterCode = none) :
    p.arbitrated = { p with iir := iirIdle p.iir, intr := false } := by
  rw [Port.arbitrated, h]

/-- The arbiter establishes (b) to (e) of R42 and keeps the rest (R222). -/
theorem Port.FieldsSound.arbitrated {p : Port} (h : p.FieldsSound) (hq : p.dr = false → p.rxq = []) :
    p.arbitrated.Consistent := by
  obtain ⟨hiir, h7, herr, htx⟩ := h
  have level_matched : ∀ c, true = !(iirMatched p.iir c).getLsbD 0 := fun c => by rw [iirMatched_noInt]; rfl
  by_cases hrda : p.condRda = true
  · have hn : ¬ p.condRda = false := by simp [hrda]
    rw [Port.arbitrated_of_code (code := p.cfg.idRda) (by simp [Port.arbiterCode, hrda])]
    exact ⟨(iirMatched_high _ _).trans hiir, iff_of_true (iirMatched_noInt _ _) (.inl hrda), fun _ => iirMatched_id _ _,
      fun h => absurd h hn, level_matched _, h7, herr, htx, hq⟩
  by_cases hmsi : p.condMsi = true
  · rw [Port.arbitrated_of_code (code := p.cfg.idMsi) (by simp [Port.arbiterCode, hrda, hmsi])]
    exact ⟨(iirMatched_high _ _).trans hiir, iff_of_true (iirMatched_noInt _ _) (.inr hmsi), fun h => absurd h hrda,
      fun _ _ => iirMatched_id _ _, level_matched _, h7, herr, htx, hq⟩
  · have hidle : (iirIdle p.iir).getLsbD 0 = true := iirIdle_noInt _
    have hn : ¬ (iirIdle p.iir).getLsbD 0 = false := by simp only [hidle]; decide
    rw [Port.arbitrated_of_no_code (by simp [Port.arbiterCode, hrda, hmsi])]
    exact ⟨(iirIdle_high _).trans hiir, iff_of_false hn (not_or_intro hrda hmsi), fun h => absurd h hrda,
      fun _ h => absurd h hmsi, (congrArg not hidle).symm, h7, herr, htx, hq⟩

/-- DR is none of the bits of `FieldsSound`. -/
theorem Port.FieldsSound.withDr {p : Port} (h : p.FieldsSound) (v : Bool) :
    { p with lsr := lsrDr p.lsr v }.FieldsSound := by
  obtain ⟨hiir, h7, herr, htx⟩ := h
  refine ⟨hiir, ?_, (lsrDr_errors _ _).trans herr, ?_⟩
  · rw [getLsbD_lsrDr]; exact h7
  · rw [Port.tsre, Port.thre, getLsbD_lsrDr, getLsbD_lsrDr]; exact htx

theorem Port.FieldsSound.staged {p : Port} (h : p.FieldsSound) : p.staged.FieldsSound := by
  rw [p.staged_frame]
  rcases p.staged_lsr with e | e <;> rw [e]
  · exact h
  · exact h.withDr true

/-- `Stage()` ends in a consistent block, whatever was queued before it (R141). -/
theorem Port.FieldsSound.staged_arbitrated {p : Port} (h : p.FieldsSound) : p.staged.arbitrated.Consistent :=
  h.staged.arbitrated Port.staged_rxq_nil

/-- `WR.THR` moves THRE and TSRE together (R34), on which R42 demands nothing more. -/
theorem Port.Consistent.withTx {p : Port} (h : p.Consistent) (b : Byte) (v : Bool) :
    { p with thr := b, lsr := lsrTx p.lsr v }.Consistent := by
  obtain ⟨hiir, hnoInt, hrda, hmsi, hintr, h7, herr, -, hq⟩ := h
  have hdr : (lsrTx p.lsr v).getLsbD 0 = p.lsr.getLsbD 0 := by rw [getLsbD_lsrTx]; rfl
  simp only [Port.Consistent, Port.condRda, Port.dr, Port.tsre, Port.thre, hdr, lsrTx_errors] at hnoInt hrda hmsi hq ⊢
  refine ⟨hiir, hnoInt, hrda, hmsi, hintr, ?_, herr, ?_, hq⟩
  · rw [getLsbD_lsrTx]; exact h7
  · rw [getLsbD_lsrTx, getLsbD_lsrTx]; rfl

/-- The values of R47 are consistent (R42). -/
theorem Port.afterReset_consistent (p : Port) : p.afterReset.Consistent := by
  have hrda : p.afterReset.condRda = false := by simp [Port.condRda, Port.erbfi, Port.afterReset]
  have hmsi : p.afterReset.condMsi = false := by simp [Port.condMsi, Port.edssi, Port.afterReset]
  rw [Port.Consistent, hrda, hmsi]
  simp [Port.noInt, Port.tsre, Port.thre, Port.afterReset]

/-- The condition codes of two configurations agree: the constants that R42 reads. -/
abbrev SameCodes (c d : PortConfig) : Prop := d.idRda = c.idRda ∧ d.idMsi = c.idMsi

theorem SameCodes.of_eq {c d : PortConfig} (h : d = c) : SameCodes c d := by
  rw [h]
  exact ⟨rfl, rfl⟩

/-- What a snapshot makes of a block is consistent where it is for another block with the same condition codes. -/
theorem Port.restoredFrom_consistent {p q : Port} {x : List Prim} (hcodes : SameCodes p.cfg q.cfg)
    (hp : ∀ r, p.restoredFrom x = some r → r.Consistent) (r : Port)
    (hr : q.restoredFrom x = some r) : r.Consistent := by
  unfold Port.restoredFrom at hr
  split at hr
  · cases hr
    have h := hp _ rfl
    rw [Port.Consistent] at h ⊢
    rw [hcodes.1, hcodes.2]
    exact h
  · cases hr

/-- R42 of one block, and the setting of the switch under which it is an invariant (decision D2). -/
abbrev Port.Arbitrating (p : Port) : Prop := p.Consistent ∧ p.cfg.arbitrateOnAllInputs = true

/-- Every operation keeps R42 on either block, where the snapshot of a `RESTORE` does. -/
theorem exec_keeps_consistent {i : Instr} {s t : State} (h : exec i s = .next t)
    (hload : ∀ x, i = .restore x → ∀ r, s.cur.restoredFrom x = some r → r.Consistent) {q : Ep}
    (hs : (s.port q).Arbitrating) : (t.port q).Consistent := by
  by_cases hi : ∃ x, i = .restore x
  · obtain ⟨x, rfl⟩ := hi
    rcases exec_restore_port h q with e | ⟨rfl, hr⟩
    · rw [e]; exact hs.1
    · exact hload x rfl _ hr
  refine (exec_relates (R := fun p r => p.Arbitrating → r.Arbitrating) ?_ h hs).1
  exact {
    refl := fun _ => id
    trans := fun _ _ _ h₁ h₂ => h₂ ∘ h₁
    take := fun _ _ ⟨hp, hc⟩ => ⟨(hp.fieldsSound.withDr false).staged_arbitrated, by simpa using hc⟩
    clear := fun _ p ⟨hp, hc⟩ => by
      rw [Port.rearbitrated_of_switch (p := { p with msr := msrCleared p.msr }) hc]
      exact ⟨Port.FieldsSound.arbitrated (p := { p with msr := msrCleared p.msr }) hp.fieldsSound hp.rxq_nil,
        by simpa using hc⟩
    thr := fun v _ _ ⟨hp, hc⟩ => ⟨hp.withTx v false, hc⟩
    accept := fun _ _ p ⟨hp, hc⟩ => ⟨hp.withTx p.thr true, hc⟩
    sink := fun _ _ _ _ _ _ => id
    push := fun _ p d ⟨hp, hc⟩ =>
      ⟨Port.FieldsSound.staged_arbitrated (p := { p with rxq := p.rxq ++ d }) hp.fieldsSound, by simpa using hc⟩
    latch := fun _ _ _ => id
    enable := fun v _ p ⟨hp, hc⟩ => by
      rw [Port.rearbitrated_of_switch (p := { p with ier := v }) hc]
      exact ⟨Port.FieldsSound.arbitrated (p := { p with ier := v }) hp.fieldsSound hp.rxq_nil, by simpa using hc⟩
    line := fun _ _ _ => id
    modem := fun _ _ _ => id
    inputs := fun _ p c d r l ⟨hp, hc⟩ =>
      ⟨Port.FieldsSound.arbitrated (p := { p with msr := msrAfter p.msr c d r l }) hp.fieldsSound hp.rxq_nil,
        by simpa using hc⟩
    scratch := fun _ _ _ _ => id
    reset := fun _ p ⟨_, hc⟩ => ⟨p.afterReset_consistent, hc⟩
    restore := fun x hx => absurd ⟨x, hx⟩ hi
    link := fun _ _ _ hl hp => by rw [hl.2.1]; exact hp }

/-- Two states with the same two condition codes in each slot load the same snapshots and constructions consistently. -/
theorem State.LoadsConsistent.congr {s t : State} {r : Request} (h : s.LoadsConsistent r)
    (hcodes : ∀ ep, SameCodes (s.port ep).cfg (t.port ep).cfg) : t.LoadsConsistent r := by
  cases r with
  | access => trivial
  | wide => trivial
  | construct ep cfg =>
    obtain ⟨hswitch, hr, hm⟩ := h
    exact ⟨hswitch, hr.trans (hcodes ep).1.symm, hm.trans (hcodes ep).2.symm⟩
  | call ep c =>
    cases c with
    | restore x => exact Port.restoredFrom_consistent (hcodes ep) h
    | _ => trivial

/-- A state is consistent where it comes from a consistent one with consistent blocks, the same condition codes and no new
pending request. -/
theorem State.Consistent.of_blocks {s t : State} (hs : s.Consistent) (hports : ∀ ep, (t.port ep).Arbitrating)
    (hcodes : ∀ ep, SameCodes (s.port ep).cfg (t.port ep).cfg) (hpending : ∀ r ∈ t.pending, r ∈ s.pending) :
    t.Consistent := by
  obtain ⟨-, -, hload⟩ := hs
  exact ⟨fun ep => (hports ep).1, fun ep => (hports ep).2, fun r hr => (hload r (hpending r hr)).congr hcodes⟩

/-- Settles O59: the blocks hold the values of R47, and nothing is pending. -/
theorem resetStateIsConsistent : Obligations.ResetStateIsConsistent := by
  refine ⟨fun ep => ?_, fun ep => ?_, nofun⟩
  · cases ep <;> exact Port.afterReset_consistent _
  · cases ep <;> rfl

/-- Settles O58, case by case of `step_blocks`: an operation keeps R42 on blocks that the power-up left consistent, a
construction puts the values of R47 under the constants of the machine in a slot, and otherwise no block changes. -/
theorem stepKeepsRegisterInvariants : Obligations.StepKeepsRegisterInvariants := by
  intro s t hs h
  obtain ⟨hcons, hswitch, hload⟩ := id hs
  have hblock : ∀ q, (s.port q).Arbitrating := fun q => ⟨hcons q, hswitch q⟩
  rcases step_blocks h with ⟨r, rest, u, i, hp, hexec, hrest, hu, hrestore⟩ | ⟨ep, cfg, rest, hp, hrest, ht⟩ | ⟨ht, hpend⟩
  · have hucfg : ∀ q, (u.port q).cfg = (s.port q).cfg := fun q => by obtain ⟨stage, e⟩ := hu q; rw [e]
    have htcfg : ∀ q, (t.port q).cfg = (s.port q).cfg := fun q => (exec_fixed hexec q).1.trans (hucfg q)
    have hublock : ∀ q, (u.port q).Arbitrating := fun q => by obtain ⟨stage, e⟩ := hu q; rw [e]; exact hblock q
    have hsnapshot : ∀ x, i = .restore x → ∀ p, u.cur.restoredFrom x = some p → p.Consistent := by
      intro x hx
      have hl := hload r (by simp [hp])
      rw [hrestore x hx] at hl
      exact Port.restoredFrom_consistent (.of_eq (hucfg _)) hl
    obtain ⟨-, -, hpending⟩ := exec_sameAround hexec
    refine hs.of_blocks (fun q => ⟨exec_keeps_consistent hexec hsnapshot (hublock q), ?_⟩) (fun q => .of_eq (htcfg q)) ?_
    · rw [htcfg]; exact hswitch q
    · rw [hpending, hrest, hp]; exact fun _ => List.mem_cons_of_mem _
  · obtain ⟨hswitch', hcodes⟩ := hload (.construct ep cfg) (by simp [hp])
    refine hs.of_blocks (fun q => ?_) (fun q => ?_) ?_
    · rw [ht]; split
      · exact ⟨Port.afterReset_consistent (Port.fresh cfg), hswitch'⟩
      · exact hblock q
    · rw [ht]; split
      · subst q; exact hcodes
      · exact .of_eq rfl
    · rw [hrest, hp]; exact fun _ => List.mem_cons_of_mem _
  · exact hs.of_blocks (fun q => by rw [ht]; exact hblock q) (fun q => .of_eq (by rw [ht])) hpend

end Sys2Proof.Machine
end

section
/-! PROOFS. A step that performs the first pending request: a byte access under the DLAB value of that moment, a call with its
directory and its power-up, the construction of a block. -/

namespace Sys2Proof.Machine

/-! ### A byte access -/

/-- A byte access of a powered-up block's window runs the operation of its key (R74, R82, R83). -/
theorem step_access_run {s : State} {ep : Ep} {dir : Dir} {port : Nat} {data : Byte} {src : Option Nat}
    {rest : List Request} (hp : s.pending = .access ep dir port data src :: rest)
    (hc : (s.port ep).claims port = true) (hs : (s.port ep).stage = .powered) :
    step s = exec (decodeKey ((s.port ep).accessKey dir port data)) { s with active := ep, pending := rest } := by
  rw [step, State.fetch_access hp rfl, if_pos hc, if_pos hs]

/-- The key of an access at an offset from the base address (R81, R82). -/
theorem Port.accessKey_offset (p : Port) (dir : Dir) (off : BitVec 3) (data : Byte) :
    p.accessKey dir (p.cfg.base + off.toNat) data = keyOf p.dlab (transWord dir off data) := by
  rw [Port.accessKey, Nat.add_sub_cancel_left, BitVec.ofNat_toNat, BitVec.setWidth_eq]

/-- A live block claims each of its eight offsets (R61). -/
theorem Port.claims_offset {p : Port} (h : p.live = true) (off : BitVec 3) :
    p.claims (p.cfg.base + off.toNat) = true := by
  have hoff := off.isLt
  exact (Port.claims_iff _ _).mpr ⟨h, by omega, by omega⟩

/-- An access at an offset of a live, powered-up block (R74, R82, R83). -/
theorem step_access_offset {s : State} {ep : Ep} {dir : Dir} {off : BitVec 3} {data : Byte} {src : Option Nat}
    {rest : List Request} (hlive : (s.port ep).live = true) (hs : (s.port ep).stage = .powered)
    (hp : s.pending = .access ep dir ((s.port ep).cfg.base + off.toNat) data src :: rest) :
    step s = exec (decodeKey (keyOf (s.port ep).dlab (transWord dir off data)))
      { s with active := ep, pending := rest } := by
  rw [step_access_run hp (Port.claims_offset hlive off) hs, Port.accessKey_offset]

/-- `OUT 3, v` is `WR.LCR` under both DLAB values (R84). -/
theorem decodeKey_wrLcr (dlab : Bool) (v : Byte) : decodeKey (keyOf dlab (transWord .write 3 v)) = .wrLcr v := by
  rw [transWord_write, decodeKey_keyOf]
  rfl

/-- Settles O2: the block claims the port and is powered up, so that the step runs the operation of the access's key. -/
theorem stepRunsDecodedTransaction : Obligations.StepRunsDecodedTransaction :=
  fun _ _ _ _ _ _ _ hp hlive hs hlow hhigh => step_access_run hp ((Port.claims_iff _ _).mpr ⟨hlive, hlow, hhigh⟩) hs

/-- A step whose first request is a byte access, in full: the source address does not stand in the outcome (R64, R67, R208). -/
theorem step_access {s : State} {ep : Ep} {dir : Dir} {port : Nat} {data : Byte} {src : Option Nat}
    {rest : List Request} (hp : s.pending = .access ep dir port data src :: rest) :
    step s =
      if (s.port ep).claims port = true then
        if (s.port ep).stage = .powered then
          exec (decodeKey ((s.port ep).accessKey dir port data)) { s with active := ep, pending := rest }
        else .refused .beforePowerUp
      else .next (State.unclaimed { s with active := ep, pending := rest } dir) := by
  split
  · rename_i hc
    split
    · rename_i hs; exact step_access_run hp hc hs
    · rename_i hs; exact step_access_beforePowerUp hp hc hs
  · rename_i hc; exact step_access_unclaimed hp hc

/-- Settles O9: the two states have the same outcome by `step_access`. -/
theorem sourceAddressChangesNothing : Obligations.SourceAddressChangesNothing := by
  intro s ep dir port data src src' rest
  have hstep := fun x => step_access (s := { s with pending := .access ep dir port data x :: rest }) rfl
  simp only [State.port_pending] at hstep
  rw [hstep, hstep]

/-- `OUT 3, v` on a live, powered-up block stores `v` in LCR, and the next request stands first (R74, R125). -/
theorem step_writeLcr {s : State} {ep : Ep} {v : Byte} {src : Option Nat} {rest : List Request}
    (hlive : (s.port ep).live = true) (hs : (s.port ep).stage = .powered)
    (hp : s.pending = .access ep .write ((s.port ep).cfg.base + 3) v src :: rest) :
    ∃ t, step s = .next t ∧ t.port ep = { s.port ep with lcr := v } ∧ t.active = ep ∧ t.pending = rest := by
  have hrun := step_access_offset (off := 3) hlive hs hp
  rw [decodeKey_wrLcr] at hrun
  exact ⟨_, hrun.trans (busWrite_live (by simpa [State.cur] using hlive) _), by simp, by simp, by simp⟩

/-- Settles O8: the first step leaves LCR at `v` and the block live and powered up where it stood, so that the second access
is decoded with bit 7 of `v`. -/
theorem dlabTakesEffectAtNextTransaction : Obligations.DlabTakesEffectAtNextTransaction := by
  intro s ep v data dir off src src' rest hlive hs hp
  obtain ⟨t, hfirst, hport, hactive, hpending⟩ := step_writeLcr hlive hs hp
  have hsecond : step t = exec (decodeKey (keyOf (t.port ep).dlab (transWord dir off data)))
      { t with active := ep, pending := rest } :=
    step_access_offset (by rw [hport]; exact hlive) (by rw [hport]; exact hs) (by rw [hport]; exact hpending)
  refine ⟨t, hfirst, by rw [hport], ?_⟩
  rw [hsecond, hport, ← hactive]
  rfl

/-! ### A call -/

/-- A call runs with its directory and its power-up (R71, R181, R208). -/
theorem step_call {s : State} {ep : Ep} {c : Call} {rest : List Request} (hp : s.pending = .call ep c :: rest) :
    step s = exec c.toInstr (State.calling { s with active := ep, pending := rest } ep c) := by
  simp only [step, State.fetch, hp, Request.ep]

/-! ### A construction -/

/-- A construction that no rule excludes is performed by the step itself (R63, R200, R201). -/
theorem step_construct {s : State} {ep : Ep} {cfg : PortConfig} {rest : List Request}
    (hp : s.pending = .construct ep cfg :: rest)
    (hr : State.constructionRefusal { s with active := ep, pending := rest } ep cfg = none) :
    step s = .next (State.construct { s with active := ep, pending := rest } ep cfg) := by
  simp [step, State.fetch, hp, Request.ep, hr]

/-- A construction in an empty slot that brings no port conflict is not refused (R63, R201). -/
theorem State.constructionRefusal_none {s : State} {ep : Ep} {cfg : PortConfig} (hs : (s.port ep).stage = .absent)
    (hx : cfg.pairs.Exclusive) (hother : (s.port ep.other).live = true → (s.port ep.other).cfg.machine = cfg.machine →
      (s.port ep.other).cfg.pairs = cfg.pairs ∧ (s.port ep.other).cfg.adapter ≠ cfg.adapter) :
    s.constructionRefusal ep cfg = none := by
  have hw : s.windowFree ep cfg = true := by
    rw [← Bool.not_eq_false, State.windowFree_eq_false_iff]
    rintro ⟨-, hn | ⟨hl, hm, hconflict⟩⟩
    · exact hn hx
    · obtain ⟨hpairs, hadapter⟩ := hother hl hm
      exact hconflict.elim (absurd hpairs) hadapter
  simp [State.constructionRefusal, hs, hw]

/-- A constructed block is live exactly where R200 knows its adapter. -/
theorem Port.fresh_live (cfg : PortConfig) : (Port.fresh cfg).live = cfg.known := rfl

/-- Construction with adapter 1 or 2 succeeds and makes no call (R200). -/
theorem State.construct_known (s : State) (ep : Ep) {cfg : PortConfig} (h : cfg.known = true) :
    s.construct ep cfg = (s.modify ep fun _ => Port.fresh cfg).returning .constructed := by
  simp [State.construct, Port.fresh_live, h]

/-- Construction with another adapter returns and reports a `ConfigurationError` (R200, R235). -/
theorem State.construct_unknown (s : State) (ep : Ep) {cfg : PortConfig} (h : cfg.known = false) :
    s.construct ep cfg =
      ((s.modify ep fun _ => Port.fresh cfg).emit (.configurationError ep)).returning .configurationError := by
  simp [State.construct, Port.fresh_live, h]

/-- Settles O3: the calls by `step_call`, case by case of what `State.calling` does before them; the construction by
`step_construct`, its success and its failure apart. -/
theorem stepRunsPendingCall : Obligations.StepRunsPendingCall := by
  refine ⟨?plain, ?power, ?resolve, ?construct⟩
  case plain =>
    intro s ep c rest hp hresolve hconnect hreset hrestore
    rw [step_call hp]
    cases c with
    | resolve f d => exact absurd rfl (hresolve f d)
    | connect f d => exact absurd rfl (hconnect f d)
    | reset => exact absurd rfl hreset
    | restore x => exact absurd rfl (hrestore x)
    | rxpush | msin | save | attachMouse => rfl
  case power =>
    intro s ep snapshot rest
    refine ⟨State.modify { s with active := ep, pending := rest } ep Port.poweredUp,
      by simp [Port.poweredUp], by simp, by simp, by simp, by simp, by simp, ?_, ?_⟩
    · intro hp; rw [step_call hp]; rfl
    · intro hp; rw [step_call hp]; rfl
  case resolve =>
    intro s ep flag directory rest
    constructor
    · intro hp; rw [step_call hp]; rfl
    · intro hp; rw [step_call hp]; rfl
  case construct =>
    intro s ep cfg rest hp hs hx hother
    have hr : State.constructionRefusal { s with active := ep, pending := rest } ep cfg = none :=
      State.constructionRefusal_none (by simpa using hs) hx (by simpa using hother)
    refine ⟨_, step_construct hp hr, by simp, by simp, by simp [State.port_construct], ?_⟩
    rw [State.port_construct, if_pos rfl]
    refine ⟨rfl, rfl, fun h => ?_, fun h => ?_, rfl, rfl, rfl, rfl, rfl, rfl, rfl, rfl, rfl, rfl, fun h => ?_,
      fun h1 h2 => ?_⟩
    · simp [Port.fresh, PortConfig.base, PortConfig.irqLine, h]
    · simp [Port.fresh, PortConfig.base, PortConfig.irqLine, h]
    · have hknown := (PortConfig.known_iff cfg).mpr h
      rw [State.construct_known _ _ hknown]
      exact ⟨rfl, by simp, hknown⟩
    · have hunknown : cfg.known = false := by simp [PortConfig.known, h1, h2]
      rw [State.construct_unknown _ _ hunknown]
      exact ⟨rfl, by simp, hunknown⟩

end Sys2Proof.Machine
end

section
/-! PROOFS. What an operation leaves alone: everything where the block is inert, the frame of the ten reads, and how far the
life of a block moves in a step. -/

namespace Sys2Proof.Machine

/-! ### An inert block or an empty slot -/

/-- A block is not live where its slot is empty or its adapter is none that R200 knows. -/
theorem Port.live_eq_false_iff (p : Port) :
    p.live = false ↔ (p.cfg.adapter ≠ 1 ∧ p.cfg.adapter ≠ 2) ∨ p.stage = .absent := by
  rw [Port.live, Bool.and_eq_false_iff, or_comm]
  simp [PortConfig.known]

/-- On a block that is not live a read is answered as one of an unclaimed port, and any other operation returns at once
(R64, R200, decision D33). -/
theorem exec_inert {s : State} (h : s.cur.live = false) (i : Instr) :
    exec i s = .next s.unclaimedRead ∨ ∃ r, exec i s = .next (s.returning r) := by
  cases i with
  | rdRbr | rdDll | rdIer | rdDlm | rdIir | rdLcr | rdMcr | rdLsr | rdMsr | rdScr => exact .inl (busRead_inert h _ _)
  | wrThr | wrDll | wrIer | wrDlm | wrX2 | wrLcr | wrMcr | wrX5 | wrX6 | wrScr => exact .inr ⟨_, busWrite_inert h _⟩
  | rxpush | msin | reset | save | resolve | connect | attachMouse => exact .inr ⟨_, callEnd_inert h _ _⟩
  | restore x =>
    simp only [exec, execRestore]
    split
    · exact .inr ⟨_, callEnd_inert h _ _⟩
    · exact .inr ⟨_, callEnd_inert h _ _⟩

/-- Settles O56: neither answer of `exec_inert` touches a block, the history or what surrounds the blocks. -/
theorem inertBlockDoesNothing : Obligations.InertBlockDoesNothing := by
  intro i s h
  rcases exec_inert ((Port.live_eq_false_iff _).mpr h) i with e | ⟨r, e⟩
  · exact ⟨_, e, State.port_unclaimedRead s, rfl, exec_sameAround e⟩
  · exact ⟨_, e, State.port_returning s r, rfl, exec_sameAround e⟩

/-! ### The ten reads -/

/-- `Stage()` writes RBR, the queue, LSR and what the arbiter writes (R141). -/
theorem Port.staged_arbitrated_frame (p : Port) :
    p.staged.arbitrated = { p with
      rbr := p.staged.arbitrated.rbr, rxq := p.staged.arbitrated.rxq, lsr := p.staged.arbitrated.lsr
      iir := p.staged.arbitrated.iir, intr := p.staged.arbitrated.intr } := by
  have hs := p.staged_frame
  have ha := p.staged.arbitrated_frame
  generalize p.staged.arbitrated = r at ha ⊢
  generalize p.staged = q at hs ha
  rw [ha, hs]

/-- Staging leaves the upper seven bits of LSR (R141). -/
theorem Port.staged_lsr_rest (p : Port) : p.staged.lsr.extractLsb' 1 7 = p.lsr.extractLsb' 1 7 := by
  rcases p.staged_lsr with e | e <;> rw [e]
  exact lsrDr_rest _ _

/-- What a read does: at offset 0 it takes the received byte, the read of MSR clears the deltas, and any other read, and any
read of an inert block, changes no block and makes no call (R68, R101 to R110). -/
theorem exec_read_cases {i : Instr} {s t : State}
    (hi : i ∈ [Instr.rdRbr, .rdDll, .rdIer, .rdDlm, .rdIir, .rdLcr, .rdMcr, .rdLsr, .rdMsr, .rdScr])
    (h : exec i s = .next t) :
    ((i = .rdRbr ∨ i = .rdDll) ∧ ∀ q, t.port q = (s.takeByte s.active).port q) ∨
    (i = .rdMsr ∧ ∀ q, t.port q =
      ((s.modify s.active fun p => { p with msr := msrCleared p.msr }).rearbitrate s.active).port q) ∨
    ((∀ q, t.port q = s.port q) ∧ t.events = s.events) := by
  by_cases hl : s.cur.live = true
  · cases i with
    | rdRbr | rdDll =>
      cases (busRead_live hl _ _).symm.trans h
      exact .inl ⟨by simp, State.port_returning _ _⟩
    | rdMsr =>
      cases (busRead_live hl _ _).symm.trans h
      exact .inr (.inl ⟨rfl, State.port_returning _ _⟩)
    | rdIer | rdDlm | rdIir | rdLcr | rdMcr | rdLsr | rdScr =>
      cases (busRead_live hl _ _).symm.trans h
      exact .inr (.inr ⟨State.port_returning _ _, rfl⟩)
    | _ => simp at hi
  · rcases exec_inert (by simpa using hl) i with e | ⟨r, e⟩
    · cases e.symm.trans h; exact .inr (.inr ⟨State.port_unclaimedRead s, rfl⟩)
    · cases e.symm.trans h; exact .inr (.inr ⟨State.port_returning s r, rfl⟩)

/-- The frame of a read in one block, `p` before and `q` after it (R68). -/
def Port.ReadFrame (i : Instr) (p q : Port) : Prop :=
  q = { p with rbr := q.rbr, rxq := q.rxq, lsr := q.lsr, msr := q.msr, iir := q.iir, intr := q.intr } ∧
  q.lsr.extractLsb' 1 7 = p.lsr.extractLsb' 1 7 ∧ q.msr.extractLsb' 4 4 = p.msr.extractLsb' 4 4 ∧
  (i ≠ .rdRbr ∧ i ≠ .rdDll → q.rbr = p.rbr ∧ q.rxq = p.rxq ∧ q.lsr = p.lsr) ∧ (i ≠ .rdMsr → q.msr = p.msr)

theorem Port.ReadFrame.refl (i : Instr) (p : Port) : p.ReadFrame i p :=
  ⟨rfl, rfl, rfl, fun _ => ⟨rfl, rfl, rfl⟩, fun _ => rfl⟩

/-- A read of offset 0 takes the received byte (R68, R101). -/
theorem Port.readFrame_take {i : Instr} (hi : i = .rdRbr ∨ i = .rdDll) (p : Port) :
    p.ReadFrame i { p with lsr := lsrDr p.lsr false }.staged.arbitrated := by
  refine ⟨?_, ?_, by simp, fun ⟨h1, h2⟩ => absurd hi (by simp [h1, h2]), fun _ => by simp⟩
  · rw [Port.staged_arbitrated_frame]
  · rw [Port.arbitrated_lsr, Port.staged_lsr_rest]; exact lsrDr_rest _ _

/-- The read of MSR clears the deltas (R109). -/
theorem Port.readFrame_clear (p : Port) : p.ReadFrame .rdMsr { p with msr := msrCleared p.msr }.rearbitrated := by
  rw [Port.rearbitrated_frame]
  exact ⟨rfl, rfl, msrCleared_levels _, fun _ => ⟨rfl, rfl, rfl⟩, fun h => absurd rfl h⟩

/-- Settles O14: the frame of the block read in each of the three ways a read can go, and the other block untouched. -/
theorem portReadFrame : Obligations.PortReadFrame := by
  intro i s t hi h
  obtain ⟨hdirectory, hactive, hpending⟩ := exec_sameAround h
  have hblocks : t.port s.active.other = s.port s.active.other ∧ s.cur.ReadFrame i t.cur ∧
      (i ≠ .rdRbr ∧ i ≠ .rdDll ∧ i ≠ .rdMsr → t.cur = s.cur ∧ t.events = s.events) := by
    rw [State.cur, State.cur, hactive]
    rcases exec_read_cases hi h with ⟨hoff, hports⟩ | ⟨rfl, hports⟩ | ⟨hports, hevents⟩
    · simp only [hports, State.port_takeByte, Ep.other_ne, if_true, if_false]
      exact ⟨trivial, Port.readFrame_take hoff _, fun ⟨h1, h2, _⟩ => absurd hoff (by simp [h1, h2])⟩
    · simp only [hports, State.port_rearbitrate_if, State.port_modify, Ep.other_ne, if_true, if_false]
      exact ⟨trivial, Port.readFrame_clear _, fun ⟨_, _, h3⟩ => absurd rfl h3⟩
    · rw [hports, hports]
      exact ⟨rfl, Port.ReadFrame.refl i _, fun _ => ⟨rfl, hevents⟩⟩
  obtain ⟨hother, ⟨hcur, hlsr, hmsr, hreceive, hdeltas⟩, hplain⟩ := hblocks
  exact ⟨⟨hdirectory, hactive, hpending⟩, hother, hcur, hlsr, hmsr, hreceive, hdeltas, hplain⟩

/-! ### How far the life of a block moves -/

/-- From `p` to `q` a block keeps its configuration, is neither built nor taken away, and does not lose its power-up
(R200, R201, R208). -/
def Port.Ages (p q : Port) : Prop :=
  q.cfg = p.cfg ∧ (q.stage = .absent ↔ p.stage = .absent) ∧ (p.stage = .powered → q.stage = .powered)

theorem Port.Ages.refl (p : Port) : p.Ages p := ⟨rfl, .rfl, id⟩

theorem Port.Ages.of_fixed {p q : Port} (h : q.cfg = p.cfg ∧ q.stage = p.stage) : p.Ages q :=
  ⟨h.1, by rw [h.2], fun hp => h.2.trans hp⟩

theorem Port.Ages.trans {p q r : Port} (h : p.Ages q) (h' : q.Ages r) : p.Ages r :=
  ⟨h'.1.trans h.1, h'.2.1.trans h.2.1, h'.2.2 ∘ h.2.2⟩

/-- A power-up leaves an empty slot empty (R208). -/
theorem Port.ages_poweredUp (p : Port) : p.Ages p.poweredUp := by
  by_cases h : p.stage = .absent <;> simp [Port.Ages, Port.poweredUp, h]

theorem State.ages_calling (s : State) (ep : Ep) (c : Call) (q : Ep) : (s.port q).Ages ((s.calling ep c).port q) := by
  rw [State.port_calling]
  split
  · exact Port.ages_poweredUp _
  · exact .refl _

/-- Whether a block is live its configuration and its being there decide (R200). -/
theorem Port.Ages.live {p q : Port} (h : p.Ages q) : q.live = p.live := by
  obtain ⟨hcfg, hthere, -⟩ := h
  have : (q.stage != .absent) = (p.stage != .absent) := by rw [Bool.eq_iff_iff]; simp [hthere]
  rw [Port.live, Port.live, hcfg, this]

/-- A step constructs a block in an empty slot, without a port conflict, and touches no other; or it builds none, and each
block ages (R63, R201, R208). -/
theorem step_ages {s t : State} (h : step s = .next t) :
    (∃ ep, (s.port ep).stage = .absent ∧ (∀ q, q ≠ ep → t.port q = s.port q) ∧ t.PortsExclusive) ∨
    ∀ q, (s.port q).Ages (t.port q) := by
  rcases step_cases h with ⟨r, rest, u, i, -, hexec, hcall, hbus⟩ | ⟨ep, cfg, rest, -, hr, rfl⟩ | ⟨hports, -⟩
  · right
    intro q
    refine .trans (q := u.port q) ?_ (.of_fixed (exec_fixed hexec q))
    by_cases hc : ∃ ep c, r = .call ep c
    · obtain ⟨ep, c, rfl⟩ := hc
      obtain ⟨-, rfl⟩ := hcall ep c rfl
      simpa using State.ages_calling { s with active := ep, pending := rest } ep c q
    · obtain ⟨-, rfl, -⟩ := hbus fun ep c e => hc ⟨ep, c, e⟩
      rw [State.port_active_pending]
      exact .refl _
  · left
    obtain ⟨hs, hexclusive⟩ := State.construct_exclusive hr
    exact ⟨ep, by simpa using hs, fun q hq => by simp [State.port_construct, hq], hexclusive⟩
  · right
    intro q
    rw [hports]
    exact .refl _

/-- R63 speaks of the configurations of live blocks only. -/
theorem State.PortsExclusive.of_ages {s t : State} (hs : s.PortsExclusive) (h : ∀ q, (s.port q).Ages (t.port q)) :
    t.PortsExclusive := by
  rw [State.PortsExclusive, (h .a).live, (h .b).live, (h .a).1, (h .b).1]
  exact hs

/-- Settles O57: an operation moves neither configuration nor life stage, and in a step each block ages, but for a block
constructed in an empty slot without a port conflict. -/
theorem configurationIsFixed : Obligations.ConfigurationIsFixed := by
  refine ⟨fun i s t h => ⟨exec_fixed h, exec_sameAround h⟩, ?kept, ?exclusive⟩
  case kept =>
    intro s t q h hthere
    rcases step_ages h with ⟨ep, hempty, hrest, -⟩ | hages
    · have hq : q ≠ ep := fun e => hthere (e ▸ hempty)
      rw [hrest q hq]
      exact ⟨rfl, hthere, id⟩
    · obtain ⟨hcfg, hstage, hpowered⟩ := hages q
      exact ⟨hcfg, mt hstage.mp hthere, hpowered⟩
  case exclusive =>
    intro s t hs h
    rcases step_ages h with ⟨-, -, -, hexclusive⟩ | hages
    · exact hexclusive
    · exact hs.of_ages hages

end Sys2Proof.Machine
end

section
/-! PROOFS. `WR.THR` where the peer is the other block: the byte is delivered there inside the write. -/

namespace Sys2Proof.Machine

/-- A live block that is another one takes the byte as its `RXPUSH` and accepts it (R144, R161, decision D18). -/
theorem State.peerDeliver_block {s : State} {ep q : Ep} {r : Ref} (hpeer : (s.port ep).peer = some r)
    (hsend : (s.port ep).sendData = some (.port q)) (hlive : (s.port q).live = true) (hq : q ≠ ep) (v : Byte) :
    s.peerDeliver ep v = ((s.emit (.receiveData ep (.port q) v)).rxPush q [v], true) := by
  simp [State.peerDeliver, hpeer, hsend, hlive, hq]

/-- `WR.THR` draws the free values that its peer's part draws (R161). -/
theorem State.draws_transmit {s : State} {ep : Ep} {v : Byte} {d : State × Bool}
    (hd : (s.modify ep fun p => { p with thr := v, lsr := lsrTx p.lsr false }).peerDeliver ep v = d) :
    (s.transmit ep v).draws = d.1.draws := by
  unfold State.transmit State.deliver
  dsimp only
  rw [hd]
  split <;> simp

/-- Of the two writes of the transmitter's flags the second one counts (R34). -/
theorem lsrTx_lsrTx (l : Byte) (u v : Bool) : lsrTx (lsrTx l u) v = lsrTx l v := by
  apply BitVec.eq_of_getLsbD_eq
  intro j _
  simp only [getLsbD_lsrTx]
  split <;> rfl

/-! ### The two blocks -/

/-- The sending block after its byte was accepted: the byte in THR, the local sink's part, THRE and TSRE set (R120). -/
def Port.transmitted (p : Port) (v : Byte) : Port :=
  { { p with thr := v, lsr := lsrTx p.lsr false }.sunk v with lsr := lsrTx p.lsr true }

/-- The sender changes in THR, LSR and its sink state only (R120). -/
theorem Port.transmitted_frame (p : Port) (v : Byte) :
    p.transmitted v = { p with
      thr := v, lsr := lsrTx p.lsr true
      logbuf := (p.transmitted v).logbuf, column := (p.transmitted v).column, surface := (p.transmitted v).surface } := by
  simp only [Port.transmitted]
  rw [Port.sunk_frame]

/-- The local sink reads nothing that the write has changed before it (R163). -/
theorem Port.transmitted_took (p : Port) (v : Byte) : p.SinkTook v (p.transmitted v) :=
  Port.sunk_took { p with thr := v, lsr := lsrTx p.lsr false } v

/-- The receiving block: the bytes queued, then `Stage()` (R140). -/
def Port.pushed (p : Port) (data : List Byte) : Port := { p with rxq := p.rxq ++ data }.staged.arbitrated

/-- A push writes the receive path and what the arbiter writes (R140, R141). -/
theorem Port.pushed_frame (p : Port) (data : List Byte) :
    p.pushed data = { p with
      rbr := (p.pushed data).rbr, rxq := (p.pushed data).rxq, lsr := (p.pushed data).lsr
      iir := (p.pushed data).iir, intr := (p.pushed data).intr } :=
  Port.staged_arbitrated_frame { p with rxq := p.rxq ++ data }

/-- `Stage()` ends in the arbiter (R141). -/
theorem Port.pushed_arbiterRan (p : Port) (data : List Byte) : (p.pushed data).ArbiterRan p.iir := by
  have h := Port.arbitrated_arbiterRan { p with rxq := p.rxq ++ data }.staged
  rwa [Port.staged_iir] at h

/-- `WR.THR` on the block in slot `ep`, linked to the live block in slot `q`: both blocks, the history and the free values
(R120, R161). -/
theorem State.transmit_block {s : State} {ep q : Ep} {r : Ref} (hpeer : (s.port ep).peer = some r)
    (hsend : (s.port ep).sendData = some (.port q)) (hlive : (s.port q).live = true) (hq : q ≠ ep) (v : Byte) :
    (s.transmit ep v).port ep = (s.port ep).transmitted v ∧ (s.transmit ep v).port q = (s.port q).pushed [v] ∧
    (s.transmit ep v).events = s.events ++
      [.receiveData ep (.port q) v, ((s.port q).pushed [v]).irqCall q] ++ (s.port ep).sinkLines ep v ∧
    (s.transmit ep v).draws = s.draws := by
  have hd := State.peerDeliver_block (s := s.modify ep fun p => { p with thr := v, lsr := lsrTx p.lsr false })
    (by simpa using hpeer) (by simpa using hsend) (by simpa [hq] using hlive) hq v
  refine ⟨?_, ?_, ?_, ?_⟩
  · rw [State.port_transmit hd]
    simp [State.port_rxPush, hq.symm, lsrTx_lsrTx, Port.transmitted]
  · rw [State.port_transmit hd]
    simp [State.port_rxPush, hq, Port.pushed]
  · rw [State.events_transmit hd]
    simp [State.events_rxPush, hq, Port.pushed]
  · rw [State.draws_transmit hd]
    simp

/-- Settles O18: `State.transmit_block` gives the two blocks and the history, and each block's lemmas say the rest. -/
theorem transmitReachesPeerBlock : Obligations.TransmitReachesPeerBlock := by
  intro s v r hlive hpeer hsend hother
  obtain ⟨hself, hblock, hevents, hdraws⟩ := State.transmit_block hpeer hsend hother (Ep.other_ne _) v
  have hexec : exec (.wrThr v) s = .next ((s.transmit s.active v).returning .nothing) := busWrite_live hlive _
  have hcur : ((s.transmit s.active v).returning .nothing).cur = s.cur.transmitted v := by
    rw [State.cur_returning, State.cur, State.active_transmit, hself, State.cur]
  have hlsr : (s.cur.transmitted v).lsr = lsrTx s.cur.lsr true := rfl
  refine ⟨_, ((s.port s.active.other).pushed [v]).irqCall s.active.other, hexec, rfl, exec_sameAround hexec, hdraws, ?_⟩
  rw [hcur, State.port_returning, hblock, hlsr, getLsbD_lsrTx, getLsbD_lsrTx, getLsbD_lsrTx]
  exact ⟨rfl, rfl, lsrTx_low _ _, rfl, s.cur.transmitted_frame v, s.cur.transmitted_took v, hevents,
    Port.staged_pushed _ _, Port.pushed_arbiterRan _ _, Port.irqCall_level _ _, Port.pushed_frame _ _⟩

end Sys2Proof.Machine
end

section
/-! PROOFS. The encoding: decoder and encoder are inverse to each other, and the operation map has one row for each key. -/

namespace Sys2Proof

/-! ### Decode of encode -/

/-- The encoder has a key for exactly the well-formed operations (R84, R88). -/
theorem encodeKey_isSome (dlab : Bool) (i : Instr) : (encodeKey dlab i).isSome = i.wellFormed dlab := by
  cases i with
  | rdRbr | rdDll | rdIer | rdDlm | wrThr | wrDll | wrIer | wrDlm => cases dlab <;> rfl
  | _ => rfl

/-- The key written for an operation selects that operation (R84). -/
theorem decodeKey_of_encodeKey {dlab : Bool} {i : Instr} {k : Key} (h : encodeKey dlab i = some k) : decodeKey k = i := by
  cases i with
  | rdRbr | rdDll | rdIer | rdDlm | wrThr | wrDll | wrIer | wrDlm =>
    cases dlab <;> cases h
    exact decodeKey_keyOf _ _ _
  | rdIir | rdLcr | rdMcr | rdLsr | rdMsr | rdScr | wrX2 | wrLcr | wrMcr | wrX5 | wrX6 | wrScr =>
    cases h
    exact decodeKey_keyOf _ _ _
  | rxpush | msin | reset | save | restore | resolve | connect | attachMouse => cases h

/-- Settles O6: a well-formed operation has a key, the key selects the operation, and its two bytes are read back as it. -/
theorem encodedOperationDecodesToItself : Obligations.EncodedOperationDecodesToItself := by
  intro dlab i hi
  obtain ⟨k, hk⟩ := Option.isSome_iff_exists.mp ((encodeKey_isSome dlab i).trans hi)
  refine ⟨keyBytes k, by rw [encode, hk]; rfl, fun rest => ?_⟩
  rw [decode_keyBytes, decodeKey_of_encodeKey hk]

/-! ### Encode of decode -/

/-- Bit 11 of a key, the direction, is the top bit of its direction and offset (R81). -/
theorem key_dirBit (k : Key) : k.getLsbD 11 = (k.extractLsb' 8 4).getLsbD 3 := by
  rw [BitVec.getLsbD_extractLsb']
  rfl

/-- A key with its data field written as 0 (R81). -/
theorem key_zeroData (k : Key) :
    keyOf (Key.dlab k) ((k.extractLsb' 8 4 : BitVec 4) ++ 0#8) = (k.extractLsb' 8 5 ++ 0#8 : Key) := by
  apply BitVec.eq_of_getLsbD_eq
  intro j hj
  rw [key_bit, word_bit, BitVec.getLsbD_append]
  have : j < 8 ∨ (8 ≤ j ∧ j < 12) ∨ j = 12 := by omega
  rcases this with h | ⟨h8, h12⟩ | rfl
  · have h12 : j < 12 := by omega
    simp [h, h12]
  · have hn : ¬ j < 8 := by omega
    have h4 : j - 8 < 4 := by omega
    have h5 : j - 8 < 5 := by omega
    simp [hn, h12, h4, h5]
  · simp [Key.dlab]

/-- The operation at a direction and offset is encoded there: a write with its data, a read with 0 (R81, R84, R85). -/
theorem encodeKey_decodeFields (dlab : Bool) (hi : BitVec 4) (v : Byte) :
    encodeKey dlab (decodeFields dlab hi.toNat v) = some (keyOf dlab (hi ++ if hi.getLsbD 3 then v else 0#8)) := by
  fin_cases hi <;> cases dlab <;> rfl

/-- Settles O7: the key is split into its fields, and what is encoded at them is put together again. -/
theorem decodedKeyEncodesToItself : Obligations.DecodedKeyEncodesToItself := by
  intro k
  have h := encodeKey_decodeFields (Key.dlab k) (k.extractLsb' 8 4) (Key.data k)
  rw [← key_dirBit] at h
  refine h.trans (congrArg some ?_)
  split
  · exact (key_split k).symm
  · exact key_zeroData k

/-! ### The rows of the operation map -/

/-- Every key the encoder gives has the DLAB value in bit 12 and is matched by the operation's row (R81, R84). -/
theorem encodeKey_fields : ∀ i : Instr, Laws.KeyFields.Statement i
  | .rdRbr => Laws.KeyFields.rdRbr
  | .rdDll => Laws.KeyFields.rdDll
  | .rdIer => Laws.KeyFields.rdIer
  | .rdDlm => Laws.KeyFields.rdDlm
  | .rdIir => Laws.KeyFields.rdIir
  | .rdLcr => Laws.KeyFields.rdLcr
  | .rdMcr => Laws.KeyFields.rdMcr
  | .rdLsr => Laws.KeyFields.rdLsr
  | .rdMsr => Laws.KeyFields.rdMsr
  | .rdScr => Laws.KeyFields.rdScr
  | .wrThr v => Laws.KeyFields.wrThr v
  | .wrDll v => Laws.KeyFields.wrDll v
  | .wrIer v => Laws.KeyFields.wrIer v
  | .wrDlm v => Laws.KeyFields.wrDlm v
  | .wrX2 v => Laws.KeyFields.wrX2 v
  | .wrLcr v => Laws.KeyFields.wrLcr v
  | .wrMcr v => Laws.KeyFields.wrMcr v
  | .wrX5 v => Laws.KeyFields.wrX5 v
  | .wrX6 v => Laws.KeyFields.wrX6 v
  | .wrScr v => Laws.KeyFields.wrScr v
  | .rxpush d => Laws.KeyFields.rxpush d
  | .msin c d r l => Laws.KeyFields.msin c d r l
  | .reset => Laws.KeyFields.reset
  | .save => Laws.KeyFields.save
  | .restore x => Laws.KeyFields.restore x
  | .resolve f => Laws.KeyFields.resolve f
  | .connect f => Laws.KeyFields.connect f
  | .attachMouse a b c => Laws.KeyFields.attachMouse a b c

/-- The row of the operation at a direction and offset matches the keys there, whatever their data (R84, R85). -/
theorem row_of_decodeFields_covers (dlab : Bool) (hi : BitVec 4) (v : Byte) :
    ∃ n r, (decodeFields dlab hi.toNat v).rowIndex = some n ∧ keyRows[n]? = some r ∧
      r.covers (keyOf dlab (hi ++ v)) = true := by
  obtain ⟨-, n, r, hn, hr, hc⟩ := encodeKey_fields _ _ _ (encodeKey_decodeFields dlab hi v)
  have hmem := List.mem_of_getElem? hr
  rw [covers_data hmem] at hc
  exact ⟨n, r, hn, hr, (covers_data hmem dlab hi v).trans hc⟩

/-- Of the twenty rows one matches at each DLAB value, direction and offset (R84). -/
theorem one_row_covers (dlab : Bool) (hi : BitVec 4) (v : Byte) :
    (keyRows.filter fun r => r.covers (keyOf dlab (hi ++ v))).length = 1 := by
  have hzero : ∀ (d : Bool) (h : BitVec 4), (keyRows.filter fun r => r.covers (keyOf d (h ++ 0#8))).length = 1 := by
    decide
  rw [List.filter_congr fun r hr => covers_data hr dlab hi v]
  exact hzero dlab hi

/-- Settles O5: the key is split into its fields, of which the rows read all but the data. -/
theorem everyKeyMatchesExactlyOneRow : Obligations.EveryKeyMatchesExactlyOneRow := by
  intro k
  have hone := one_row_covers (Key.dlab k) (k.extractLsb' 8 4) (Key.data k)
  have hrow := row_of_decodeFields_covers (Key.dlab k) (k.extractLsb' 8 4) (Key.data k)
  rw [← key_split] at hone hrow
  exact ⟨hone, hrow⟩

/-- Settles O1: the decoder is run on the eleven words. -/
theorem writtenKeysDecode : Obligations.WrittenKeysDecode := by
  unfold Obligations.WrittenKeysDecode
  decide

end Sys2Proof
end

section
/-! PROOFS. The operations of link management write the link state only. -/

namespace Sys2Proof.Machine

/-- `ATTACHMOUSE` changes no more than the link state of a block without a peer (R187). -/
theorem State.attach_frame (s : State) (ep : Ep) (id device callback : Ident) :
    s.LinkFrame (s.attach ep id device callback).1 := by
  refine ⟨fun q => s.attach_linkStep ep q id device callback, ?_⟩
  unfold State.attach
  split
  · exact ⟨rfl, rfl, rfl, rfl, rfl⟩
  · exact ⟨by simp, by simp, by simp, by simp, by simp⟩

/-- A call whose work is within the frame of link management ends within it, on an inert block too. -/
theorem callEnd_linkFrame {s t u : State} {r : Result} (h : callEnd s t r = .next u) (ht : s.LinkFrame t) :
    u.draws = s.draws ∧ ∀ q, (s.port q).LinkStep q (u.port q) := by
  obtain ⟨hports, -, -, -, hdraws, -⟩ := ht
  by_cases hl : s.cur.live = true
  · cases (callEnd_live hl t r).symm.trans h
    exact ⟨hdraws, fun q => by rw [State.port_returning]; exact hports q⟩
  · cases (callEnd_inert (by simpa using hl) t r).symm.trans h
    exact ⟨rfl, fun q => by rw [State.port_returning]; exact .refl q _⟩

/-- Settles O47: the work of each of the three operations is within the frame of link management. -/
theorem linkOperationsWriteLinkStateOnly : Obligations.LinkOperationsWriteLinkStateOnly := by
  intro i s t hi h
  have hframe : t.draws = s.draws ∧ ∀ q, (s.port q).LinkStep q (t.port q) := by
    rcases hi with ⟨flag, rfl⟩ | ⟨flag, rfl⟩ | ⟨id, device, callback, rfl⟩
    · exact callEnd_linkFrame h (State.resolveLink_frame _ s _ flag)
    · exact callEnd_linkFrame h (State.resolveLink_frame _ s _ flag)
    · exact callEnd_linkFrame h (s.attach_frame _ id device callback)
  obtain ⟨hdraws, hports⟩ := hframe
  refine ⟨exec_sameAround h, hdraws, fun q => ?_⟩
  obtain ⟨-, hlink, -⟩ := hports q
  exact hlink

end Sys2Proof.Machine
end

section
/-! PROOFS. The port reads in full: the byte returned, the effect on the block read, the arbiter's call; and the scratch
register. -/

namespace Sys2Proof.Machine

/-! ### The operations at an offset -/

/-- What a read at an offset selects, whatever its data field (R84, R85). -/
theorem decodeKey_read (dlab : Bool) (off : BitVec 3) (d : Byte) :
    decodeKey (keyOf dlab (transWord .read off d)) = decodeFields dlab off.toNat d := by
  rw [transWord_read, decodeKey_keyOf, BitVec.toNat_append]
  simp

/-- What a write at an offset selects (R84). -/
theorem decodeKey_write (dlab : Bool) (off : BitVec 3) (v : Byte) :
    decodeKey (keyOf dlab (transWord .write off v)) = decodeFields dlab (8 + off.toNat) v := by
  have h : ∀ o : BitVec 3, (1#1 ++ o : BitVec 4).toNat = 8 + o.toNat := by decide
  rw [transWord_write, decodeKey_keyOf, h]

/-! ### The frame around one block -/

theorem State.OnlyBlock.returning {s t : State} {ep : Ep} (h : s.OnlyBlock ep t) (r : Result) :
    s.OnlyBlock ep (t.returning r) := by
  obtain ⟨hother, hdraws, haround⟩ := h
  exact ⟨by rw [State.port_returning]; exact hother, hdraws, haround⟩

theorem State.modify_onlyBlock (s : State) (ep : Ep) (f : Port → Port) : s.OnlyBlock ep (s.modify ep f) :=
  ⟨by simp, by simp, s.modify_sameAround ep f⟩

theorem State.takeByte_onlyBlock (s : State) (ep : Ep) : s.OnlyBlock ep (s.takeByte ep) :=
  ⟨by simp [State.port_takeByte], by simp, by simp, by simp, by simp⟩

theorem State.modify_rearbitrate_onlyBlock (s : State) (ep : Ep) (f : Port → Port) :
    s.OnlyBlock ep ((s.modify ep f).rearbitrate ep) :=
  ⟨by simp [State.port_rearbitrate], by simp, by simp, by simp, by simp⟩

/-! ### The read of offset 0 -/

/-- The block after a read of offset 0: DR cleared, then `Stage()` (R101). -/
def Port.taken (p : Port) : Port := { p with lsr := lsrDr p.lsr false }.staged.arbitrated

theorem State.cur_takeByte (s : State) : (s.takeByte s.active).cur = s.cur.taken := by
  rw [State.cur, State.active_takeByte, State.port_takeByte, if_pos rfl]
  rfl

/-- Nothing queued: DR stays clear (R101). -/
theorem Port.taken_of_nil {p : Port} (h : p.rxq = []) : p.taken = { p with lsr := lsrDr p.lsr false }.arbitrated := by
  rw [Port.taken, Port.staged_nil (p := { p with lsr := lsrDr p.lsr false }) h]

/-- The head of the queue is staged in place of the byte taken, DR set again (R101, R141). -/
theorem Port.taken_of_cons {p : Port} {b : Byte} {rest : List Byte} (h : p.rxq = b :: rest) :
    p.taken = { p with rbr := b, rxq := rest, lsr := lsrDr (lsrDr p.lsr false) true }.arbitrated := by
  have hdr : (lsrDr p.lsr false).getLsbD 0 = false := by rw [getLsbD_lsrDr, if_pos rfl]
  rw [Port.taken, Port.staged_cons (p := { p with lsr := lsrDr p.lsr false }) h hdr]

theorem Port.taken_arbiterRan (p : Port) : p.taken.ArbiterRan p.iir := by
  have h := Port.arbitrated_arbiterRan { p with lsr := lsrDr p.lsr false }.staged
  rwa [Port.staged_iir] at h

/-- Taking a byte writes the receive path and what the arbiter writes (R101). -/
theorem Port.taken_frame (p : Port) :
    p.taken = { p with
      rbr := p.taken.rbr, rxq := p.taken.rxq, lsr := p.taken.lsr, iir := p.taken.iir, intr := p.taken.intr } :=
  Port.staged_arbitrated_frame { p with lsr := lsrDr p.lsr false }

/-- Of LSR only DR moves (R101). -/
theorem Port.taken_lsr_rest (p : Port) : p.taken.lsr.extractLsb' 1 7 = p.lsr.extractLsb' 1 7 := by
  obtain ⟨-, hlsr, -⟩ := p.readFrame_take (.inl rfl)
  exact hlsr

/-- Settles O11: the block ends as `Port.taken` says, by whether a byte is queued, and the arbiter makes the one call. -/
theorem receiveBufferRead : Obligations.ReceiveBufferRead := by
  intro s hlive
  have hcur := (State.cur_returning (s.takeByte s.active) (.byte s.cur.rbr)).trans s.cur_takeByte
  refine ⟨_, busRead_live hlive _ _, rfl, (s.takeByte_onlyBlock _).returning _, ?_⟩
  rw [hcur]
  refine ⟨fun hq => ?_, fun b rest hq => ?_, s.cur.taken_lsr_rest, s.cur.taken_arbiterRan,
    ⟨_, s.events_takeByte _, Port.irqCall_level _ _⟩, s.cur.taken_frame⟩
  · rw [Port.taken_of_nil hq, Port.arbitrated_lsr, getLsbD_lsrDr]
    exact ⟨by simp, by simpa using hq, rfl⟩
  · rw [Port.taken_of_cons hq, Port.arbitrated_lsr, getLsbD_lsrDr]
    exact ⟨by simp, by simp, rfl⟩

/-- Settles O12: both reads end with `takeByte`, whatever byte they return. -/
theorem divisorLowReadTakesReceiveByte : Obligations.DivisorLowReadTakesReceiveByte :=
  fun _ hlive => ⟨_, _, busRead_live hlive _ _, busRead_live hlive _ _, rfl, rfl, rfl⟩

/-! ### The read of MSR -/

theorem Port.rearbitrated_of_switch_off {p : Port} (h : p.cfg.arbitrateOnAllInputs = false) : p.rearbitrated = p :=
  if_neg (by simp [h])

/-- The block read or written, where the arbiter runs after the change under the switch of decision D2 (R223). -/
theorem State.cur_modify_rearbitrate (s : State) (f : Port → Port) :
    ((s.modify s.active f).rearbitrate s.active).cur = (f s.cur).rearbitrated := by
  rw [State.cur, State.active_rearbitrate, State.active_modify, State.port_rearbitrate_if, if_pos rfl, State.port_modify,
    if_pos rfl, State.cur]

/-- With the switch on the arbiter makes its call (R227). -/
theorem State.events_modify_rearbitrate_on {s : State} {f : Port → Port}
    (h : (f s.cur).cfg.arbitrateOnAllInputs = true) :
    ((s.modify s.active f).rearbitrate s.active).events = s.events ++ [(f s.cur).arbitrated.irqCall s.active] := by
  have hport : (s.modify s.active f).port s.active = f s.cur := by simp [State.cur]
  rw [State.rearbitrate, hport, if_pos h, State.events_arbitrate, hport, State.events_modify]

/-- With the switch off there is none. -/
theorem State.events_modify_rearbitrate_off {s : State} {f : Port → Port}
    (h : (f s.cur).cfg.arbitrateOnAllInputs = false) :
    ((s.modify s.active f).rearbitrate s.active).events = s.events := by
  have hport : (s.modify s.active f).port s.active = f s.cur := by simp [State.cur]
  rw [State.rearbitrate, hport, if_neg (by simp [h]), State.events_modify]

/-- The block with the four delta bits cleared, before the arbiter (R109). -/
def Port.deltasCleared (p : Port) : Port := { p with msr := msrCleared p.msr }

theorem exec_rdMsr_live {s : State} (h : s.cur.live = true) :
    exec .rdMsr s =
      .next (((s.modify s.active Port.deltasCleared).rearbitrate s.active).returning (.byte s.cur.msr)) :=
  busRead_live h _ _

/-- Settles O13: the deltas are cleared, and the switch of decision D2 decides whether the arbiter then runs. -/
theorem modemStatusRead : Obligations.ModemStatusRead := by
  intro s hlive
  have hcur := (State.cur_returning _ (.byte s.cur.msr)).trans (s.cur_modify_rearbitrate Port.deltasCleared)
  refine ⟨_, exec_rdMsr_live hlive, rfl, (s.modify_rearbitrate_onlyBlock _ _).returning _, ?_⟩
  rw [hcur, Port.rearbitrated_msr]
  refine ⟨msrCleared_deltas _, msrCleared_levels _, s.cur.deltasCleared.rearbitrated_frame, fun hon => ?on,
    fun hoff => ?off⟩
  case on =>
    rw [Port.rearbitrated_of_switch (p := s.cur.deltasCleared) hon]
    exact ⟨s.cur.deltasCleared.arbitrated_arbiterRan, _, State.events_modify_rearbitrate_on hon, Port.irqCall_level _ _⟩
  case off =>
    rw [Port.rearbitrated_of_switch_off (p := s.cur.deltasCleared) hoff]
    exact ⟨rfl, rfl, State.events_modify_rearbitrate_off hoff⟩

/-! ### The reads without a side effect, and the scratch register -/

/-- Settles O10: the six meanings end in the state they began in, and each is read off the operation map at its offset. -/
theorem plainReadsReturnTheirRegister : Obligations.PlainReadsReturnTheirRegister := by
  refine ⟨fun s hlive => ?_, fun d => ?_, fun dlab d => ?_⟩
  · have hread := fun b => busRead_live hlive s b
    exact ⟨hread _, hread _, hread _, hread _, hread _, hread _⟩
  · exact ⟨decodeKey_read false 1 d, decodeKey_read true 1 d⟩
  · exact ⟨decodeKey_read dlab 2 d, decodeKey_read dlab 3 d, decodeKey_read dlab 4 d, decodeKey_read dlab 5 d⟩

/-- Settles O29: the read changes nothing, the write changes SCR alone where `SCR_WRITABLE` allows it. -/
theorem scratchRegister : Obligations.ScratchRegister := by
  refine ⟨fun s hlive => busRead_live hlive s _, fun s v hlive => ?write,
    fun dlab v => ⟨decodeKey_read dlab 7 v, decodeKey_write dlab 7 v⟩⟩
  case write =>
    refine ⟨_, busWrite_live hlive _, rfl, (s.modify_onlyBlock _ _).returning _, State.events_modify _ _ _, ?_⟩
    rw [State.cur_returning, State.cur_modify]
    exact ⟨fun hw => by rw [if_pos hw], fun hw => by rw [if_neg (by simp [hw])]⟩

end Sys2Proof.Machine
end

section
/-! PROOFS. The writes that store a register and notify nobody: the latch, IER, LCR, and the three ignored writes. -/

namespace Sys2Proof.Machine

/-- A write that changes the block it is made to and no more, in full (R121, R123, R125). -/
theorem busWrite_store {s : State} (h : s.cur.live = true) (f : Port → Port) :
    ∃ t, busWrite s (s.modify s.active f) = .next t ∧ t.result = .nothing ∧ s.OnlyBlock s.active t ∧
      t.events = s.events ∧ t.cur = f s.cur :=
  ⟨_, busWrite_live h _, rfl, (s.modify_onlyBlock _ _).returning _, s.events_modify _ _,
    (State.cur_returning _ _).trans (s.cur_modify f)⟩

/-! ### The latch -/

/-- A write of the latch changes the latch alone (R121, R123). -/
theorem busWrite_latch {s : State} (h : s.cur.live = true) (f : Word16 → Word16) :
    ∃ t, busWrite s (s.modify s.active fun p => { p with dl := f p.dl }) = .next t ∧ t.result = .nothing ∧
      s.OnlyBlock s.active t ∧ t.events = s.events ∧ t.cur.dl = f s.cur.dl ∧ t.cur = { s.cur with dl := t.cur.dl } := by
  obtain ⟨t, hexec, hresult, honly, hevents, hcur⟩ := busWrite_store h fun p => { p with dl := f p.dl }
  exact ⟨t, hexec, hresult, honly, hevents, by rw [hcur], by rw [hcur]⟩

/-- Settles O21: the two writes are writes of the latch, each of one byte of it. -/
theorem divisorWrites : Obligations.DivisorWrites := by
  refine ⟨fun s v hlive => ⟨?low, ?high⟩, fun v => ⟨decodeKey_write true 0 v, decodeKey_write true 1 v⟩⟩
  case low =>
    obtain ⟨t, hexec, hresult, honly, hevents, hdl, hcur⟩ := busWrite_latch hlive (dlWithLow · v)
    refine ⟨t, hexec, hresult, honly, hevents, ?_, ?_, hcur⟩ <;> rw [hdl]
    · exact dlLow_withLow _ _
    · exact dlHigh_withLow _ _
  case high =>
    obtain ⟨t, hexec, hresult, honly, hevents, hdl, hcur⟩ := busWrite_latch hlive (dlWithHigh · v)
    refine ⟨t, hexec, hresult, honly, hevents, ?_, ?_, hcur⟩ <;> rw [hdl]
    · exact dlHigh_withHigh _ _
    · exact dlLow_withHigh _ _

/-! ### IER -/

/-- The block with IER written, before the arbiter (R122). -/
def Port.enabling (v : Byte) (p : Port) : Port := { p with ier := v }

theorem exec_wrIer_live {s : State} (h : s.cur.live = true) (v : Byte) :
    exec (.wrIer v) s =
      .next (((s.modify s.active (Port.enabling v)).rearbitrate s.active).returning .nothing) :=
  busWrite_live h _

/-- Settles O22: IER is stored, and the switch of decision D2 decides whether the arbiter then runs. -/
theorem interruptEnableWrite : Obligations.InterruptEnableWrite := by
  intro s v hlive
  have hcur := (State.cur_returning _ .nothing).trans (s.cur_modify_rearbitrate (Port.enabling v))
  have hframe := (s.cur.enabling v).rearbitrated_frame
  refine ⟨_, exec_wrIer_live hlive v, rfl, (s.modify_rearbitrate_onlyBlock _ _).returning _, ?_⟩
  rw [hcur]
  refine ⟨by rw [hframe]; rfl, hframe, fun hon => ?on, fun hoff => ?off⟩
  case on =>
    rw [Port.rearbitrated_of_switch (p := s.cur.enabling v) hon]
    exact ⟨(s.cur.enabling v).arbitrated_arbiterRan, _, State.events_modify_rearbitrate_on hon, Port.irqCall_level _ _⟩
  case off =>
    rw [Port.rearbitrated_of_switch_off (p := s.cur.enabling v) hoff]
    exact ⟨rfl, rfl, State.events_modify_rearbitrate_off hoff⟩

/-! ### LCR -/

/-- The block with LCR written (R125). -/
def Port.withLcr (v : Byte) (p : Port) : Port := { p with lcr := v }

/-- The arbiter does not read LCR (R220). -/
theorem Port.withLcr_arbitrated (p : Port) (v : Byte) : (p.withLcr v).arbitrated = p.arbitrated.withLcr v := by
  have hcode : (p.withLcr v).arbiterCode = p.arbiterCode := rfl
  rw [Port.arbitrated, Port.arbitrated, hcode]
  cases p.arbiterCode <;> rfl

/-- Nor does staging (R125, R141). -/
theorem Port.withLcr_staged (p : Port) (v : Byte) : (p.withLcr v).staged = p.staged.withLcr v := by
  cases hq : p.rxq with
  | nil => rw [Port.staged_nil hq, Port.staged_nil (p := p.withLcr v) hq]
  | cons b rest =>
    cases hd : p.dr with
    | true => rw [Port.staged_ready hd, Port.staged_ready (p := p.withLcr v) hd]
    | false => rw [Port.staged_cons hq hd, Port.staged_cons (p := p.withLcr v) hq hd]; rfl

/-- A push under another LCR leaves the same block but for LCR (R125). -/
theorem Port.withLcr_pushed (p : Port) (v : Byte) (data : List Byte) :
    (p.withLcr v).pushed data = (p.pushed data).withLcr v := by
  have hs := Port.withLcr_staged { p with rxq := p.rxq ++ data } v
  exact (congrArg Port.arbitrated hs).trans (Port.withLcr_arbitrated _ v)

/-- `RXPUSH` on a live block, as the block and the history see it (R140). -/
theorem exec_rxpush_live {s : State} (h : s.cur.live = true) (data : RxData) :
    ∃ u, exec (.rxpush data) s = .next u ∧ u.cur = s.cur.pushed (rxBytes data) ∧
      u.events = s.events ++ [(s.cur.pushed (rxBytes data)).irqCall s.active] := by
  refine ⟨_, callEnd_live h _ _, ?_, s.events_rxPush _ _⟩
  rw [State.cur_returning, State.cur, State.active_rxPush, State.port_rxPush, if_pos rfl]
  rfl

/-- Settles O24: the write stores LCR, which neither staging nor the arbiter reads. -/
theorem lineControlWrite : Obligations.LineControlWrite := by
  refine ⟨fun s v hlive => ?_, fun dlab v => decodeKey_write dlab 3 v⟩
  obtain ⟨t, hexec, hresult, honly, hevents, hcur⟩ := busWrite_store hlive (Port.withLcr v)
  refine ⟨t, hexec, hresult, honly, hevents, hcur, fun data => ?_⟩
  obtain ⟨-, -, -, hactive, -⟩ := honly
  obtain ⟨u, hu, hucur, huevents⟩ := exec_rxpush_live (s := t) (by rw [hcur]; exact hlive) data
  obtain ⟨u', hu', hucur', huevents'⟩ := exec_rxpush_live hlive data
  refine ⟨u, u', hu, hu', ?_, ?_⟩
  · rw [hucur, hcur, hucur', Port.withLcr_pushed]
    rfl
  · rw [huevents, hcur, Port.withLcr_pushed, hevents, hactive, huevents']
    rfl

/-! ### The ignored writes -/

/-- Settles O23: the three meanings end in the state they began in, and each is read off the operation map at its offset. -/
theorem ignoredWritesChangeNothing : Obligations.IgnoredWritesChangeNothing :=
  ⟨fun s _ hlive => ⟨busWrite_live hlive s, busWrite_live hlive s, busWrite_live hlive s⟩,
    fun dlab v => ⟨decodeKey_write dlab 2 v, decodeKey_write dlab 5 v, decodeKey_write dlab 6 v⟩⟩

end Sys2Proof.Machine
end

section
/-! PROOFS. `WR.THR` with no way to a peer and with an outside component as peer, and its frame whoever the peer is. -/

namespace Sys2Proof.Machine

/-- The sending block while its byte is delivered: the byte in THR, THRE and TSRE clear (R120). -/
def Port.sending (v : Byte) (p : Port) : Port := { p with thr := v, lsr := lsrTx p.lsr false }

/-- The state in which the peer's part of `WR.THR` begins (R120). -/
abbrev State.sending (s : State) (ep : Ep) (v : Byte) : State := s.modify ep (Port.sending v)

/-! ### The peer's part -/

/-- Without a peer, without a data capability or with the block's own, nothing is called (R146, R161, decision D31). -/
theorem State.peerDeliver_of_no_way {s : State} {ep : Ep}
    (h : (s.port ep).peer = none ∨ (s.port ep).sendData = none ∨ (s.port ep).sendData = some (.port ep)) (v : Byte) :
    s.peerDeliver ep v = (s, false) := by
  rcases s.peerDeliver_cases ep v with ⟨q, hpeer, hsend, -, hq, -⟩ | ⟨name, hpeer, hsend, -⟩ | e
  · simp [hsend, Option.isSome_iff_ne_none.mp hpeer, hq] at h
  · simp [hsend, Option.isSome_iff_ne_none.mp hpeer] at h
  · exact e

/-- An outside component is called with the byte and answers a free value (R164). -/
theorem State.peerDeliver_outside {s : State} {ep : Ep} {r : Ref} {name : Ident} (hpeer : (s.port ep).peer = some r)
    (hsend : (s.port ep).sendData = some (.ext name)) (v : Byte) :
    s.peerDeliver ep v =
      ({ s.emit (.receiveData ep (.ext name) v) with draws := s.draws + 1 }, Config.deviceAnswer s.draws) := by
  simp [State.peerDeliver, hpeer, hsend]

/-- The peer's part leaves the block that is not the sender alone, or pushes the byte to it (R161). -/
theorem State.port_peerDeliver_other (s : State) (ep : Ep) (v : Byte) :
    (s.peerDeliver ep v).1.port ep.other = s.port ep.other ∨
    (s.peerDeliver ep v).1.port ep.other = (s.port ep.other).pushed [v] := by
  rcases s.peerDeliver_cases ep v with ⟨q, -, -, -, hq, e⟩ | ⟨name, -, -, e⟩ | e <;> rw [e]
  · obtain rfl := (Ep.eq_or_other ep q).resolve_left hq
    rw [State.port_rxPush, if_pos rfl, State.port_emit]
    exact .inr rfl
  · exact .inl (by rw [State.port_draws, State.port_emit])
  · exact .inl rfl

/-! ### The sender -/

/-- The sending block after its byte was accepted or not: the local sink's part, then THRE and TSRE (R120). -/
def Port.sent (p : Port) (v : Byte) (accepted : Bool) : Port :=
  if accepted then p.transmitted v else (p.sending v).sunk v

/-- THRE and TSRE end as the acceptance (R34, R120). -/
theorem Port.sent_lsr (p : Port) (v : Byte) (accepted : Bool) : (p.sent v accepted).lsr = lsrTx p.lsr accepted := by
  cases accepted
  · exact Port.sunk_lsr _ _
  · rfl

theorem Port.sent_flags (p : Port) (v : Byte) (accepted : Bool) :
    (p.sent v accepted).lsr.getLsbD 5 = accepted ∧ (p.sent v accepted).lsr.getLsbD 6 = accepted := by
  rw [Port.sent_lsr, getLsbD_lsrTx, getLsbD_lsrTx]
  exact ⟨rfl, rfl⟩

/-- The local sink reads nothing that the write has changed before it (R163). -/
theorem Port.sent_took (p : Port) (v : Byte) (accepted : Bool) : p.SinkTook v (p.sent v accepted) := by
  cases accepted
  · exact Port.sunk_took (p.sending v) v
  · exact p.transmitted_took v

/-- The sender changes in THR, LSR and its sink state only (R120). -/
theorem Port.sent_frame (p : Port) (v : Byte) (accepted : Bool) :
    p.sent v accepted = { p with
      thr := v, lsr := (p.sent v accepted).lsr, logbuf := (p.sent v accepted).logbuf
      column := (p.sent v accepted).column, surface := (p.sent v accepted).surface } := by
  rw [Port.sent_lsr]
  cases accepted
  · exact Port.sunk_frame (p.sending v) v
  · exact p.transmitted_frame v

/-- The sender takes the byte in THR (R120). -/
theorem Port.sent_thr (p : Port) (v : Byte) (accepted : Bool) : (p.sent v accepted).thr = v := by
  rw [Port.sent_frame]

/-- Of LSR only THRE and TSRE change (R34). -/
theorem Port.sent_lsr_rest (p : Port) (v : Byte) (accepted : Bool) :
    (p.sent v accepted).lsr.extractLsb' 0 5 = p.lsr.extractLsb' 0 5 ∧
    (p.sent v accepted).lsr.getLsbD 7 = p.lsr.getLsbD 7 := by
  rw [Port.sent_lsr, getLsbD_lsrTx]
  exact ⟨lsrTx_low _ _, rfl⟩

/-- The byte is accepted where the peer or the local sink accepts it (R161). -/
theorem State.port_transmit_self {s : State} {ep : Ep} {v : Byte} {d : State × Bool}
    (hd : (s.sending ep v).peerDeliver ep v = d) :
    (s.transmit ep v).port ep = (s.port ep).sent v (d.2 || (s.port ep).cfg.bindingName.isSome) := by
  have hself : d.1.port ep = (s.port ep).sending v := by
    rw [← hd, State.port_peerDeliver_self, State.port_modify, if_pos rfl]
  rw [State.port_transmit hd, if_pos rfl, hself]
  cases d.2 || (s.port ep).cfg.bindingName.isSome
  · rfl
  · exact congrArg (fun l => { ((s.port ep).sending v).sunk v with lsr := l }) (lsrTx_lsrTx _ _ _)

theorem State.port_transmit_other (s : State) (ep : Ep) (v : Byte) :
    (s.transmit ep v).port ep.other = ((s.sending ep v).peerDeliver ep v).1.port ep.other := by
  rw [State.port_transmit rfl, if_neg (Ep.other_ne ep)]
  rfl

/-- `WR.THR` on a live block, the peer's part being `d` (R120, R161). -/
theorem exec_wrThr_live {s : State} {v : Byte} {d : State × Bool} (hlive : s.cur.live = true)
    (hd : (s.sending s.active v).peerDeliver s.active v = d) :
    ∃ t, exec (.wrThr v) s = .next t ∧ t.result = .nothing ∧ s.SameAround t ∧ t.draws = d.1.draws ∧
      t.port s.active.other = d.1.port s.active.other ∧
      t.cur = s.cur.sent v (d.2 || s.cur.cfg.bindingName.isSome) ∧
      t.events = d.1.events ++ s.cur.sinkLines s.active v := by
  have hexec : exec (.wrThr v) s = .next ((s.transmit s.active v).returning .nothing) := busWrite_live hlive _
  refine ⟨_, hexec, rfl, exec_sameAround hexec, State.draws_transmit hd, ?_, ?_, State.events_transmit hd⟩
  · rw [State.port_returning, State.port_transmit_other, hd]
  · rw [State.cur_returning, State.cur, State.active_transmit, State.port_transmit_self hd]
    rfl

/-- Settles O15: the peer's part is empty, so that the acceptance is the local sink's. -/
theorem transmitWithoutPeer : Obligations.TransmitWithoutPeer := by
  intro s v hlive hway
  have hd : (s.sending s.active v).peerDeliver s.active v = (s.sending s.active v, false) :=
    State.peerDeliver_of_no_way (by simpa [Port.sending, State.cur] using hway) v
  obtain ⟨t, hexec, hresult, haround, hdraws, hother, hcur, hevents⟩ := exec_wrThr_live hlive hd
  rw [Bool.false_or] at hcur
  refine ⟨t, hexec, hresult, ⟨hother.trans (by simp), hdraws.trans (by simp), haround⟩, ?_⟩
  rw [hcur]
  obtain ⟨hthre, htsre⟩ := s.cur.sent_flags v s.cur.cfg.bindingName.isSome
  obtain ⟨hlow, hhigh⟩ := s.cur.sent_lsr_rest v s.cur.cfg.bindingName.isSome
  exact ⟨Port.sent_thr _ _ _, hthre, htsre, hlow, hhigh, Port.sent_frame _ _ _, Port.sent_took _ _ _,
    hevents.trans (by simp)⟩

/-- Settles O19: the peer's part is one call, whose answer is the next free value. -/
theorem transmitReachesOutsideComponent : Obligations.TransmitReachesOutsideComponent := by
  intro s v r name hlive hpeer hsend
  have hd := State.peerDeliver_outside (s := s.sending s.active v) (ep := s.active) (r := r) (name := name)
    (by simpa [Port.sending, State.cur] using hpeer) (by simpa [Port.sending, State.cur] using hsend) v
  obtain ⟨t, hexec, hresult, haround, hdraws, hother, hcur, hevents⟩ := exec_wrThr_live hlive hd
  rw [State.draws_modify] at hcur
  refine ⟨t, hexec, hresult, haround, hother.trans (by rw [State.port_draws]; simp), hdraws.trans (by simp), ?_⟩
  rw [hcur]
  obtain ⟨hthre, htsre⟩ := s.cur.sent_flags v (Config.deviceAnswer s.draws || s.cur.cfg.bindingName.isSome)
  obtain ⟨hlow, hhigh⟩ := s.cur.sent_lsr_rest v (Config.deviceAnswer s.draws || s.cur.cfg.bindingName.isSome)
  exact ⟨hthre, htsre.trans hthre.symm, hlow, hhigh, Port.sent_frame _ _ _, Port.sent_took _ _ _,
    hevents.trans (by simp)⟩

/-! ### The frame -/

/-- The frame of `WR.THR` in the sending block, `p` before and `q` after it (R120). -/
def Port.SenderFrame (p q : Port) : Prop :=
  q = { p with thr := q.thr, lsr := q.lsr, logbuf := q.logbuf, column := q.column, surface := q.surface } ∧
  q.lsr.extractLsb' 0 5 = p.lsr.extractLsb' 0 5 ∧ q.lsr.getLsbD 7 = p.lsr.getLsbD 7

/-- The frame of `WR.THR` in the block that is not the sender (R140, R141). -/
def Port.ReceiverFrame (p q : Port) : Prop :=
  q = { p with rbr := q.rbr, rxq := q.rxq, lsr := q.lsr, iir := q.iir, intr := q.intr } ∧
  q.lsr.extractLsb' 1 7 = p.lsr.extractLsb' 1 7

theorem Port.senderFrame_sent (p : Port) (v : Byte) (accepted : Bool) : p.SenderFrame (p.sent v accepted) := by
  refine ⟨?_, p.sent_lsr_rest v accepted⟩
  rw [Port.sent_thr]
  exact p.sent_frame v accepted

theorem Port.receiverFrame_pushed (p : Port) (data : List Byte) : p.ReceiverFrame (p.pushed data) := by
  refine ⟨p.pushed_frame data, ?_⟩
  rw [Port.pushed, Port.arbitrated_lsr]
  exact Port.staged_lsr_rest { p with rxq := p.rxq ++ data }

/-- Settles O20: on a live block the sender ends as `Port.sent` says and the other block as it was or with the byte pushed;
on an inert one nothing changes. -/
theorem transmitFrame : Obligations.TransmitFrame := by
  intro s t v h
  have hframe : s.cur.SenderFrame t.cur ∧ (s.port s.active.other).ReceiverFrame (t.port s.active.other) := by
    by_cases hlive : s.cur.live = true
    · obtain ⟨t', hexec, -, -, -, hother, hcur, -⟩ := exec_wrThr_live (v := v) hlive rfl
      cases h.symm.trans hexec
      rw [hcur, hother]
      refine ⟨s.cur.senderFrame_sent v _, ?_⟩
      rcases (s.sending s.active v).port_peerDeliver_other s.active v with e | e <;>
        rw [e, State.port_modify, if_neg (Ep.other_ne _)]
      · exact ⟨rfl, rfl⟩
      · exact Port.receiverFrame_pushed _ _
    · cases h.symm.trans (busWrite_inert (by simpa using hlive) _)
      rw [State.cur_returning, State.port_returning]
      exact ⟨⟨rfl, rfl, rfl⟩, rfl, rfl⟩
  obtain ⟨⟨hcur, hlow, hhigh⟩, hother, hrest⟩ := hframe
  exact ⟨exec_sameAround h, hcur, hlow, hhigh, hother, hrest⟩

end Sys2Proof.Machine
end

section
/-! PROOFS. `WR.MCR`: the byte stored, and the status sent to the peer where DTR or RTS changed. -/

namespace Sys2Proof.Machine

/-! ### Where a status is sent -/

/-- Without a peer or with the block's own status capability nothing is called (R40, R126). -/
theorem State.sendStatus_of_no_way {s : State} {ep : Ep}
    (h : (s.port ep).peer = none ∨ (s.port ep).updateStatus = some (.port ep)) (l : Lines) : s.sendStatus ep l = s := by
  rcases s.sendStatus_cases ep l with ⟨q, hpeer, hstatus, -, hq, -⟩ | ⟨name, hpeer, hstatus, -⟩ | e
  · simp [hstatus, Option.isSome_iff_ne_none.mp hpeer, hq] at h
  · simp [hstatus, Option.isSome_iff_ne_none.mp hpeer] at h
  · exact e

/-- A live block that is another one performs `MSIN` with the four lines that are its inputs (R189). -/
theorem State.sendStatus_block {s : State} {ep q : Ep} {r : Ref} (hpeer : (s.port ep).peer = some r)
    (hstatus : (s.port ep).updateStatus = some (.port q)) (hlive : (s.port q).live = true) (hq : q ≠ ep) (l : Lines) :
    s.sendStatus ep l = (s.emit (.receiveStatus ep (.port q) l)).msIn q l.cts l.dsr l.ri l.cd := by
  simp [State.sendStatus, hpeer, hstatus, hlive, hq]

/-- The callback of an outside component is called with the status (R186). -/
theorem State.sendStatus_outside {s : State} {ep : Ep} {r : Ref} {callback : Ident} (hpeer : (s.port ep).peer = some r)
    (hstatus : (s.port ep).updateStatus = some (.ext callback)) (l : Lines) :
    s.sendStatus ep l = s.emit (.receiveStatus ep (.ext callback) l) := by
  simp [State.sendStatus, hpeer, hstatus]

/-- A block after `MSIN` (R142). -/
def Port.inputs (p : Port) (c d r l : Bool) : Port := { p with msr := msrAfter p.msr c d r l }.arbitrated

/-- `MSIN` writes MSR and what the arbiter writes (R142). -/
theorem Port.inputs_frame (p : Port) (c d r l : Bool) :
    p.inputs c d r l = { p with
      msr := (p.inputs c d r l).msr, iir := (p.inputs c d r l).iir, intr := (p.inputs c d r l).intr } := by
  have hmsr : (p.inputs c d r l).msr = msrAfter p.msr c d r l := Port.arbitrated_msr _
  rw [hmsr]
  exact Port.arbitrated_frame { p with msr := msrAfter p.msr c d r l }

theorem State.port_msIn_self (s : State) (ep : Ep) (c d r l : Bool) :
    (s.msIn ep c d r l).port ep = (s.port ep).inputs c d r l := by
  rw [State.port_msIn, if_pos rfl]
  rfl

theorem State.events_msIn_self (s : State) (ep : Ep) (c d r l : Bool) :
    (s.msIn ep c d r l).events = s.events ++ [((s.port ep).inputs c d r l).irqCall ep] :=
  s.events_msIn ep c d r l

/-- A status leaves the block that does not send it alone, or sets its inputs (R189). -/
theorem State.port_sendStatus_other (s : State) (ep : Ep) (l : Lines) :
    (s.sendStatus ep l).port ep.other = s.port ep.other ∨
    (s.sendStatus ep l).port ep.other = (s.port ep.other).inputs l.cts l.dsr l.ri l.cd := by
  rcases s.sendStatus_cases ep l with ⟨q, -, -, -, hq, e⟩ | ⟨name, -, -, e⟩ | e <;> rw [e]
  · obtain rfl := (Ep.eq_or_other ep q).resolve_left hq
    rw [State.port_msIn_self, State.port_emit]
    exact .inr rfl
  · exact .inl (State.port_emit _ _ _)
  · exact .inl rfl

/-! ### The write -/

/-- The block with MCR written (R126). -/
def Port.withMcr (v : Byte) (p : Port) : Port := { p with mcr := v }

/-- Where neither DTR nor RTS changes the byte is stored and that is all (R126). -/
theorem State.writeMcr_of_same_lines {s : State} {ep : Ep} {v : Byte}
    (h : v.getLsbD 0 = (s.port ep).mcr.getLsbD 0 ∧ v.getLsbD 1 = (s.port ep).mcr.getLsbD 1) :
    s.writeMcr ep v = s.modify ep (Port.withMcr v) := by
  refine if_neg ?_
  rw [mcrLinesChanged_iff]
  rintro (h0 | h1)
  · exact h0 h.1
  · exact h1 h.2

/-- Where DTR or RTS changes the status is sent from the block as written (R126, R186). -/
theorem State.writeMcr_of_changed_lines {s : State} {ep : Ep} {v : Byte}
    (h : v.getLsbD 0 ≠ (s.port ep).mcr.getLsbD 0 ∨ v.getLsbD 1 ≠ (s.port ep).mcr.getLsbD 1) :
    s.writeMcr ep v = (s.modify ep (Port.withMcr v)).sendStatus ep
      (translate (s.port ep).nullModem (v.getLsbD 0) (v.getLsbD 1)) := by
  have hnm : ((s.modify ep (Port.withMcr v)).port ep).nullModem = (s.port ep).nullModem := by simp [Port.withMcr]
  rw [← hnm]
  exact if_pos ((mcrLinesChanged_iff _ _).mpr h)

/-- Where no way leads to a peer a change of the lines notifies nobody (R40, R126). -/
theorem State.writeMcr_of_no_way {s : State} {ep : Ep} (v : Byte)
    (h : (s.port ep).peer = none ∨ (s.port ep).updateStatus = some (.port ep)) :
    s.writeMcr ep v = s.modify ep (Port.withMcr v) := by
  by_cases hsame : v.getLsbD 0 = (s.port ep).mcr.getLsbD 0 ∧ v.getLsbD 1 = (s.port ep).mcr.getLsbD 1
  · exact State.writeMcr_of_same_lines hsame
  · rw [State.writeMcr_of_changed_lines (not_and_or.mp hsame)]
    exact State.sendStatus_of_no_way (by simpa [Port.withMcr] using h) _

/-- Settles O25: in each of the three cases the write is a plain store. -/
theorem modemControlWriteWithoutNotice : Obligations.ModemControlWriteWithoutNotice := by
  intro s v hlive hquiet
  have hstore : s.writeMcr s.active v = s.modify s.active (Port.withMcr v) := by
    rcases hquiet with hsame | hno
    · exact State.writeMcr_of_same_lines hsame
    · exact State.writeMcr_of_no_way v hno
  obtain ⟨t, hexec, hresult, honly, hevents, hcur⟩ := busWrite_store hlive (Port.withMcr v)
  rw [← hstore] at hexec
  exact ⟨t, hexec, hresult, honly, hevents, hcur⟩

/-! ### The write of a linked block -/

/-- `WR.MCR` on a live block, as far as it is the same whoever the peer is (R126). -/
theorem exec_wrMcr_live {s : State} (h : s.cur.live = true) (v : Byte) :
    ∃ t, exec (.wrMcr v) s = .next t ∧ t.result = .nothing ∧ s.SameAround t ∧ t.draws = s.draws ∧
      t.cur = { s.cur with mcr := v } ∧ t.port s.active.other = (s.writeMcr s.active v).port s.active.other ∧
      t.events = (s.writeMcr s.active v).events := by
  have hexec : exec (.wrMcr v) s = .next ((s.writeMcr s.active v).returning .nothing) := busWrite_live h _
  refine ⟨_, hexec, rfl, exec_sameAround hexec, State.draws_writeMcr _ _ _, ?_, State.port_returning _ _ _, rfl⟩
  rw [State.cur_returning, State.cur, State.active_writeMcr, State.port_writeMcr_self, State.cur]

section Changed
variable {s : State} {v : Byte} {r : Ref} {lines : Lines} (hlive : s.cur.live = true) (hpeer : s.cur.peer = some r)
  (hchanged : v.getLsbD 0 ≠ s.cur.mcr.getLsbD 0 ∨ v.getLsbD 1 ≠ s.cur.mcr.getLsbD 1)
  (hlines : translate s.cur.nullModem (v.getLsbD 0) (v.getLsbD 1) = lines)
include hlive hpeer hchanged hlines

/-- An outside component is sent the lines as the mode of the link translates them (R126, R186). -/
theorem exec_wrMcr_outside {callback : Ident} (hstatus : s.cur.updateStatus = some (.ext callback)) :
    ∃ t, exec (.wrMcr v) s = .next t ∧ t.result = .nothing ∧ s.OnlyBlock s.active t ∧ t.cur = { s.cur with mcr := v } ∧
      t.events = s.events ++ [.receiveStatus s.active (.ext callback) lines] := by
  obtain ⟨t, hexec, hresult, haround, hdraws, hcur, hother, hevents⟩ := exec_wrMcr_live hlive v
  have hwrite := State.writeMcr_of_changed_lines hchanged
  rw [State.sendStatus_outside (by simpa [Port.withMcr, State.cur] using hpeer)
    (by simpa [Port.withMcr, State.cur] using hstatus)] at hwrite
  rw [hwrite] at hother hevents
  exact ⟨t, hexec, hresult, ⟨hother.trans (by simp), hdraws, haround⟩, hcur,
    hevents.trans (by simp [← hlines, State.cur])⟩

/-- The other live block performs `MSIN` with the lines as the mode of the link translates them (R126, R186, R189). -/
theorem exec_wrMcr_block (hstatus : s.cur.updateStatus = some (.port s.active.other))
    (hblock : (s.port s.active.other).live = true) :
    ∃ t, exec (.wrMcr v) s = .next t ∧ t.result = .nothing ∧ s.SameAround t ∧ t.draws = s.draws ∧
      t.cur = { s.cur with mcr := v } ∧
      (s.port s.active.other).InputsSet lines.cts lines.dsr lines.ri lines.cd (t.port s.active.other) ∧
      (t.port s.active.other).ArbiterRan (s.port s.active.other).iir ∧
      (∃ e, t.events = s.events ++ [.receiveStatus s.active (.port s.active.other) lines, e] ∧
        (t.port s.active.other).LevelCall s.active.other e) ∧
      t.port s.active.other = { s.port s.active.other with
        msr := (t.port s.active.other).msr, iir := (t.port s.active.other).iir, intr := (t.port s.active.other).intr } := by
  obtain ⟨t, hexec, hresult, haround, hdraws, hcur, hother, hevents⟩ := exec_wrMcr_live hlive v
  have hwrite := State.writeMcr_of_changed_lines hchanged
  rw [State.sendStatus_block (by simpa [Port.withMcr, State.cur] using hpeer)
    (by simpa [Port.withMcr, State.cur] using hstatus) (by simpa using hblock) (Ep.other_ne _)] at hwrite
  rw [← State.cur, hlines] at hwrite
  rw [hwrite] at hother hevents
  rw [State.port_msIn_self, State.port_emit, State.port_modify, if_neg (Ep.other_ne _)] at hother
  rw [State.events_msIn_self] at hevents
  refine ⟨t, hexec, hresult, haround, hdraws, hcur, ?_⟩
  rw [hother]
  exact ⟨Port.inputsSet _ _ _ _ _, Port.arbitrated_arbiterRan _, ⟨_, by simpa using hevents, Port.irqCall_level _ _⟩,
    Port.inputs_frame _ _ _ _ _⟩

end Changed

/-- The null-modem crossover (R186). -/
theorem translate_crossed (dtr rts : Bool) :
    translate true dtr rts = { cts := rts, dsr := dtr, cd := dtr, ri := false, rts := false, dtr := false } := rfl

/-- Straight through (R186). -/
theorem translate_straight (dtr rts : Bool) :
    translate false dtr rts = { cts := false, dsr := false, cd := false, ri := false, rts := rts, dtr := dtr } := rfl

/-- Settles O26: the mode of the link translates the lines crosswise. -/
theorem nullModemCrossover : Obligations.NullModemCrossover := by
  refine ⟨fun s v r hlive hpeer hstatus hblock hmode hchanged => ?block,
    fun s v r callback hlive hpeer hstatus hmode hchanged => ?outside⟩
  case block => exact exec_wrMcr_block hlive hpeer hchanged (by rw [hmode, translate_crossed]) hstatus hblock
  case outside => exact exec_wrMcr_outside hlive hpeer hchanged (by rw [hmode, translate_crossed]) hstatus

/-- Settles O27: the mode of the link passes RTS and DTR on and sends the four inputs of a UART low. -/
theorem straightThroughStatus : Obligations.StraightThroughStatus := by
  refine ⟨fun s v r callback hlive hpeer hstatus hmode hchanged => ?outside,
    fun s v r hlive hpeer hstatus hblock hmode hchanged => ?block⟩
  case outside => exact exec_wrMcr_outside hlive hpeer hchanged (by rw [hmode, translate_straight]) hstatus
  case block => exact exec_wrMcr_block hlive hpeer hchanged (by rw [hmode, translate_straight]) hstatus hblock

/-! ### The frame -/

/-- The frame of `WR.MCR` in the block that is not the writer (R142, R189). -/
def Port.StatusFrame (p q : Port) : Prop := q = { p with msr := q.msr, iir := q.iir, intr := q.intr }

/-- The write leaves the other block within the frame, whether a status is sent to it or not (R126, R189). -/
theorem State.writeMcr_statusFrame (s : State) (ep : Ep) (v : Byte) :
    (s.port ep.other).StatusFrame ((s.writeMcr ep v).port ep.other) := by
  have hstored : (s.modify ep (Port.withMcr v)).port ep.other = s.port ep.other := by simp
  by_cases hsame : v.getLsbD 0 = (s.port ep).mcr.getLsbD 0 ∧ v.getLsbD 1 = (s.port ep).mcr.getLsbD 1
  · rw [State.writeMcr_of_same_lines hsame, hstored]
    rfl
  · rw [State.writeMcr_of_changed_lines (not_and_or.mp hsame)]
    rcases State.port_sendStatus_other (s.modify ep (Port.withMcr v)) ep
      (translate (s.port ep).nullModem (v.getLsbD 0) (v.getLsbD 1)) with e | e <;> rw [e, hstored]
    · rfl
    · exact Port.inputs_frame _ _ _ _ _

/-- Settles O28: on a live block by what is the same whoever the peer is and the other block's frame; on an inert one nothing
changes. -/
theorem modemControlFrame : Obligations.ModemControlFrame := by
  intro s t v h
  refine ⟨exec_sameAround h, ?_⟩
  by_cases hlive : s.cur.live = true
  · obtain ⟨t', hexec, -, -, hdraws, hcur, hother, -⟩ := exec_wrMcr_live hlive v
    cases h.symm.trans hexec
    refine ⟨hdraws, by rw [hcur], ?_⟩
    rw [hother]
    exact s.writeMcr_statusFrame s.active v
  · cases h.symm.trans (busWrite_inert (by simpa using hlive) _)
    rw [State.cur_returning, State.port_returning]
    exact ⟨rfl, rfl, rfl⟩

end Sys2Proof.Machine
end

section
/-! PROOFS. The receive path: `RXPUSH` and `MSIN` in full, and that bytes reach software in their order and each once. -/

namespace Sys2Proof.Machine

/-! ### `RXPUSH` -/

theorem State.rxPush_onlyBlock (s : State) (ep : Ep) (data : List Byte) : s.OnlyBlock ep (s.rxPush ep data) :=
  ⟨by simp [State.port_rxPush], by simp, by simp, by simp, by simp⟩

theorem State.cur_rxPush (s : State) (data : List Byte) : (s.rxPush s.active data).cur = s.cur.pushed data := by
  rw [State.cur, State.active_rxPush, State.port_rxPush, if_pos rfl]
  rfl

/-- A push does not make a block inert (R200). -/
theorem Port.pushed_live (p : Port) (data : List Byte) : (p.pushed data).live = p.live := by
  rw [p.pushed_frame]
  rfl

/-- Settles O30: the block ends as `Port.pushed` says and the arbiter makes the one call. -/
theorem pushDeliversBytes : Obligations.PushDeliversBytes := by
  intro s data hlive
  have hcur := (State.cur_returning _ (.accepted true)).trans (s.cur_rxPush (rxBytes data))
  refine ⟨_, callEnd_live hlive _ _, rfl, (s.rxPush_onlyBlock _ _).returning _, ?_⟩
  rw [hcur]
  exact ⟨s.cur.staged_pushed _, s.cur.pushed_arbiterRan _, ⟨_, s.events_rxPush _ _, Port.irqCall_level _ _⟩,
    s.cur.pushed_frame _⟩

/-! ### The backlog -/

/-- `RD.RBR` on a live block: the byte that was staged is returned, and the next one staged (R101). -/
theorem exec_rdRbr_live {s : State} (h : s.cur.live = true) :
    ∃ t, exec .rdRbr s = .next t ∧ t.result = .byte s.cur.rbr ∧ t.cur = s.cur.taken :=
  ⟨_, busRead_live h _ _, rfl, (State.cur_returning _ _).trans s.cur_takeByte⟩

/-- Where bytes are queued, taking one stages exactly the first of them (R140 (b), R141). -/
theorem Port.taken_stages {p : Port} (h : p.rxq ≠ []) : p.taken.rbr :: p.taken.rxq = p.rxq ∧ p.taken.dr = true := by
  obtain ⟨b, rest, hq⟩ := List.exists_cons_of_ne_nil h
  rw [Port.taken_of_cons hq, hq, Port.arbitrated_rbr, Port.arbitrated_rxq, Port.dr, Port.arbitrated_lsr, getLsbD_lsrDr]
  exact ⟨rfl, rfl⟩

/-- Settles O31: the push with DR set only queues, and the read stages the head of that queue. -/
theorem backlogBehindStagedByte : Obligations.BacklogBehindStagedByte := by
  intro s data hlive hdr
  obtain ⟨t, ht, htcur, -⟩ := exec_rxpush_live hlive (.bytes data)
  have hpushed : s.cur.Pushed data t.cur := by rw [htcur]; exact s.cur.staged_pushed data
  obtain ⟨hrbr, hrxq, -⟩ := hpushed.1 hdr
  obtain ⟨u, hu, hresult, hucur⟩ := exec_rdRbr_live (s := t) (by rw [htcur, Port.pushed_live, hlive])
  rw [hrbr] at hresult
  refine ⟨t, ht, hrbr, hrxq, u, hu, hresult, fun hne => ?_⟩
  rw [← hrxq, hucur]
  exact Port.taken_stages (hrxq ▸ hne)

/-! ### The unread bytes -/

theorem Port.unread_of_ready {p : Port} (h : p.dr = true) : p.unread = p.rbr :: p.rxq := by simp [Port.unread, h]

theorem Port.unread_of_none_ready {p : Port} (h : p.dr = false) : p.unread = p.rxq := by simp [Port.unread, h]

@[simp] theorem Port.unread_arbitrated (p : Port) : p.arbitrated.unread = p.unread := by
  rw [p.arbitrated_frame]
  rfl

@[simp] theorem Port.unread_rearbitrated (p : Port) : p.rearbitrated.unread = p.unread := by
  rw [p.rearbitrated_frame]
  rfl

/-- Staging moves a byte from the head of the queue to RBR and loses none (R141). -/
@[simp] theorem Port.unread_staged (p : Port) : p.staged.unread = p.unread := by
  cases hq : p.rxq with
  | nil => rw [Port.staged_nil hq]
  | cons b rest =>
    cases hd : p.dr with
    | true => rw [Port.staged_ready hd]
    | false =>
      rw [Port.staged_cons hq hd, Port.unread_of_none_ready hd, hq, Port.unread_of_ready]
      exact getLsbD_lsrDr _ _ _

/-- The transmitter's flags stand beside DR (R32). -/
theorem Port.unread_lsrTx (p : Port) (v : Bool) : { p with lsr := lsrTx p.lsr v }.unread = p.unread := by
  simp only [Port.unread, Port.dr, getLsbD_lsrTx]
  rfl

/-- A push appends its bytes to the unread ones (R140). -/
theorem Port.unread_pushed (p : Port) (data : List Byte) : (p.pushed data).unread = p.unread ++ data := by
  rw [Port.pushed, Port.unread_arbitrated, Port.unread_staged]
  exact (List.append_assoc _ _ _).symm

/-- Taking a byte leaves what was queued (R101). -/
theorem Port.unread_taken (p : Port) : p.taken.unread = p.rxq := by
  rw [Port.taken, Port.unread_arbitrated, Port.unread_staged, Port.unread_of_none_ready]
  exact getLsbD_lsrDr _ _ _

/-- The unread bytes of either block grow at their end only, but for the reads of offset 0, `RESET` and `RESTORE` (R145). -/
theorem exec_unread_prefix {i : Instr} {s t : State} (h : exec i s = .next t) (hrbr : i ≠ .rdRbr) (hdll : i ≠ .rdDll)
    (hreset : i ≠ .reset) (hrestore : ∀ x, i ≠ .restore x) (q : Ep) : (s.port q).unread <+: (t.port q).unread := by
  refine exec_relates (R := fun p r => p.unread <+: r.unread) ?_ h
  exact {
    refl := fun _ => List.prefix_rfl
    trans := fun _ _ _ => List.IsPrefix.trans
    take := fun hi => absurd hi (not_or.mpr ⟨hrbr, hdll⟩)
    clear := fun _ p => by rw [Port.unread_rearbitrated]; exact List.prefix_rfl
    thr := fun _ _ p => (p.unread_lsrTx false).symm ▸ List.prefix_rfl
    accept := fun _ _ p => (p.unread_lsrTx true).symm ▸ List.prefix_rfl
    sink := fun _ _ _ _ _ _ => List.prefix_rfl
    push := fun _ p d => ⟨d, (p.unread_pushed d).symm⟩
    latch := fun _ _ _ => List.prefix_rfl
    enable := fun _ _ p => by rw [Port.unread_rearbitrated]; exact List.prefix_rfl
    line := fun _ _ _ => List.prefix_rfl
    modem := fun _ _ _ => List.prefix_rfl
    inputs := fun _ p _ _ _ _ => by rw [Port.unread_arbitrated]; exact List.prefix_rfl
    scratch := fun _ _ _ _ => List.prefix_rfl
    reset := fun hi => absurd hi hreset
    restore := fun x hi => absurd hi (hrestore x)
    link := fun _ p q hl => by rw [hl.2.1]; exact List.prefix_rfl }

/-- Settles O32: no other operation moves the front of the unread bytes, and the read of RBR leaves what was queued. -/
theorem receivedBytesKeepTheirOrder : Obligations.ReceivedBytesKeepTheirOrder := by
  refine ⟨fun i s t h hrbr hdll hreset hrestore q => ?_, fun s hlive => ?read⟩
  · obtain ⟨more, hmore⟩ := exec_unread_prefix h hrbr hdll hreset hrestore q
    exact ⟨more, hmore.symm⟩
  case read =>
    obtain ⟨t, hexec, hresult, hcur⟩ := exec_rdRbr_live hlive
    refine ⟨t, hexec, fun hready => ⟨_, hresult, ?_⟩, fun hnone => ?_⟩ <;> rw [hcur, Port.unread_taken]
    · exact Port.unread_of_ready hready
    · exact (Port.unread_of_none_ready hnone).symm

/-! ### `MSIN` -/

theorem State.msIn_onlyBlock (s : State) (ep : Ep) (c d r l : Bool) : s.OnlyBlock ep (s.msIn ep c d r l) :=
  ⟨by simp [State.port_msIn], by simp, by simp, by simp, by simp⟩

theorem State.cur_msIn (s : State) (c d r l : Bool) : (s.msIn s.active c d r l).cur = s.cur.inputs c d r l := by
  rw [State.cur, State.active_msIn, State.port_msIn_self, State.cur]

/-- Settles O33: the block ends as `Port.inputs` says and the arbiter makes the one call. -/
theorem modemInputsSetLevelsAndDeltas : Obligations.ModemInputsSetLevelsAndDeltas := by
  intro s c d r l hlive
  have hcur := (State.cur_returning _ .nothing).trans (s.cur_msIn c d r l)
  refine ⟨_, callEnd_live hlive _ _, rfl, (s.msIn_onlyBlock _ _ _ _ _).returning _, ?_⟩
  rw [hcur]
  exact ⟨s.cur.inputsSet c d r l, Port.arbitrated_arbiterRan { s.cur with msr := msrAfter s.cur.msr c d r l },
    ⟨_, s.events_msIn_self _ _ _ _ _, Port.irqCall_level _ _⟩, s.cur.inputs_frame c d r l⟩

end Sys2Proof.Machine
end

section
/-! PROOFS. `WR.THR` where the block has a local sink, the log or the echo surface, whoever the peer is. -/

namespace Sys2Proof.Machine

/-! ### The history -/

/-- The calls that the peer's part of `WR.THR` makes for the block `p`: none without a peer, and never a logged line
(R161, R164, R165). -/
def Port.PeerCalls (p : Port) (calls : List Event) : Prop :=
  (p.peer = none → calls = []) ∧ ∀ e ∈ calls, ∀ ep line, e ≠ Event.logLine ep line

theorem Port.peerCalls_nil (p : Port) : p.PeerCalls [] := ⟨fun _ => rfl, by simp⟩

/-- The arbiter's call is no logged line (R227). -/
theorem Port.irqCall_ne_logLine (p : Port) (ep ep' : Ep) (line : Text) : p.irqCall ep ≠ .logLine ep' line := by
  unfold Port.irqCall
  split <;> simp

/-- The peer's part adds to the history the call of the capability and, where that is a block's, its arbiter's call. -/
theorem State.events_peerDeliver (s : State) (ep : Ep) (v : Byte) :
    ∃ calls, (s.peerDeliver ep v).1.events = s.events ++ calls ∧ (s.port ep).PeerCalls calls := by
  rcases s.peerDeliver_cases ep v with ⟨q, hpeer, -, -, -, e⟩ | ⟨name, hpeer, -, e⟩ | e <;> rw [e]
  case inl =>
    refine ⟨_, (State.events_rxPush _ _ _).trans (List.append_assoc _ _ _), ?_, ?_⟩
    · exact fun hnone => absurd hnone (Option.isSome_iff_ne_none.mp hpeer)
    · simp [Port.irqCall_ne_logLine]
  case inr.inl =>
    refine ⟨[.receiveData ep (.ext name) v], rfl, ?_, by simp⟩
    exact fun hnone => absurd hnone (Option.isSome_iff_ne_none.mp hpeer)
  case inr.inr => exact ⟨[], (List.append_nil _).symm, Port.peerCalls_nil _⟩

theorem Port.sinkLines_of_flush {p : Port} (h : p.cfg.bindingName = some ['c', 'o', 'n', 's', 'o', 'l', 'e']) {v : Byte}
    (hflush : v = 0x0A#8 ∨ 1024 ≤ p.logbuf.length) (ep : Ep) : p.sinkLines ep v = [.logLine ep p.logbuf] :=
  if_pos ⟨h, hflush⟩

theorem Port.sinkLines_of_no_flush {p : Port} {v : Byte} (hv : v ≠ 0x0A#8) (hlen : p.logbuf.length < 1024) (ep : Ep) :
    p.sinkLines ep v = [] :=
  if_neg fun h => h.2.elim hv (Nat.not_le_of_lt hlen)

theorem Port.sinkLines_of_not_log {p : Port} (h : p.cfg.bindingName ≠ some ['c', 'o', 'n', 's', 'o', 'l', 'e']) (ep : Ep)
    (v : Byte) : p.sinkLines ep v = [] :=
  if_neg fun hlog => h hlog.1

/-! ### The sink's part -/

/-- `WR.THR` on a live block with a local sink: the sink accepts, whatever the peer answers (R161, R163). -/
theorem exec_wrThr_sink {s : State} {name : Ident} (hlive : s.cur.live = true) (hname : s.cur.cfg.bindingName = some name)
    (v : Byte) :
    ∃ t calls, exec (.wrThr v) s = .next t ∧ t.cur.lsr.getLsbD 5 = true ∧ t.cur.lsr.getLsbD 6 = true ∧
      s.cur.PeerCalls calls ∧ t.events = s.events ++ calls ++ s.cur.sinkLines s.active v ∧ s.cur.SinkTook v t.cur := by
  obtain ⟨t, hexec, -, -, -, -, hcur, hevents⟩ := exec_wrThr_live (v := v) hlive rfl
  obtain ⟨calls, hcalls, hpeer⟩ := (s.sending s.active v).events_peerDeliver s.active v
  have haccepted : t.cur = s.cur.sent v true := by rw [hcur, hname, Option.isSome_some, Bool.or_true]
  rw [State.port_modify, if_pos rfl] at hpeer
  obtain ⟨hthre, htsre⟩ := s.cur.sent_flags v true
  refine ⟨t, calls, hexec, ?_⟩
  rw [haccepted, hevents, hcalls, State.events_modify]
  exact ⟨hthre, htsre, hpeer, rfl, s.cur.sent_took v true⟩

/-- Settles O16: the log clause of `Port.SinkTook` for the buffer, and `Port.sinkLines` for the line. -/
theorem logSinkTakesByte : Obligations.LogSinkTakesByte := by
  intro s v hlive hlog
  obtain ⟨t, calls, hexec, hthre, htsre, ⟨hnone, hnoLine⟩, hevents, -, htook, -⟩ := exec_wrThr_sink hlive hlog v
  obtain ⟨hcolumn, hsurface, hlinefeed, hfull, hroom⟩ := htook hlog
  refine ⟨t, calls, hexec, hthre, htsre, hnone, hnoLine, fun hv => ⟨hlinefeed hv, ?_⟩,
    fun hv hlen => ⟨hfull hv hlen, ?_⟩, fun hv hlen => ⟨hroom hv hlen, ?_⟩, hcolumn, hsurface⟩
  · rw [hevents, Port.sinkLines_of_flush hlog (.inl hv)]
  · rw [hevents, Port.sinkLines_of_flush hlog (.inr hlen)]
  · rw [hevents, Port.sinkLines_of_no_flush hv hlen, List.append_nil]

/-- Settles O17: the echo clause of `Port.SinkTook`, and no line is logged because the sink is not the log. -/
theorem echoSurfaceTakesByte : Obligations.EchoSurfaceTakesByte := by
  intro s v name hlive hname hecho
  obtain ⟨t, calls, hexec, hthre, htsre, ⟨hnone, hnoLine⟩, hevents, -, -, htook⟩ := exec_wrThr_sink hlive hname v
  have hnotLog : s.cur.cfg.bindingName ≠ some ['c', 'o', 'n', 's', 'o', 'l', 'e'] := by simpa [hname] using hecho
  rw [Port.sinkLines_of_not_log hnotLog, List.append_nil] at hevents
  exact ⟨t, calls, hexec, hthre, htsre, hnone, hnoLine, hevents, htook name hname hecho⟩

end Sys2Proof.Machine
end

section
/-! PROOFS. The connection broker: what `RESOLVE` comes to in each case of its target, on this block and on the other; that a
link once made stays through every operation; and `ATTACHMOUSE`. -/

namespace Sys2Proof.Machine

/-! ### The history and changes of one block -/

/-- The state with a sequence of calls added to the history. -/
def State.reporting (s : State) (calls : List Event) : State := { s with events := s.events ++ calls }

@[simp] theorem State.port_reporting (s : State) (l : List Event) (q : Ep) : (s.reporting l).port q = s.port q := by
  cases q <;> rfl
@[simp] theorem State.events_reporting (s : State) (l : List Event) : (s.reporting l).events = s.events ++ l := rfl
@[simp] theorem State.active_reporting (s : State) (l : List Event) : (s.reporting l).active = s.active := rfl
@[simp] theorem State.reporting_nil (s : State) : s.reporting [] = s := by simp [State.reporting]

theorem State.reporting_onlyBlock (s : State) (ep : Ep) (l : List Event) : s.OnlyBlock ep (s.reporting l) :=
  ⟨State.port_reporting _ _ _, rfl, rfl, rfl, rfl⟩

theorem State.OnlyBlock.modify {s t : State} {ep : Ep} (h : s.OnlyBlock ep t) (f : Port → Port) :
    s.OnlyBlock ep (t.modify ep f) := by
  obtain ⟨hother, hdraws, hdirectory, hactive, hpending⟩ := h
  exact ⟨by simpa using hother, by simpa using hdraws, by simpa using hdirectory, by simpa using hactive,
    by simpa using hpending⟩

theorem State.OnlyBlock.emit {s t : State} {ep : Ep} (h : s.OnlyBlock ep t) (e : Event) : s.OnlyBlock ep (t.emit e) := by
  obtain ⟨hother, hdraws, haround⟩ := h
  exact ⟨by rw [State.port_emit]; exact hother, hdraws, haround⟩

theorem State.modify_modify (s : State) (ep : Ep) (f g : Port → Port) :
    (s.modify ep f).modify ep g = s.modify ep (g ∘ f) := by cases ep <;> rfl

theorem State.reporting_modify (s : State) (ep : Ep) (f : Port → Port) (l : List Event) :
    (s.modify ep f).reporting l = (s.reporting l).modify ep f := by cases ep <;> rfl

@[simp] theorem State.modify_id (s : State) (ep : Ep) : s.modify ep id = s := by cases ep <;> rfl

theorem State.modify_congr {s : State} {ep : Ep} {f g : Port → Port} (h : f (s.port ep) = g (s.port ep)) :
    s.modify ep f = s.modify ep g := by
  cases ep
  · exact congrArg (fun p => { s with portA := p }) h
  · exact congrArg (fun p => { s with portB := p }) h

/-! ### The link recorded and withdrawn -/

/-- The peer recorded before the target's `connect` is called (R182, decision D29). -/
def Port.named (r : Ref) (p : Port) : Port := { p with peer := some r }

/-- The block with a whole link: peer, both capabilities and the flag (R182). -/
def Port.joined (r : Ref) (flag : Bool) (p : Port) : Port :=
  { p with peer := some r, sendData := some r, updateStatus := some r, nullModem := flag }

@[simp] theorem Port.named_peer (r : Ref) (p : Port) : (p.named r).peer = some r := rfl
@[simp] theorem Port.named_live (r : Ref) (p : Port) : (p.named r).live = p.live := rfl
@[simp] theorem Port.named_joined (r : Ref) (flag : Bool) (p : Port) : (p.named r).joined r flag = p.joined r flag := rfl
theorem Port.named_linked (r : Ref) (flag : Bool) (p : Port) :
    (p.named r).linked r flag = (p.named r).joined r flag := rfl

/-- What a target exports does not depend on which peers are recorded (R202). -/
theorem State.exports_named (s : State) (ep : Ep) (r : Ref) (t : Target) :
    (s.modify ep (Port.named r)).exportsConnect t = s.exportsConnect t ∧
    (s.modify ep (Port.named r)).exportsLink t = s.exportsLink t := by
  cases t with
  | port q => by_cases h : q = ep <;> simp [State.exportsConnect, State.exportsLink, h]
  | ext => exact ⟨rfl, rfl⟩

/-- Steps 3 and 4 of R182, where nothing has touched the block since its peer was recorded. -/
theorem State.captureLink_named {s : State} {ep : Ep} (hpeer : (s.port ep).peer = none) (t : Target) (flag : Bool) :
    (s.modify ep (Port.named t.ref)).captureLink ep t flag =
      if s.exportsLink t then (s.modify ep (Port.joined t.ref flag), false)
      else (s.emit (.resolutionFailure ep), true) := by
  have hwithdrawn : (s.modify ep (Port.named t.ref)).modify ep (fun p => { p with peer := none }) = s := by
    rw [State.modify_modify]
    exact (State.modify_congr (g := id) (by rw [← hpeer]; rfl)).trans (s.modify_id ep)
  rw [State.captureLink, (s.exports_named ep t.ref t).2, hwithdrawn, State.modify_modify]
  rfl

/-- While its `connect` is called, the other block finds this one with its peer recorded (R182, decision D29). -/
def State.connecting (s : State) (ep : Ep) (flag : Bool) : State :=
  (s.modify ep (Port.named (.port ep.other))).emit (.connect ep (.port ep.other) flag)

@[simp] theorem State.port_connecting_self (s : State) (ep : Ep) (flag : Bool) :
    (s.connecting ep flag).port ep = (s.port ep).named (.port ep.other) := by simp [State.connecting]
@[simp] theorem State.port_connecting_other (s : State) (ep : Ep) (flag : Bool) :
    (s.connecting ep flag).port ep.other = s.port ep.other := by simp [State.connecting]
@[simp] theorem State.directory_connecting (s : State) (ep : Ep) (flag : Bool) :
    (s.connecting ep flag).directory = s.directory := by simp [State.connecting]
@[simp] theorem State.events_connecting (s : State) (ep : Ep) (flag : Bool) :
    (s.connecting ep flag).events = s.events ++ [.connect ep (.port ep.other) flag] := by simp [State.connecting]

/-- Link management leaves a block live or inert (R200). -/
theorem Port.LinkStep.live {ep : Ep} {p q : Port} (h : p.LinkStep ep q) : q.live = p.live := by
  rw [h.2.1]; rfl

/-- The other block's `CONNECT` does not touch this one, which has a peer (R182). -/
theorem State.LinkFrame.port_connecting {s u : State} {ep : Ep} {flag : Bool} (hu : (s.connecting ep flag).LinkFrame u) :
    u.port ep = (s.port ep).named (.port ep.other) := by
  obtain ⟨hports, -⟩ := hu
  rw [(hports ep).1 (by simp), State.port_connecting_self]

/-- Step 3 of R182 after the other block's `CONNECT`, which leaves that block live. -/
theorem State.captureLink_connecting {s u : State} {ep : Ep} {flag : Bool} (hu : (s.connecting ep flag).LinkFrame u)
    (hlive : (s.port ep.other).live = true) :
    u.captureLink ep (.port ep.other) flag = (u.modify ep (Port.joined (.port ep.other) flag), false) := by
  have hport := hu.port_connecting
  obtain ⟨hports, -⟩ := hu
  have hexports : u.exportsLink (.port ep.other) = true := by
    rw [State.exportsLink, (hports ep.other).live, State.port_connecting_other, hlive]
  rw [State.captureLink, if_pos hexports,
    State.modify_congr (g := Port.joined (.port ep.other) flag) (by rw [hport]; exact Port.named_linked _ _ _)]

/-! ### `RESOLVE` with nothing to do -/

/-- A block whose descriptor is absent, without an arrow or another source's has no target (R180, R182). -/
theorem Port.linkTarget_none {p : Port}
    (h : p.cfg.connection = none ∨ (∃ d, p.cfg.connection = some d ∧ NoArrow d) ∨
      ∃ source target, p.cfg.connection = some (source ++ ['-', '>'] ++ target) ∧ NoArrow source ∧
        source ≠ p.cfg.ownId) : p.linkTarget = none := by
  unfold Port.linkTarget
  rcases h with h | ⟨d, h, hd⟩ | ⟨source, target, h, hd, hsource⟩
  · rw [h]
  · rw [h]; simp only [splitArrow_none hd]
  · rw [h]; simp only [splitArrow_joined target hd, if_neg hsource]

/-- The three tests before the lookup of R182. -/
theorem State.resolveLink_nothing {s : State} {ep : Ep}
    (h : (s.port ep).peer.isSome = true ∨ (s.port ep).cfg.connection = none ∨
      (∃ d, (s.port ep).cfg.connection = some d ∧ NoArrow d) ∨
      ∃ source target, (s.port ep).cfg.connection = some (source ++ ['-', '>'] ++ target) ∧ NoArrow source ∧
        source ≠ (s.port ep).cfg.ownId) (fuel : Nat) (flag : Bool) :
    State.resolveLink fuel s ep flag = (s, false) := by
  rcases h with h | h
  · exact State.resolveLink_of_peer h fuel flag
  · cases fuel with
    | zero => rfl
    | succ n => simp [State.resolveLink, Port.linkTarget_none h]

/-! ### `RESOLVE` of a block that names a target -/

/-- The call step 2 of R182 makes on an outside component: of its `connect`, where it exports one. -/
def outsideConnect (ep : Ep) (name : Ident) (flag exported : Bool) : List Event :=
  if exported then [.connect ep (.ext name) flag] else []

theorem State.callConnect_outside (s : State) (again : State → Ep → State) (ep : Ep) (name : Ident) (c d u flag : Bool) :
    s.callConnect again ep (.ext name c d u) flag = s.reporting (outsideConnect ep name flag c) := by
  cases c with
  | true => rfl
  | false => exact s.reporting_nil.symm

section Target
variable {s : State} {ep : Ep} {key : Ident} (hpeer : (s.port ep).peer = none) (hkey : (s.port ep).linkTarget = some key)
include hpeer hkey

/-- An absent target, and the block itself (R182, R183; notes/assumptions/28). -/
theorem State.resolveLink_absent
    (h : lookupTarget s.directory key = none ∨ lookupTarget s.directory key = some (.port ep)) (fuel : Nat) (flag : Bool) :
    State.resolveLink (fuel + 1) s ep flag = (s.emit (.resolutionFailure ep), true) := by
  simp [State.resolveLink, hpeer, hkey, lookupPeer_none h]

/-- Steps 2 to 4 of R182, where the target is another endpoint. -/
theorem State.resolveLink_found {t : Target} (h : lookupTarget s.directory key = some t) (ht : t ≠ .port ep) (fuel : Nat)
    (flag : Bool) :
    State.resolveLink (fuel + 1) s ep flag = ((s.modify ep (Port.named t.ref)).callConnect
      (fun u q => (State.resolveLink fuel u q flag).1) ep t flag).captureLink ep t flag := by
  simp only [State.resolveLink, hpeer, hkey, lookupPeer_of_ne h ht]
  rfl

/-- An outside component calls nothing back, so that the link stands or falls with its exports (R182, R183;
notes/assumptions/12). -/
theorem State.resolveLink_outside {name : Ident} {c d u : Bool} (h : lookupTarget s.directory key = some (.ext name c d u))
    (fuel : Nat) (flag : Bool) :
    State.resolveLink (fuel + 1) s ep flag =
      if d && u then ((s.reporting (outsideConnect ep name flag c)).modify ep (Port.joined (.ext name) flag), false)
      else ((s.reporting (outsideConnect ep name flag c)).emit (.resolutionFailure ep), true) := by
  rw [State.resolveLink_found hpeer hkey h nofun, State.callConnect_outside, State.reporting_modify]
  exact State.captureLink_named (by simpa using hpeer) (.ext name c d u) flag

/-- An inert block, and an empty slot, exports nothing (R183, decision D33). -/
theorem State.resolveLink_inert (h : lookupTarget s.directory key = some (.port ep.other))
    (hinert : (s.port ep.other).live = false) (fuel : Nat) (flag : Bool) :
    State.resolveLink (fuel + 1) s ep flag = (s.emit (.resolutionFailure ep), true) := by
  have hexports : (s.modify ep (Port.named (.port ep.other))).exportsConnect (.port ep.other) = false := by
    rw [(s.exports_named ep _ _).1]; exact hinert
  rw [State.resolveLink_found hpeer hkey h (by simp), Target.ref, State.callConnect, hexports]
  exact (State.captureLink_named hpeer (.port ep.other) flag).trans (if_neg (by simp [State.exportsLink, hinert]))

/-- A live block exports all three: it performs its `CONNECT`, then its capabilities are captured (R182, R185). -/
theorem State.resolveLink_block (h : lookupTarget s.directory key = some (.port ep.other))
    (hlive : (s.port ep.other).live = true) (fuel : Nat) (flag : Bool) :
    State.resolveLink (fuel + 1) s ep flag =
      ((State.resolveLink fuel (s.connecting ep flag) ep.other flag).1.modify ep (Port.joined (.port ep.other) flag), false) := by
  have hexports : (s.modify ep (Port.named (.port ep.other))).exportsConnect (.port ep.other) = true := by
    rw [(s.exports_named ep _ _).1]; exact hlive
  rw [State.resolveLink_found hpeer hkey h (by simp), Target.ref, State.callConnect, if_pos hexports]
  exact State.captureLink_connecting (State.resolveLink_frame fuel (s.connecting ep flag) ep.other flag) hlive

/-- Another block that has a peer, in particular this one, makes no link back (R182, R184). -/
theorem State.resolveLink_back (h : lookupTarget s.directory key = some (.port ep.other))
    (hlive : (s.port ep.other).live = true) (hother : (s.port ep.other).peer.isSome = true) (fuel : Nat) (flag : Bool) :
    State.resolveLink (fuel + 1) s ep flag =
      ((s.connecting ep flag).modify ep (Port.joined (.port ep.other) flag), false) := by
  rw [State.resolveLink_block hpeer hkey h hlive, State.resolveLink_of_peer (by simpa using hother)]

end Target

/-! ### The outcome of the operation -/

theorem exec_resolve_live {s u : State} {flag failed : Bool} (hlive : s.cur.live = true)
    (h : State.resolveLink resolveFuel s s.active flag = (u, failed)) :
    exec (.resolve flag) s = .next (u.returning (linkResult failed)) := by
  rw [exec, execResolve, h]
  exact callEnd_live hlive u _

/-- Settles O40: the three tests before the lookup. -/
theorem resolveWithNothingToDo : Obligations.ResolveWithNothingToDo := by
  intro s flag hlive h
  exact exec_resolve_live hlive (State.resolveLink_nothing h resolveFuel flag)

/-- Settles O41: both lookups find no peer. -/
theorem resolveReportsAbsentTarget : Obligations.ResolveReportsAbsentTarget := by
  intro s flag target hlive hpeer hconnection harrow h
  have hlookup : lookupTarget s.directory target = none ∨ lookupTarget s.directory target = some (.port s.active) :=
    h.imp_left fun hnone => by simpa [lookupTarget] using hnone
  exact exec_resolve_live hlive (State.resolveLink_absent hpeer (Port.linkTarget_own hconnection harrow) hlookup 2 flag)

/-- Settles O43: the link stands or falls with the exports. -/
theorem resolveOutsideComponent : Obligations.ResolveOutsideComponent := by
  intro s flag c d u target name hlive hpeer hconnection harrow h
  have hresolve := State.resolveLink_outside hpeer (Port.linkTarget_own hconnection harrow) h 2 flag
  by_cases hlink : d = true ∧ u = true
  · rw [if_pos (by simpa using hlink)] at hresolve
    refine ⟨_, exec_resolve_live hlive hresolve, ((s.reporting_onlyBlock _ _).modify _).returning _,
      fun _ => ⟨rfl, by simp [outsideConnect], ?_⟩, fun h => absurd hlink h⟩
    simp [State.cur, Port.joined]
  · rw [if_neg (by simpa using hlink)] at hresolve
    refine ⟨_, exec_resolve_live hlive hresolve, ?_, fun h => absurd h hlink, fun _ => ⟨rfl, by simp [outsideConnect], ?_⟩⟩
    · exact ((s.reporting_onlyBlock _ _).emit _).returning _
    · simp [State.cur]

/-! ### `RESOLVE` towards the other block -/

/-- The state the other block's `CONNECT` leaves, called inside a `RESOLVE` of the block in slot `ep` (R182, R185). -/
def State.called (s : State) (ep : Ep) (flag : Bool) : State :=
  (State.resolveLink 2 (s.connecting ep flag) ep.other flag).1

/-- This block is linked, and what becomes of the rest its peer's `CONNECT` decides (R182, R184, R185). -/
theorem exec_resolve_block {s : State} {target : Ident} (hlive : s.cur.live = true) (hpeer : s.cur.peer = none)
    (hkey : s.cur.linkTarget = some target) (h : lookupTarget s.directory target = some (.port s.active.other))
    (hother : (s.port s.active.other).live = true) (flag : Bool) :
    ∃ t, exec (.resolve flag) s = .next t ∧ t.result = .resolved ∧
      t.cur = s.cur.joined (.port s.active.other) flag ∧
      t.port s.active.other = (s.called s.active flag).port s.active.other ∧
      t.events = (s.called s.active flag).events := by
  have hexec := exec_resolve_live hlive (State.resolveLink_block hpeer hkey h hother 2 flag)
  obtain ⟨-, hactive, -⟩ := exec_sameAround hexec
  refine ⟨_, hexec, rfl, ?_, by simp [State.called], by simp [State.called]⟩
  rw [State.cur, hactive]
  simp [(State.resolveLink_frame 2 (s.connecting s.active flag) s.active.other flag).port_connecting, State.cur]

section Called
variable {s : State} {ep : Ep} {back : Ident} (hpeer : (s.port ep.other).peer = none)
  (hkey : (s.port ep.other).linkTarget = some back)
include hpeer hkey

/-- The descriptors of the two blocks name each other (R184). -/
theorem State.called_back (hlive : (s.port ep).live = true) (h : lookupTarget s.directory back = some (.port ep))
    (flag : Bool) :
    (s.called ep flag).port ep.other = (s.port ep.other).joined (.port ep) flag ∧
    (s.called ep flag).events =
      s.events ++ [.connect ep (.port ep.other) flag, .connect ep.other (.port ep) flag] := by
  have hcall := State.resolveLink_back (s := s.connecting ep flag) (ep := ep.other) (by simpa using hpeer)
    (by simpa using hkey) (by simpa using h) (by simpa using hlive) (by simp) 1 flag
  rw [State.called, hcall]
  exact ⟨by simp, by simp⟩

/-- The target of the other block's descriptor is absent or that block itself (R183). -/
theorem State.called_absent
    (h : lookupTarget s.directory back = none ∨ lookupTarget s.directory back = some (.port ep.other)) (flag : Bool) :
    (s.called ep flag).port ep.other = s.port ep.other ∧
    (s.called ep flag).events = s.events ++ [.connect ep (.port ep.other) flag, .resolutionFailure ep.other] := by
  have hcall := State.resolveLink_absent (s := s.connecting ep flag) (ep := ep.other) (by simpa using hpeer)
    (by simpa using hkey) (by simpa using h) 1 flag
  rw [State.called, hcall]
  exact ⟨by simp, by simp⟩

/-- The other block's descriptor names an outside component (R182, R183). -/
theorem State.called_outside {name : Ident} {c d u : Bool} (h : lookupTarget s.directory back = some (.ext name c d u))
    (flag : Bool) :
    (d = true ∧ u = true → (s.called ep flag).port ep.other = (s.port ep.other).joined (.ext name) flag ∧
      (s.called ep flag).events =
        s.events ++ [.connect ep (.port ep.other) flag] ++ outsideConnect ep.other name flag c) ∧
    (¬(d = true ∧ u = true) → (s.called ep flag).port ep.other = s.port ep.other ∧
      (s.called ep flag).events = s.events ++ [.connect ep (.port ep.other) flag] ++
        outsideConnect ep.other name flag c ++ [.resolutionFailure ep.other]) := by
  have hcall := State.resolveLink_outside (s := s.connecting ep flag) (ep := ep.other) (by simpa using hpeer)
    (by simpa using hkey) (by simpa using h) 1 flag
  rw [State.called, hcall]
  constructor
  · intro hlink
    rw [if_pos (by simpa using hlink)]
    simp
  · intro hlink
    rw [if_neg (by simpa using hlink)]
    simp

end Called

/-- Settles O42: a live block's own `CONNECT` runs inside, case by case of its descriptor; an inert one exports nothing. -/
theorem resolveLinksTheBlocks : Obligations.ResolveLinksTheBlocks := by
  intro s flag target hlive hpeer hconnection harrow h
  have hkey := Port.linkTarget_own hconnection harrow
  cases hother : (s.port s.active.other).live with
  | false =>
    have hexec := exec_resolve_live hlive (State.resolveLink_inert hpeer hkey h hother 2 flag)
    exact ⟨_, hexec, exec_sameAround hexec, rfl, nofun, fun _ => ⟨rfl, rfl, fun q => by simp⟩⟩
  | true =>
    obtain ⟨t, hexec, hresult, hcur, hport, hevents⟩ := exec_resolve_block hlive hpeer hkey h hother flag
    obtain ⟨haround, hdraws, -⟩ := linkOperationsWriteLinkStateOnly _ s t (.inl ⟨flag, rfl⟩) hexec
    refine ⟨t, hexec, haround, hdraws, fun _ => ⟨hresult, hcur, ?_, ?_⟩, nofun⟩
    all_goals rw [hport, hevents]
    · intro hnothing
      rw [State.called, State.resolveLink_nothing (by simpa using hnothing)]
      simp
    · intro back hnone hown hfree
      have hback := Port.linkTarget_own hown hfree
      exact ⟨fun hb => State.called_back hnone hback hlive hb flag,
        fun hb => State.called_absent hnone hback hb flag,
        fun name c d u hb => State.called_outside hnone hback hb flag⟩

/-! ### `CONNECT`, and `RESOLVE` once more -/

/-- Settles O44: the two meanings are one. -/
theorem connectPerformsResolve : Obligations.ConnectPerformsResolve :=
  fun _ _ => rfl

/-- Settles O45: the block is the one in hand still, is live still, and has a peer now. -/
theorem resolutionIsIdempotent : Obligations.ResolutionIsIdempotent := by
  intro s t flag flag' h hpeer hlive
  have hlive' : t.cur.live = true := by
    obtain ⟨-, hactive, -⟩ := exec_sameAround h
    rw [State.cur, hactive, (Port.Ages.of_fixed (exec_fixed h s.active)).live]
    exact hlive
  exact ⟨_, exec_resolve_live hlive' (State.resolveLink_of_peer hpeer resolveFuel flag'), State.port_returning _ _, rfl⟩

/-! ### A link stays -/

/-- Where `p` has a peer, `q` has the same link (R190). -/
def Port.KeepsLink (p q : Port) : Prop :=
  p.peer.isSome = true → q.peer = p.peer ∧ q.sendData = p.sendData ∧ q.updateStatus = p.updateStatus ∧
    q.nullModem = p.nullModem

theorem Port.KeepsLink.refl (p : Port) : p.KeepsLink p := fun _ => ⟨rfl, rfl, rfl, rfl⟩

theorem Port.KeepsLink.trans {p q r : Port} (h : p.KeepsLink q) (h' : q.KeepsLink r) : p.KeepsLink r := by
  intro hp
  obtain ⟨hpeer, hdata, hstatus, hmode⟩ := h hp
  obtain ⟨hpeer', hdata', hstatus', hmode'⟩ := h' (by rw [hpeer]; exact hp)
  exact ⟨hpeer'.trans hpeer, hdata'.trans hdata, hstatus'.trans hstatus, hmode'.trans hmode⟩

@[simp] theorem Port.rearbitrated_nullModem (p : Port) : p.rearbitrated.nullModem = p.nullModem := by
  rw [p.rearbitrated_frame]

/-- A snapshot holds nothing of the link (R203, R205). -/
theorem Port.restoredFrom_keepsLink {p r : Port} {x : List Prim} (h : p.restoredFrom x = some r) : p.KeepsLink r := by
  unfold Port.restoredFrom at h
  split at h
  · cases h; exact fun _ => ⟨rfl, rfl, rfl, rfl⟩
  · cases h

/-- Settles O48: only link management writes the link state, and it does not touch a block that has a peer. -/
theorem linkPersists : Obligations.LinkPersists := by
  intro i s t q h
  refine exec_relates (R := Port.KeepsLink) ?_ h
  exact {
    refl := .refl
    trans := fun _ _ _ => .trans
    take := fun _ _ _ => by simp
    clear := fun _ _ _ => by simp
    thr := fun _ _ p => .refl p
    accept := fun _ _ p => .refl p
    sink := fun _ _ p _ _ _ => .refl p
    push := fun _ _ _ _ => by simp
    latch := fun _ p _ => .refl p
    enable := fun _ _ _ _ => by simp
    line := fun _ _ p => .refl p
    modem := fun _ _ p => .refl p
    inputs := fun _ _ _ _ _ _ _ => by simp
    scratch := fun _ _ p _ => .refl p
    reset := fun _ p => .refl p
    restore := fun _ _ _ _ => Port.restoredFrom_keepsLink
    link := fun _ p _ hl hp => by rw [hl.1 hp]; exact Port.KeepsLink.refl p hp }

/-! ### `ATTACHMOUSE` -/

/-- `ATTACHMOUSE` where its two conditions hold (R187). -/
theorem State.attach_free {s : State} {ep : Ep} {id : Ident} (hpeer : (s.port ep).peer = none)
    (hid : id = (s.port ep).cfg.ownId) (device callback : Ident) :
    s.attach ep id device callback = (s.modify ep fun p =>
      { p with peer := some (.ext device), updateStatus := some (.ext callback), nullModem := false }, true) :=
  if_neg (by simp [hpeer, hid])

/-- `ATTACHMOUSE` where one of them fails (R187). -/
theorem State.attach_refused {s : State} {ep : Ep} {id : Ident}
    (h : (s.port ep).peer.isSome = true ∨ id ≠ (s.port ep).cfg.ownId) (device callback : Ident) :
    s.attach ep id device callback = (s, false) := if_pos (by simpa using h)

theorem exec_attachMouse_live {s u : State} {id device callback : Ident} {ok : Bool} (hlive : s.cur.live = true)
    (h : s.attach s.active id device callback = (u, ok)) :
    exec (.attachMouse id device callback) s = .next (u.returning (.attached ok)) := by
  rw [exec, execAttachMouse, h]
  exact callEnd_live hlive u _

/-- Settles O46: the two outcomes of `attach`. -/
theorem mouseAttaches : Obligations.MouseAttaches := by
  intro s id device callback hlive
  constructor
  · intro hpeer hid
    refine ⟨_, exec_attachMouse_live hlive (State.attach_free hpeer hid device callback), rfl,
      (s.modify_onlyBlock _ _).returning _, by simp, ?_⟩
    rw [State.cur_returning, State.cur, State.active_modify]
    simp [State.cur]
  · intro h
    exact exec_attachMouse_live hlive (State.attach_refused h device callback)

end Sys2Proof.Machine
end

section
/-! PROOFS. The host's two calls on a snapshot: what `SAVE` and `RESTORE` come to on a live block, and that a block holds the
snapshot it was restored from. -/

namespace Sys2Proof.Machine

/-! ### Snapshots -/

/-- What `RESTORE` loads, `SAVE` gives back (R209, decision D19). -/
theorem Port.snapshot_of_restoredFrom {p r : Port} {x : List Prim} (h : p.restoredFrom x = some r) : r.snapshot = x := by
  unfold Port.restoredFrom at h
  split at h
  · cases h; rfl
  · cases h

/-- Every block's snapshot has the shape of R203, so that every block takes it (R205). -/
theorem Port.exists_restoredFrom_snapshot (p q : Port) : ∃ r, p.restoredFrom q.snapshot = some r := ⟨_, rfl⟩

/-- What is no block's snapshot no block takes (R206). -/
theorem Port.restoredFrom_eq_none {x : List Prim} (h : ∀ r : Port, r.snapshot ≠ x) (p : Port) :
    p.restoredFrom x = none :=
  Option.eq_none_iff_forall_ne_some.mpr fun r hr => h r (Port.snapshot_of_restoredFrom hr)

/-! ### `SAVE` and `RESTORE` on a live block -/

theorem exec_save_live {s : State} (hlive : s.cur.live = true) :
    exec .save s = .next (s.returning (.snapshot s.cur.snapshot)) :=
  callEnd_live hlive s _

/-- `RESTORE` of a snapshot the block takes replaces that block and does no more (R205). -/
theorem exec_restore_taken {s : State} {x : List Prim} {r : Port} (hlive : s.cur.live = true)
    (h : s.cur.restoredFrom x = some r) :
    ∃ t, exec (.restore x) s = .next t ∧ t.result = .restored ∧ s.OnlyBlock s.active t ∧ t.events = s.events ∧
      t.cur = r := by
  rw [exec, execRestore, h]
  exact ⟨_, callEnd_live hlive _ _, rfl, (s.modify_onlyBlock _ _).returning _, s.events_modify _ _,
    (State.cur_returning _ _).trans (s.cur_modify _)⟩

theorem exec_restore_mismatch {s : State} {x : List Prim} (hlive : s.cur.live = true)
    (h : s.cur.restoredFrom x = none) : exec (.restore x) s = .next (s.returning .snapshotShapeMismatch) := by
  rw [exec, execRestore, h]
  exact callEnd_live hlive _ _

/-- The block in hand is live after an operation where it was live before it (R200). -/
theorem exec_cur_live {i : Instr} {s t : State} (h : exec i s = .next t) : t.cur.live = s.cur.live := by
  obtain ⟨-, hactive, -⟩ := exec_sameAround h
  rw [State.cur, hactive]
  exact (Port.Ages.of_fixed (exec_fixed h s.active)).live

/-- Settles O35: the ten elements are those of `Port.snapshot`. -/
theorem saveReturnsTheTenElements : Obligations.SaveReturnsTheTenElements :=
  fun _ => exec_save_live

/-- Settles O36: ten elements of the kinds of R203 are a snapshot the block takes. -/
theorem restoreReplacesRegistersAndQueue : Obligations.RestoreReplacesRegistersAndQueue :=
  fun _ _ _ _ _ _ _ _ _ _ _ hlive => exec_restore_taken hlive rfl

/-- Settles O37: a block's snapshot has ten elements of the kinds of R203, so that a list without that shape is none. -/
theorem restoreRejectsWrongLength : Obligations.RestoreRejectsWrongLength := by
  intro s x hlive hshape
  refine exec_restore_mismatch hlive (Port.restoredFrom_eq_none (fun r hr => ?_) _)
  rcases hshape with hlength | hkinds
  · exact hlength (by rw [← hr]; rfl)
  · exact hkinds _ _ _ _ _ _ _ _ _ _ hr.symm

/-- Settles O38: the second block takes the first one's snapshot, is live still, and then holds that snapshot. -/
theorem snapshotRoundTrip : Obligations.SnapshotRoundTrip := by
  intro s s' hlive hlive'
  obtain ⟨r, hr⟩ := s'.cur.exists_restoredFrom_snapshot s.cur
  obtain ⟨u, hrestore, hresult, -, -, hcur⟩ := exec_restore_taken hlive' hr
  have hlive_u : u.cur.live = true := (exec_cur_live hrestore).trans hlive'
  refine ⟨_, _, u, _, exec_save_live hlive, rfl, hrestore, hresult, exec_save_live hlive_u, ?_⟩
  rw [State.result_returning, hcur, Port.snapshot_of_restoredFrom hr]

end Sys2Proof.Machine
end

section
/-! PROOFS. The interrupt request: that every operation ends in a next state, which operations move IIR and the request level,
and what the arbiter's outcome depends on. -/

namespace Sys2Proof.Machine

/-! ### No operation stops -/

/-- Settles O55: every meaning ends with `busRead`, `busWrite` or `callEnd`, each of which is a next state. -/
theorem everyOperationCompletes : Obligations.EveryOperationCompletes := by
  intro i s
  cases i with
  | rdRbr | rdDll | rdIer | rdDlm | rdIir | rdLcr | rdMcr | rdLsr | rdMsr | rdScr => exact ⟨_, rfl⟩
  | wrThr | wrDll | wrIer | wrDlm | wrX2 | wrLcr | wrMcr | wrX5 | wrX6 | wrScr => exact ⟨_, rfl⟩
  | rxpush | msin | reset | save | resolve | connect | attachMouse => exact ⟨_, rfl⟩
  | restore x =>
    simp only [exec, execRestore]
    split
    · exact ⟨_, rfl⟩
    · exact ⟨_, rfl⟩

/-! ### Where IIR and the request level move -/

/-- IIR and the request level are those of another block. -/
def Port.SameRequest (p q : Port) : Prop := q.iir = p.iir ∧ q.intr = p.intr

theorem Port.SameRequest.refl (p : Port) : p.SameRequest p := ⟨rfl, rfl⟩

theorem Port.SameRequest.trans {p q r : Port} (h : p.SameRequest q) (h' : q.SameRequest r) : p.SameRequest r :=
  ⟨h'.1.trans h.1, h'.2.trans h.2⟩

/-- Settles O51: of the changes an operation can make to a block, those of the operations left write neither IIR nor the
request level. -/
theorem requestMovesOnlyWithTheArbiter : Obligations.RequestMovesOnlyWithTheArbiter := by
  intro i s t h hrbr hdll hmsr hier hthr hmcr hpush hmsin hreset hrestore q
  refine exec_relates (R := Port.SameRequest) ?_ h
  exact {
    refl := .refl
    trans := fun _ _ _ => .trans
    take := fun hi => absurd hi (not_or.mpr ⟨hrbr, hdll⟩)
    clear := fun hi => absurd hi hmsr
    thr := fun v hi => absurd hi (hthr v)
    accept := fun v hi => absurd hi (hthr v)
    sink := fun v hi => absurd hi (hthr v)
    push := fun hi => absurd hi (not_or.mpr ⟨not_exists.mpr hthr, not_exists.mpr hpush⟩)
    latch := fun _ p _ => .refl p
    enable := fun v hi => absurd hi (hier v)
    line := fun _ _ p => .refl p
    modem := fun v hi => absurd hi (hmcr v)
    inputs := by
      rintro (⟨v, hi⟩ | ⟨c, d, r, l, hi⟩)
      · exact absurd hi (hmcr v)
      · exact absurd hi (hmsin c d r l)
    scratch := fun _ _ p _ => .refl p
    reset := fun hi => absurd hi hreset
    restore := fun x hi => absurd hi (hrestore x)
    link := fun _ p q hl => by rw [hl.2.1]; exact .refl p }

/-! ### What the request depends on -/

/-- Two blocks agree in what the arbiter reads: its four inputs, the two condition codes, and IIR, of which it keeps bits
(R220, R222, R225). -/
structure Port.SameInputs (p q : Port) : Prop where
  idRda : p.cfg.idRda = q.cfg.idRda
  idMsi : p.cfg.idMsi = q.cfg.idMsi
  dr : p.dr = q.dr
  msr : p.msr = q.msr
  erbfi : p.erbfi = q.erbfi
  edssi : p.edssi = q.edssi
  iir : p.iir = q.iir

theorem Port.SameInputs.arbiterCode {p q : Port} (h : p.SameInputs q) : p.arbiterCode = q.arbiterCode := by
  have hrda : p.condRda = q.condRda := by rw [Port.condRda, Port.condRda, h.dr, h.erbfi]
  have hmsi : p.condMsi = q.condMsi := by rw [Port.condMsi, Port.condMsi, Port.deltas, Port.deltas, h.msr, h.edssi]
  rw [Port.arbiterCode, Port.arbiterCode, hrda, hmsi, h.idRda, h.idMsi]

theorem Port.SameInputs.arbitrated {p q : Port} (h : p.SameInputs q) :
    p.arbitrated.iir = q.arbitrated.iir ∧ p.arbitrated.intr = q.arbitrated.intr := by
  cases hq : q.arbiterCode with
  | some code =>
    rw [Port.arbitrated_of_code hq, Port.arbitrated_of_code (h.arbiterCode.trans hq), h.iir]
    exact ⟨rfl, rfl⟩
  | none =>
    rw [Port.arbitrated_of_no_code hq, Port.arbitrated_of_no_code (h.arbiterCode.trans hq), h.iir]
    exact ⟨rfl, rfl⟩

/-- Of the arbiter's inputs staging moves DR, which it reads itself, with the queue (R141). -/
theorem Port.SameInputs.staged {p q : Port} (h : p.SameInputs q) (hrxq : p.rxq = q.rxq) :
    p.staged.SameInputs q.staged := by
  have hdr : p.staged.dr = q.staged.dr := by
    cases hq : q.rxq with
    | nil => rw [Port.staged_nil hq, Port.staged_nil (hrxq.trans hq), h.dr]
    | cons b rest =>
      cases hd : q.dr with
      | true => rw [Port.staged_ready hd, Port.staged_ready (h.dr.trans hd), h.dr]
      | false =>
        rw [Port.staged_cons hq hd, Port.staged_cons (hrxq.trans hq) (h.dr.trans hd), Port.dr, Port.dr, getLsbD_lsrDr,
          getLsbD_lsrDr]
        rfl
  rw [p.staged_frame, q.staged_frame]
  exact { h with dr := hdr }

theorem Port.SameInputs.pushed {p q : Port} (h : p.SameInputs q) (hrxq : p.rxq = q.rxq) (data : List Byte) :
    (p.pushed data).iir = (q.pushed data).iir ∧ (p.pushed data).intr = (q.pushed data).intr := by
  have happended : Port.SameInputs { p with rxq := p.rxq ++ data } { q with rxq := q.rxq ++ data } := { h with }
  exact (happended.staged (congrArg (· ++ data) hrxq)).arbitrated

theorem Port.SameInputs.inputs {p q : Port} (h : p.SameInputs q) (c d r l : Bool) :
    (p.inputs c d r l).iir = (q.inputs c d r l).iir ∧ (p.inputs c d r l).intr = (q.inputs c d r l).intr := by
  have hset : Port.SameInputs { p with msr := msrAfter p.msr c d r l } { q with msr := msrAfter q.msr c d r l } :=
    { h with msr := congrArg (msrAfter · c d r l) h.msr }
  exact hset.arbitrated

/-- `MSIN` on a live block, as the block sees it (R142). -/
theorem exec_msin_live {s : State} (h : s.cur.live = true) (c d r l : Bool) :
    ∃ t, exec (.msin c d r l) s = .next t ∧ t.cur = s.cur.inputs c d r l :=
  ⟨_, callEnd_live h _ _, (State.cur_returning _ _).trans (s.cur_msIn c d r l)⟩

/-- Settles O50: both calls end in the arbiter, which reads its inputs only; staging reads DR and the queue beside them. -/
theorem requestDependsOnItsInputsOnly : Obligations.RequestDependsOnItsInputsOnly := by
  intro s s' hlive hlive' hrda hmsi hdr hrxq hmsr herbfi hedssi hiir
  have hinputs : s.cur.SameInputs s'.cur := ⟨hrda, hmsi, hdr, hmsr, herbfi, hedssi, hiir⟩
  constructor
  · intro data
    obtain ⟨t, ht, hcur, -⟩ := exec_rxpush_live hlive data
    obtain ⟨t', ht', hcur', -⟩ := exec_rxpush_live hlive' data
    refine ⟨t, t', ht, ht', ?_⟩
    rw [hcur, hcur']
    exact hinputs.pushed hrxq (rxBytes data)
  · intro c d r l
    obtain ⟨t, ht, hcur⟩ := exec_msin_live hlive c d r l
    obtain ⟨t', ht', hcur'⟩ := exec_msin_live hlive' c d r l
    refine ⟨t, t', ht, ht', ?_⟩
    rw [hcur, hcur']
    exact hinputs.inputs c d r l

/-! ### The modem status behind the last byte -/

/-- Settles O49: the read that empties RBR leaves DR clear, so that the arbiter it ends with finds the modem-status condition
alone (R221). -/
theorem modemStatusReportedAfterReceive : Obligations.ModemStatusReportedAfterReceive := by
  intro s hlive _ hrxq hedssi hdeltas
  obtain ⟨t, hexec, -, -, hlast, -, -, hran, ⟨e, hevents, hcall⟩, hframe⟩ := receiveBufferRead s hlive
  obtain ⟨-, -, hdr⟩ := hlast hrxq
  obtain ⟨-, hreport, -, -⟩ := hran
  have hcfg : t.cur.cfg = s.cur.cfg := by rw [hframe]
  have hier : t.cur.ier = s.cur.ier := by rw [hframe]
  have hmsr : t.cur.msr = s.cur.msr := by rw [hframe]
  rw [hdr, hmsr, hier, hcfg] at hreport
  obtain ⟨hnoInt, hcode, hintr⟩ := hreport ⟨by simp, hdeltas, hedssi⟩
  have hassert := hcall.1 hintr
  rw [hcfg] at hassert
  exact ⟨t, hexec, hnoInt, hcode, hintr, hassert ▸ hevents⟩

end Sys2Proof.Machine
end
